-- ==== Sys2Proof/Word.lean ====
section
/-! DEFINITION. The two word types of the block (spec 00_scope R6: ADDR_W = 16, DATA_W = 8). -/

namespace Sys2Proof

/-- A data byte: every transaction moves exactly one (20_memory R42). -/
abbrev Byte := BitVec 8

/-- A CPU bus address; every one of the 65,536 values is legal (20_memory R37). -/
abbrev Addr := BitVec 16

end Sys2Proof
end

