-- ==== Sys2Proof/Config.lean ====
section
/-! DEFINITION. The implementation parameters of 00_scope R6: the fixed values, and the two build or caller choices
the spec leaves OPEN (no body: nothing can be proved of their value). INIT_WRAM, INIT_CART_RAM and INIT_RTC are data of
the start state and stand in `Machine.Params`. -/

namespace Sys2Proof.Config

/-- `HEADER_SIZE` (00_scope R6, 40_load R72). -/
def headerSize : Nat := 0x150

/-- `OPEN_BUS` (20_memory R40). -/
def openBus : Byte := 0xFF#8

/-- `MAX_ROM_BANKS` (40_load R79). -/
def maxRomBanks : Nat := 96

/-- `MAX_RAM_BANKS` (40_load R80). -/
def maxRamBanks : Nat := 16

/-- `ROM_BANK_SIZE` (20_memory R39). -/
def romBankSize : Nat := 0x4000

/-- `RAM_BANK_SIZE` (20_memory R39). -/
def ramBankSize : Nat := 0x2000

/-- `WRAM_SIZE` (00_scope R6, 10_state R18). -/
def wramSize : Nat := 0x2000

/-- `MBC2_RAM_CELLS` (10_state R20). -/
def mbc2RamCells : Nat := 512

/-- `LENIENT` (00_scope R6, 41_address_space R91): OPEN, a build option. Log 6. -/
opaque lenient : Bool

/-- `CHECK_LOGO` (00_scope R6, 40_load R83): OPEN, the default of a load's `check_logo`. Log 6. -/
opaque checkLogo : Bool

end Sys2Proof.Config
end

