-- ==== Sys2Proof/Syntax.lean ====
section
/-! DEFINITION. The operations the block accepts (30_encoding): bus transactions, and one constructor of `Instr` per row of
opcode_table.json. A bus operation carries the full address `a` and, for a write, the data `v` (R65). -/

namespace Sys2Proof

/-- The five controller variants (00_scope R2). -/
inductive Variant where
  | romOnly | mbc1 | mbc2 | mbc3 | mbc5
deriving DecidableEq, Repr

/-- The access kind (30_encoding R56). -/
inductive AccessKind where
  | read | write
deriving DecidableEq, Repr

/-- A bus transaction: `RD a` or `WR a, v` (30_encoding R56). -/
inductive Transaction where
  | rd (a : Addr)
  | wr (a : Addr) (v : Byte)
deriving DecidableEq, Repr

/-- One constructor per row of opcode_table.json. -/
inductive Instr where
  /-- AS.RD_WRAM (R92): read internal RAM. -/
  | asRdWram (a : Addr)
  /-- AS.WR_WRAM (R93): write internal RAM. -/
  | asWrWram (a : Addr) (v : Byte)
  /-- AS.RD_UNMAPPED_8000 (R94): read the unmapped video range. -/
  | asRdUnmapped8000 (a : Addr)
  /-- AS.RD_UNMAPPED_E000 (R94): read the unmapped high range. -/
  | asRdUnmappedE000 (a : Addr)
  /-- AS.WR_UNMAPPED_8000 (R95): write the unmapped video range. -/
  | asWrUnmapped8000 (a : Addr) (v : Byte)
  /-- AS.WR_UNMAPPED_E000 (R95): write the unmapped high range. -/
  | asWrUnmappedE000 (a : Addr) (v : Byte)
  /-- ROM.RD_ROM0 (R97): read the fixed ROM window. -/
  | romRdRom0 (a : Addr)
  /-- ROM.RD_ROMX (R98): read the switchable ROM window. -/
  | romRdRomx (a : Addr)
  /-- ROM.RD_RAM (R99): read the RAM window. -/
  | romRdRam (a : Addr)
  /-- ROM.WR_RAM (R101): write the RAM window. -/
  | romWrRam (a : Addr) (v : Byte)
  /-- ROM.WR_ROM (R100): write the ROM windows (a no-op). -/
  | romWrRom (a : Addr) (v : Byte)
  /-- MBC1.RD_ROM0 (R104): read the fixed ROM window. -/
  | mbc1RdRom0 (a : Addr)
  /-- MBC1.RD_ROMX (R105): read the switchable ROM window. -/
  | mbc1RdRomx (a : Addr)
  /-- MBC1.RD_RAM (R106): read the RAM window. -/
  | mbc1RdRam (a : Addr)
  /-- MBC1.WR_RAM (R107): write the RAM window. -/
  | mbc1WrRam (a : Addr) (v : Byte)
  /-- MBC1.WR_RAMEN (R108): write the RAM-enable latch. -/
  | mbc1WrRamen (a : Addr) (v : Byte)
  /-- MBC1.WR_BANK1 (R109): write the low ROM bank-select register. -/
  | mbc1WrBank1 (a : Addr) (v : Byte)
  /-- MBC1.WR_BANK2 (R110): write the upper bank-select register. -/
  | mbc1WrBank2 (a : Addr) (v : Byte)
  /-- MBC1.WR_MODE (R111): write the banking-mode flag. -/
  | mbc1WrMode (a : Addr) (v : Byte)
  /-- MBC2.RD_ROM0 (R114): read the fixed ROM window. -/
  | mbc2RdRom0 (a : Addr)
  /-- MBC2.RD_ROMX (R115): read the switchable ROM window. -/
  | mbc2RdRomx (a : Addr)
  /-- MBC2.RD_RAM (R116): read the RAM window. -/
  | mbc2RdRam (a : Addr)
  /-- MBC2.WR_RAM (R117): write the RAM window. -/
  | mbc2WrRam (a : Addr) (v : Byte)
  /-- MBC2.WR_RAMEN (R118): write the RAM-enable latch. -/
  | mbc2WrRamen (a : Addr) (v : Byte)
  /-- MBC2.WR_ROMB (R119): write the ROM bank register. -/
  | mbc2WrRomb (a : Addr) (v : Byte)
  /-- MBC2.WR_IGNORED (R120): an ignored write. -/
  | mbc2WrIgnored (a : Addr) (v : Byte)
  /-- MBC3.RD_ROM0 (R124): read the fixed ROM window. -/
  | mbc3RdRom0 (a : Addr)
  /-- MBC3.RD_ROMX (R125): read the switchable ROM window. -/
  | mbc3RdRomx (a : Addr)
  /-- MBC3.RD_RAM (R126): read the RAM window. -/
  | mbc3RdRam (a : Addr)
  /-- MBC3.WR_RAM (R127): write the RAM window. -/
  | mbc3WrRam (a : Addr) (v : Byte)
  /-- MBC3.WR_RAMEN (R128): write the RAM-enable latch. -/
  | mbc3WrRamen (a : Addr) (v : Byte)
  /-- MBC3.WR_ROMB (R129): write the ROM bank register. -/
  | mbc3WrRomb (a : Addr) (v : Byte)
  /-- MBC3.WR_SEL (R130): write the RAM-bank or RTC select register. -/
  | mbc3WrSel (a : Addr) (v : Byte)
  /-- MBC3.WR_LATCH (R131): write the latch sequencer. -/
  | mbc3WrLatch (a : Addr) (v : Byte)
  /-- MBC5.RD_ROM0 (R137): read the fixed ROM window. -/
  | mbc5RdRom0 (a : Addr)
  /-- MBC5.RD_ROMX (R138): read the switchable ROM window. -/
  | mbc5RdRomx (a : Addr)
  /-- MBC5.RD_RAM (R139): read the RAM window. -/
  | mbc5RdRam (a : Addr)
  /-- MBC5.WR_RAM (R140): write the RAM window. -/
  | mbc5WrRam (a : Addr) (v : Byte)
  /-- MBC5.WR_RAMEN (R141): write the RAM-enable latch. -/
  | mbc5WrRamen (a : Addr) (v : Byte)
  /-- MBC5.WR_ROMB_LO (R142): write the low 8 bits of the ROM bank. -/
  | mbc5WrRombLo (a : Addr) (v : Byte)
  /-- MBC5.WR_ROMB_HI (R143): write bit 8 of the ROM bank. -/
  | mbc5WrRombHi (a : Addr) (v : Byte)
  /-- MBC5.WR_RAMB (R144): write the RAM bank register. -/
  | mbc5WrRamb (a : Addr) (v : Byte)
  /-- MBC5.WR_IGNORED (R145): an ignored write. -/
  | mbc5WrIgnored (a : Addr) (v : Byte)
  /-- LOAD (R71): load a cartridge image; `none` takes the default CHECK_LOGO. -/
  | load (bytes : List Byte) (checkLogo : Option Bool)
  /-- MBC3.RTC_TICK (R133): advance the live clock by one second. -/
  | mbc3RtcTick
deriving DecidableEq, Repr

end Sys2Proof
end

