-- ==== Sys2Proof/WellFormed.lean ====
section
/-! DEFINITION. Which operations are well formed: the address lies in the range the operation's rule names under
"Operands" (41_address_space to 46_mbc5). The data byte and the events' operands are free. The ranges are written from
the rules' prose, the decoder's masks from the table: that the two agree is a claim. -/

namespace Sys2Proof

/-- `a` in `lo..hi`, inclusive (00_scope R7). -/
def Addr.within (a : Addr) (lo hi : Nat) : Bool := Nat.ble lo a.toNat && Nat.ble a.toNat hi

/-- The operation is one the spec gives a meaning to. -/
def Instr.wellFormed : Instr → Bool
  | .asRdWram a => Addr.within a 0xC000 0xDFFF
  | .asWrWram a _ => Addr.within a 0xC000 0xDFFF
  | .asRdUnmapped8000 a => Addr.within a 0x8000 0x9FFF
  | .asRdUnmappedE000 a => Addr.within a 0xE000 0xFFFF
  | .asWrUnmapped8000 a _ => Addr.within a 0x8000 0x9FFF
  | .asWrUnmappedE000 a _ => Addr.within a 0xE000 0xFFFF
  | .romRdRom0 a => Addr.within a 0x0000 0x3FFF
  | .romRdRomx a => Addr.within a 0x4000 0x7FFF
  | .romRdRam a => Addr.within a 0xA000 0xBFFF
  | .romWrRam a _ => Addr.within a 0xA000 0xBFFF
  | .romWrRom a _ => Addr.within a 0x0000 0x7FFF
  | .mbc1RdRom0 a => Addr.within a 0x0000 0x3FFF
  | .mbc1RdRomx a => Addr.within a 0x4000 0x7FFF
  | .mbc1RdRam a => Addr.within a 0xA000 0xBFFF
  | .mbc1WrRam a _ => Addr.within a 0xA000 0xBFFF
  | .mbc1WrRamen a _ => Addr.within a 0x0000 0x1FFF
  | .mbc1WrBank1 a _ => Addr.within a 0x2000 0x3FFF
  | .mbc1WrBank2 a _ => Addr.within a 0x4000 0x5FFF
  | .mbc1WrMode a _ => Addr.within a 0x6000 0x7FFF
  | .mbc2RdRom0 a => Addr.within a 0x0000 0x3FFF
  | .mbc2RdRomx a => Addr.within a 0x4000 0x7FFF
  | .mbc2RdRam a => Addr.within a 0xA000 0xBFFF
  | .mbc2WrRam a _ => Addr.within a 0xA000 0xBFFF
  | .mbc2WrRamen a _ => Addr.within a 0x0000 0x3FFF && !a.getLsbD 8
  | .mbc2WrRomb a _ => Addr.within a 0x0000 0x3FFF && a.getLsbD 8
  | .mbc2WrIgnored a _ => Addr.within a 0x4000 0x7FFF
  | .mbc3RdRom0 a => Addr.within a 0x0000 0x3FFF
  | .mbc3RdRomx a => Addr.within a 0x4000 0x7FFF
  | .mbc3RdRam a => Addr.within a 0xA000 0xBFFF
  | .mbc3WrRam a _ => Addr.within a 0xA000 0xBFFF
  | .mbc3WrRamen a _ => Addr.within a 0x0000 0x1FFF
  | .mbc3WrRomb a _ => Addr.within a 0x2000 0x3FFF
  | .mbc3WrSel a _ => Addr.within a 0x4000 0x5FFF
  | .mbc3WrLatch a _ => Addr.within a 0x6000 0x7FFF
  | .mbc5RdRom0 a => Addr.within a 0x0000 0x3FFF
  | .mbc5RdRomx a => Addr.within a 0x4000 0x7FFF
  | .mbc5RdRam a => Addr.within a 0xA000 0xBFFF
  | .mbc5WrRam a _ => Addr.within a 0xA000 0xBFFF
  | .mbc5WrRamen a _ => Addr.within a 0x0000 0x1FFF
  | .mbc5WrRombLo a _ => Addr.within a 0x2000 0x2FFF
  | .mbc5WrRombHi a _ => Addr.within a 0x3000 0x3FFF
  | .mbc5WrRamb a _ => Addr.within a 0x4000 0x5FFF
  | .mbc5WrIgnored a _ => Addr.within a 0x6000 0x7FFF
  | .load _ _ => true
  | .mbc3RtcTick => true

end Sys2Proof
end

