-- ==== Sys2Proof/Decode.lean ====
section
/-! DEFINITION. The decoder and the encoder (30_encoding R57, R70). A transaction is decoded from its 17-bit key
`K = W ++ a` and the loaded variant: the first row of the table whose variant fits and for which `K &&& mask = match`.
The byte layout of a transaction (three key bytes, low byte first, then the data byte of a write) is the model's own
(log 7). -/

namespace Sys2Proof

/-- The decode key `K = W ++ a[15:0]`, with `W` at bit 16 (R57). -/
def Transaction.key : Transaction → BitVec 17
  | .rd a => 0#1 ++ a
  | .wr a _ => 1#1 ++ a

/-- The address of a transaction (R56). -/
def Transaction.addr : Transaction → Addr
  | .rd a => a
  | .wr a _ => a

/-- The data byte of a write; a read has none, and no read row uses this value (R56). -/
def Transaction.data : Transaction → Byte
  | .rd _ => 0#8
  | .wr _ v => v

/-- One bus row of opcode_table.json: its variant (`none` is `any`), mask and match, and the operation it stands for. -/
structure Row where
  variant : Option Variant
  mask : BitVec 17
  bits : BitVec 17
  build : Addr → Byte → Instr

/-- The row serves the variant: its own, or `any` (R57). -/
def Row.serves (r : Row) (vr : Variant) : Bool := r.variant.all (· == vr)

/-- The row matches the key under the loaded variant (R57). -/
def Row.hits (r : Row) (vr : Variant) (k : BitVec 17) : Bool := r.serves vr && (k &&& r.mask == r.bits)

/-- The AddressSpace rows of opcode_table.json. -/
def addressSpaceRows : List Row :=
  [ ⟨none, 0x1E000#17, 0x0C000#17, fun a _ => .asRdWram a⟩
  , ⟨none, 0x1E000#17, 0x1C000#17, Instr.asWrWram⟩
  , ⟨none, 0x1E000#17, 0x08000#17, fun a _ => .asRdUnmapped8000 a⟩
  , ⟨none, 0x1E000#17, 0x0E000#17, fun a _ => .asRdUnmappedE000 a⟩
  , ⟨none, 0x1E000#17, 0x18000#17, Instr.asWrUnmapped8000⟩
  , ⟨none, 0x1E000#17, 0x1E000#17, Instr.asWrUnmappedE000⟩ ]

/-- The RomOnly rows of opcode_table.json. -/
def romOnlyRows : List Row :=
  [ ⟨some .romOnly, 0x1C000#17, 0x00000#17, fun a _ => .romRdRom0 a⟩
  , ⟨some .romOnly, 0x1C000#17, 0x04000#17, fun a _ => .romRdRomx a⟩
  , ⟨some .romOnly, 0x1E000#17, 0x0A000#17, fun a _ => .romRdRam a⟩
  , ⟨some .romOnly, 0x1E000#17, 0x1A000#17, Instr.romWrRam⟩
  , ⟨some .romOnly, 0x18000#17, 0x10000#17, Instr.romWrRom⟩ ]

/-- The MBC1 rows of opcode_table.json. -/
def mbc1Rows : List Row :=
  [ ⟨some .mbc1, 0x1C000#17, 0x00000#17, fun a _ => .mbc1RdRom0 a⟩
  , ⟨some .mbc1, 0x1C000#17, 0x04000#17, fun a _ => .mbc1RdRomx a⟩
  , ⟨some .mbc1, 0x1E000#17, 0x0A000#17, fun a _ => .mbc1RdRam a⟩
  , ⟨some .mbc1, 0x1E000#17, 0x1A000#17, Instr.mbc1WrRam⟩
  , ⟨some .mbc1, 0x1E000#17, 0x10000#17, Instr.mbc1WrRamen⟩
  , ⟨some .mbc1, 0x1E000#17, 0x12000#17, Instr.mbc1WrBank1⟩
  , ⟨some .mbc1, 0x1E000#17, 0x14000#17, Instr.mbc1WrBank2⟩
  , ⟨some .mbc1, 0x1E000#17, 0x16000#17, Instr.mbc1WrMode⟩ ]

/-- The MBC2 rows of opcode_table.json. -/
def mbc2Rows : List Row :=
  [ ⟨some .mbc2, 0x1C000#17, 0x00000#17, fun a _ => .mbc2RdRom0 a⟩
  , ⟨some .mbc2, 0x1C000#17, 0x04000#17, fun a _ => .mbc2RdRomx a⟩
  , ⟨some .mbc2, 0x1E000#17, 0x0A000#17, fun a _ => .mbc2RdRam a⟩
  , ⟨some .mbc2, 0x1E000#17, 0x1A000#17, Instr.mbc2WrRam⟩
  , ⟨some .mbc2, 0x1C100#17, 0x10000#17, Instr.mbc2WrRamen⟩
  , ⟨some .mbc2, 0x1C100#17, 0x10100#17, Instr.mbc2WrRomb⟩
  , ⟨some .mbc2, 0x1C000#17, 0x14000#17, Instr.mbc2WrIgnored⟩ ]

/-- The MBC3 rows of opcode_table.json. -/
def mbc3Rows : List Row :=
  [ ⟨some .mbc3, 0x1C000#17, 0x00000#17, fun a _ => .mbc3RdRom0 a⟩
  , ⟨some .mbc3, 0x1C000#17, 0x04000#17, fun a _ => .mbc3RdRomx a⟩
  , ⟨some .mbc3, 0x1E000#17, 0x0A000#17, fun a _ => .mbc3RdRam a⟩
  , ⟨some .mbc3, 0x1E000#17, 0x1A000#17, Instr.mbc3WrRam⟩
  , ⟨some .mbc3, 0x1E000#17, 0x10000#17, Instr.mbc3WrRamen⟩
  , ⟨some .mbc3, 0x1E000#17, 0x12000#17, Instr.mbc3WrRomb⟩
  , ⟨some .mbc3, 0x1E000#17, 0x14000#17, Instr.mbc3WrSel⟩
  , ⟨some .mbc3, 0x1E000#17, 0x16000#17, Instr.mbc3WrLatch⟩ ]

/-- The MBC5 rows of opcode_table.json. -/
def mbc5Rows : List Row :=
  [ ⟨some .mbc5, 0x1C000#17, 0x00000#17, fun a _ => .mbc5RdRom0 a⟩
  , ⟨some .mbc5, 0x1C000#17, 0x04000#17, fun a _ => .mbc5RdRomx a⟩
  , ⟨some .mbc5, 0x1E000#17, 0x0A000#17, fun a _ => .mbc5RdRam a⟩
  , ⟨some .mbc5, 0x1E000#17, 0x1A000#17, Instr.mbc5WrRam⟩
  , ⟨some .mbc5, 0x1E000#17, 0x10000#17, Instr.mbc5WrRamen⟩
  , ⟨some .mbc5, 0x1F000#17, 0x12000#17, Instr.mbc5WrRombLo⟩
  , ⟨some .mbc5, 0x1F000#17, 0x13000#17, Instr.mbc5WrRombHi⟩
  , ⟨some .mbc5, 0x1E000#17, 0x14000#17, Instr.mbc5WrRamb⟩
  , ⟨some .mbc5, 0x1E000#17, 0x16000#17, Instr.mbc5WrIgnored⟩ ]

/-- All 43 bus rows. -/
def rows : List Row :=
  addressSpaceRows ++ romOnlyRows ++ mbc1Rows ++ mbc2Rows ++ mbc3Rows ++ mbc5Rows

/-- The operation a transaction is, under the loaded variant (R57). -/
def decodeTransaction (vr : Variant) (t : Transaction) : Option Instr :=
  (rows.find? (fun r => r.hits vr t.key)).map (fun r => r.build t.addr t.data)

/-- Why a byte sequence is not a transaction. -/
inductive DecodeError where
  /-- fewer bytes than the three of a key, or a write without its data byte -/
  | truncated
  /-- one of the seven bits above the 17-bit key is set -/
  | reservedKeyBits
  /-- no row matches (R70 says that this never happens) -/
  | noRow
deriving DecidableEq, Repr

/-- What the decoder answers: a value with the bytes after it, or a rejection by name. -/
inductive Decoded (α : Type) where
  | ok (x : α) (rest : List Byte)
  | reject (e : DecodeError)
deriving DecidableEq, Repr

/-- The transaction at the head of a byte sequence (log 7). -/
def transactionOfBytes : List Byte → Decoded Transaction
  | k0 :: k1 :: k2 :: rest =>
    if k2 = 0x00#8 then .ok (.rd (k1 ++ k0)) rest
    else if k2 = 0x01#8 then
      match rest with
      | v :: rest => .ok (.wr (k1 ++ k0) v) rest
      | [] => .reject .truncated
    else .reject .reservedKeyBits
  | _ => .reject .truncated

/-- The operation at the head of a byte sequence, under the loaded variant; total on any bytes. -/
def decode (vr : Variant) (bytes : List Byte) : Decoded Instr :=
  match transactionOfBytes bytes with
  | .reject e => .reject e
  | .ok t rest =>
    match decodeTransaction vr t with
    | some i => .ok i rest
    | none => .reject .noRow

/-- The bytes of a transaction (log 7). -/
def Transaction.bytes : Transaction → List Byte
  | .rd a => [a.setWidth 8, a.extractLsb' 8 8, 0x00#8]
  | .wr a v => [a.setWidth 8, a.extractLsb' 8 8, 0x01#8, v]

/-- The transaction an operation is issued by; the two events have no bus key (R58). -/
def Instr.transaction : Instr → Option Transaction
  | .asRdWram a => some (.rd a)
  | .asWrWram a v => some (.wr a v)
  | .asRdUnmapped8000 a => some (.rd a)
  | .asRdUnmappedE000 a => some (.rd a)
  | .asWrUnmapped8000 a v => some (.wr a v)
  | .asWrUnmappedE000 a v => some (.wr a v)
  | .romRdRom0 a => some (.rd a)
  | .romRdRomx a => some (.rd a)
  | .romRdRam a => some (.rd a)
  | .romWrRam a v => some (.wr a v)
  | .romWrRom a v => some (.wr a v)
  | .mbc1RdRom0 a => some (.rd a)
  | .mbc1RdRomx a => some (.rd a)
  | .mbc1RdRam a => some (.rd a)
  | .mbc1WrRam a v => some (.wr a v)
  | .mbc1WrRamen a v => some (.wr a v)
  | .mbc1WrBank1 a v => some (.wr a v)
  | .mbc1WrBank2 a v => some (.wr a v)
  | .mbc1WrMode a v => some (.wr a v)
  | .mbc2RdRom0 a => some (.rd a)
  | .mbc2RdRomx a => some (.rd a)
  | .mbc2RdRam a => some (.rd a)
  | .mbc2WrRam a v => some (.wr a v)
  | .mbc2WrRamen a v => some (.wr a v)
  | .mbc2WrRomb a v => some (.wr a v)
  | .mbc2WrIgnored a v => some (.wr a v)
  | .mbc3RdRom0 a => some (.rd a)
  | .mbc3RdRomx a => some (.rd a)
  | .mbc3RdRam a => some (.rd a)
  | .mbc3WrRam a v => some (.wr a v)
  | .mbc3WrRamen a v => some (.wr a v)
  | .mbc3WrRomb a v => some (.wr a v)
  | .mbc3WrSel a v => some (.wr a v)
  | .mbc3WrLatch a v => some (.wr a v)
  | .mbc5RdRom0 a => some (.rd a)
  | .mbc5RdRomx a => some (.rd a)
  | .mbc5RdRam a => some (.rd a)
  | .mbc5WrRam a v => some (.wr a v)
  | .mbc5WrRamen a v => some (.wr a v)
  | .mbc5WrRombLo a v => some (.wr a v)
  | .mbc5WrRombHi a v => some (.wr a v)
  | .mbc5WrRamb a v => some (.wr a v)
  | .mbc5WrIgnored a v => some (.wr a v)
  | .load _ _ => none
  | .mbc3RtcTick => none

/-- The variant whose rows hold the operation; `none` is `any` (R57). -/
def Instr.variant : Instr → Option Variant
  | .asRdWram _ => none
  | .asWrWram _ _ => none
  | .asRdUnmapped8000 _ => none
  | .asRdUnmappedE000 _ => none
  | .asWrUnmapped8000 _ _ => none
  | .asWrUnmappedE000 _ _ => none
  | .romRdRom0 _ => some .romOnly
  | .romRdRomx _ => some .romOnly
  | .romRdRam _ => some .romOnly
  | .romWrRam _ _ => some .romOnly
  | .romWrRom _ _ => some .romOnly
  | .mbc1RdRom0 _ => some .mbc1
  | .mbc1RdRomx _ => some .mbc1
  | .mbc1RdRam _ => some .mbc1
  | .mbc1WrRam _ _ => some .mbc1
  | .mbc1WrRamen _ _ => some .mbc1
  | .mbc1WrBank1 _ _ => some .mbc1
  | .mbc1WrBank2 _ _ => some .mbc1
  | .mbc1WrMode _ _ => some .mbc1
  | .mbc2RdRom0 _ => some .mbc2
  | .mbc2RdRomx _ => some .mbc2
  | .mbc2RdRam _ => some .mbc2
  | .mbc2WrRam _ _ => some .mbc2
  | .mbc2WrRamen _ _ => some .mbc2
  | .mbc2WrRomb _ _ => some .mbc2
  | .mbc2WrIgnored _ _ => some .mbc2
  | .mbc3RdRom0 _ => some .mbc3
  | .mbc3RdRomx _ => some .mbc3
  | .mbc3RdRam _ => some .mbc3
  | .mbc3WrRam _ _ => some .mbc3
  | .mbc3WrRamen _ _ => some .mbc3
  | .mbc3WrRomb _ _ => some .mbc3
  | .mbc3WrSel _ _ => some .mbc3
  | .mbc3WrLatch _ _ => some .mbc3
  | .mbc5RdRom0 _ => some .mbc5
  | .mbc5RdRomx _ => some .mbc5
  | .mbc5RdRam _ => some .mbc5
  | .mbc5WrRam _ _ => some .mbc5
  | .mbc5WrRamen _ _ => some .mbc5
  | .mbc5WrRombLo _ _ => some .mbc5
  | .mbc5WrRombHi _ _ => some .mbc5
  | .mbc5WrRamb _ _ => some .mbc5
  | .mbc5WrIgnored _ _ => some .mbc5
  | .load _ _ => none
  | .mbc3RtcTick => some .mbc3

/-- The operation belongs to the row set of the variant (R57). -/
def Instr.belongs (i : Instr) (vr : Variant) : Bool := i.variant.all (· == vr)

/-- The bytes of an operation; an event has none (R58). -/
def encode (i : Instr) : List Byte :=
  match i.transaction with
  | some t => t.bytes
  | none => []

/-- The `n` low bytes of a number, the least significant first. -/
def leBytes : Nat → Nat → List Byte
  | 0, _ => []
  | n + 1, w => BitVec.ofNat 8 w :: leBytes n (w / 256)

/-- The variant a table word is read under, since a word does not name one (log 8). -/
def tableVariant : Variant := .mbc5

/-- The bytes of a table word: the key's bits as the table numbers them, then the data byte in bits 31..24, every bit
above `nbits` zero (log 7). -/
def tableBytes (nbits w : Nat) : List Byte := leBytes 4 (w % 2 ^ nbits)

/-- The operation the decoder reads from a table word. -/
def decodeTableWord (nbits w : Nat) : Option Instr :=
  match decode tableVariant (tableBytes nbits w) with
  | .ok i _ => some i
  | .reject _ => none

end Sys2Proof
end

