-- ==== Sys2Proof/Machine/State.lean ====
section
/-! DEFINITION. The block's state as plain data (10_state), the operations waiting to be served, the outcomes of
operations (00_scope R9, 60_exceptions R147) and State.reset. -/

namespace Sys2Proof.Machine

/-- Byte storage: (offset, byte) pairs, offsets strictly rising, no entry equal to what an unlisted offset reads as. -/
abbrev Memory := List Host.Cell

/-! ### Configuration (10_state R12 to R14) -/

/-- `color_mode` (R13). -/
inductive ColorMode where
  | legacy | colorCapable
deriving DecidableEq, Repr

/-- `sgb_support` (R13). -/
inductive SgbSupport where
  | unsupported | supported
deriving DecidableEq, Repr

/-- The controller type with its payload (R14). `romSizeClass` is the raw ROM-size code byte. -/
inductive ControllerType where
  | romOnly
  | mbc1 (romSizeClass : Byte) (ramPresence battery : Bool)
  | mbc2 (romSizeClass : Byte) (battery : Bool)
  | mbc3 (romSizeClass : Byte) (ramPresence battery timerPresence : Bool)
  | mbc5 (romSizeClass : Byte) (ramPresence battery rumblePresence : Bool)
deriving DecidableEq, Repr

/-- The Header record (R13). `title` is the list of its ASCII codes (log 16). -/
structure Header where
  logo : List Byte
  title : List Byte
  colorMode : ColorMode
  sgbSupport : SgbSupport
  ctype : ControllerType
  romBanks : Nat
  ramBanks : Nat
deriving DecidableEq, Repr

/-- The configuration, written once, at load (R12). `image` is the ROM storage (R17). -/
structure CartConfig where
  header : Header
  ctype : ControllerType
  romBanks : Nat
  ramBanks : Nat
  image : List Byte
  lenient : Bool
deriving DecidableEq, Repr

/-! ### Bank-select registers (10_state R21 to R27) -/

/-- MBC1 registers (R22). -/
structure Mbc1Regs where
  ramEn : Bool
  bank1 : BitVec 5
  bank2 : BitVec 2
  mode : BitVec 1
deriving DecidableEq, Repr

/-- MBC2 registers (R23). -/
structure Mbc2Regs where
  ramEn : Bool
  romb : BitVec 4
deriving DecidableEq, Repr

/-- An RTC register file (R25): seconds, minutes, hours, day counter bits 7..0 and 8, halt, day-counter carry. -/
structure Rtc where
  S : BitVec 6
  M : BitVec 6
  H : BitVec 5
  DL : BitVec 8
  DH0 : BitVec 1
  HALT : BitVec 1
  DC : BitVec 1
deriving DecidableEq, Repr

/-- The clock of an MBC3 with a timer: the live file and the latched copy (R25, R26). -/
structure Clock where
  rtc : Rtc
  rtcl : Rtc
deriving DecidableEq, Repr

/-- MBC3 registers (R24); `clock` is there exactly when the type has a timer (R25, R26). -/
structure Mbc3Regs where
  ramEn : Bool
  romb : BitVec 7
  sel : BitVec 8
  latchPrev : BitVec 8
  clock : Option Clock
deriving DecidableEq, Repr

/-- MBC5 registers (R27). -/
structure Mbc5Regs where
  ramEn : Bool
  romb : BitVec 9
  ramb : BitVec 4
deriving DecidableEq, Repr

/-- The registers of the loaded variant; RomOnly has none (R21). -/
inductive Regs where
  | romOnly
  | mbc1 (r : Mbc1Regs)
  | mbc2 (r : Mbc2Regs)
  | mbc3 (r : Mbc3Regs)
  | mbc5 (r : Mbc5Regs)
deriving DecidableEq, Repr

/-- A loaded cartridge: configuration, registers, cartridge RAM (R11). A 4-bit cell of MBC2 (R20) is a byte whose high
nibble is zero (log 17). -/
structure Cartridge where
  cfg : CartConfig
  regs : Regs
  ram : Memory
deriving DecidableEq, Repr

/-! ### Parameters, inputs and outcomes -/

/-- The OPEN parameters of 00_scope R6 (RTC_TICKS is the place of `tick` among the inputs). -/
structure Params where
  lenient : Bool
  checkLogo : Bool
  initWram : List Byte
  initCartRam : List Byte
  initRtc : Rtc
deriving DecidableEq, Repr

/-- What an agent asks of the block (60_exceptions R154; log 1, log 13, log 14). -/
inductive Input where
  /-- bus master: one transaction (30_encoding R56) -/
  | bus (t : Transaction)
  /-- host loader: LOAD, `none` standing for the default CHECK_LOGO (40_load R71) -/
  | load (bytes : List Byte) (checkLogo : Option Bool)
  /-- host loader: the save that the next load starts from (70_reset R165) -/
  | supply (initCartRam : List Byte) (initRtc : Rtc)
  /-- RTC oscillator: one second has passed (45_mbc3 R132) -/
  | tick
  /-- host save agent: read byte `o` of `ram` (20_memory R52) -/
  | hostReadRam (o : Nat)
  /-- host save agent: overwrite byte `o` of `ram` (20_memory R52) -/
  | hostWriteRam (o : Nat) (v : Byte)
  /-- host save agent: read the live clock (20_memory R52) -/
  | hostReadRtc
  /-- host save agent: overwrite the live clock (20_memory R52) -/
  | hostWriteRtc (r : Rtc)
  /-- the surrounding system: a power cycle, with the internal RAM's new power-on contents (70_reset R161) -/
  | powerCycle (initWram : List Byte)
deriving DecidableEq, Repr

/-- The load errors with their recorded values (60_exceptions R147). -/
inductive LoadError where
  | headerTooShort (expected actual : Nat)
  | unsupportedControllerType (t : Byte)
  | unsupportedRomSizeCode (code : Byte)
  | unsupportedRamSizeCode (code : Byte)
  | logoMismatch
deriving DecidableEq, Repr

/-- The outcome of an operation (00_scope R9), and what the host save agent gets back. -/
inductive Response where
  | data (v : Byte)
  | ok
  | addrErr (a : Addr) (k : AccessKind)
  | loaded
  | loadErr (e : LoadError)
  | hostByte (v : Byte)
  | hostRtc (r : Rtc)
  | hostDone
  /-- the host asked for storage the loaded cartridge does not have -/
  | hostAbsent
deriving DecidableEq, Repr

/-- The block's state `(wram, cart)` (10_state R11), the parameters, and the model's own two fields: the operations
waiting to be served (log 1) and the outcome of the last one (log 2). -/
structure State where
  wram : Memory
  cart : Option Cartridge
  params : Params
  inputs : List Input
  response : Option Response
deriving DecidableEq, Repr

/-- Why the machine has no step. -/
inductive Fault where
  /-- Raised by every bus transaction while no cartridge is loaded: the model is stuck (70_reset R162). Safe. -/
  | noCartridge
  /-- Raised by a tick when no MBC3 with a timer is loaded: there is no oscillator and no such event (45_mbc3 R132). Safe. -/
  | noOscillator
deriving DecidableEq, Repr

/-- Why an operation is turned away. -/
inductive Refusal where
  /-- Raised by exec's arm of an instruction without a meaning. Safe. -/
  | notModelled (mnemonic : String)
  /-- Raised by a meaning whose row is not a row of the loaded variant (30_encoding R57); no step reaches it. Safe. -/
  | wrongVariant
  /-- Raised by a step whose transaction matches no row, which R70 says never happens. Safe. -/
  | undecodable (e : DecodeError)
deriving DecidableEq, Repr

/-- What a meaning answers. -/
abbrev Result := Host.Outcome State Fault Refusal

/-- The parameters of the reset state: LENIENT and CHECK_LOGO are opaque (log 6), the initial contents are all zero
(log 3, log 4, log 5). -/
def Params.reset : Params :=
  { lenient := Config.lenient
    checkLogo := Config.checkLogo
    initWram := []
    initCartRam := []
    initRtc := ⟨0, 0, 0, 0, 0, 0, 0⟩ }

/-- Power-on (10_state R32): no cartridge, and internal RAM at INIT_WRAM, which lists nothing. -/
def State.reset : State :=
  { wram := []
    cart := none
    params := Params.reset
    inputs := []
    response := none }

end Sys2Proof.Machine
end

