-- ==== Sys2Proof/Machine/Ops.lean ====
section
/-! DEFINITION. The named operations over storage, configuration and outcomes that the meanings share. -/

namespace Sys2Proof.Machine

/-! ### Byte storage in canonical form

`base o` is what an unlisted offset `o` reads as. -/

/-- The byte at offset `o`. -/
def Memory.read (base : Nat → Byte) : Memory → Nat → Byte
  | [], o => base o
  | (k, b) :: rest, o => if o = k then b else Memory.read base rest o

/-- Store `v` at offset `o`: the entry goes when `v` is what an unlisted offset reads as. -/
def Memory.write (base : Nat → Byte) : Memory → Nat → Byte → Memory
  | [], o, v => if v = base o then [] else [(o, v)]
  | (k, b) :: rest, o, v =>
    if o < k then (if v = base o then (k, b) :: rest else (o, v) :: (k, b) :: rest)
    else if o = k then (if v = base o then rest else (o, v) :: rest)
    else (k, b) :: Memory.write base rest o v

/-- Canonical from offset `lo` on: offsets at least `lo` and strictly rising, no entry equal to its base. -/
def Memory.wfFrom (base : Nat → Byte) : Nat → Memory → Bool
  | _, [] => true
  | lo, (k, b) :: rest => Nat.ble lo k && b != base k && Memory.wfFrom base (k + 1) rest

/-- The canonical form. -/
def Memory.wf (base : Nat → Byte) (m : Memory) : Bool := Memory.wfFrom base 0 m

/-- Every listed offset lies below `size`. -/
def Memory.below (size : Nat) (m : Memory) : Bool := m.all (fun c => Nat.ble (c.1 + 1) size)

/-- The storage whose bytes from offset `o` on are the given ones, over an all-zero base. -/
def Memory.ofBytesFrom (o : Nat) : List Byte → Memory
  | [] => []
  | b :: bs => if b = 0x00#8 then Memory.ofBytesFrom (o + 1) bs else (o, b) :: Memory.ofBytesFrom (o + 1) bs

/-- What an internal RAM byte not written since power-on reads as: its INIT_WRAM value (10_state R18; log 3). -/
def unlistedWram (p : Params) (o : Nat) : Byte := p.initWram.getD o 0x00#8

/-- What an unlisted cartridge RAM byte reads as. A load writes every byte (40_load R86), so this is only how the list
is kept short; it is visible where INIT_CART_RAM gives fewer bytes than the RAM has (log 4). -/
def unlistedRam (_o : Nat) : Byte := 0x00#8

/-- `WramRead(o)` (00_scope R8). -/
def wramRead (s : State) (o : Nat) : Byte := Memory.read (unlistedWram s.params) s.wram o

/-- `WramWrite(o, v)` (00_scope R8). -/
def wramWrite (s : State) (o : Nat) (v : Byte) : State :=
  { s with wram := Memory.write (unlistedWram s.params) s.wram o v }

/-- `CartRamRead(o)` (00_scope R8). -/
def cartRamRead (c : Cartridge) (o : Nat) : Byte := Memory.read unlistedRam c.ram o

/-- `CartRamWrite(o, v)` (00_scope R8). -/
def cartRamWrite (c : Cartridge) (o : Nat) (v : Byte) : Cartridge :=
  { c with ram := Memory.write unlistedRam c.ram o v }

/-- `RomByte(o)`: the image byte, or open bus past its end (20_memory R40). -/
def romByte (image : List Byte) (o : Nat) : Byte := image.getD o Config.openBus

/-! ### Capabilities of a controller type (10_state R15, R16) -/

/-- The variant of a controller type (00_scope R2). -/
def ControllerType.variant : ControllerType → Variant
  | .romOnly => .romOnly
  | .mbc1 _ _ _ => .mbc1
  | .mbc2 _ _ => .mbc2
  | .mbc3 _ _ _ _ => .mbc3
  | .mbc5 _ _ _ _ => .mbc5

/-- `has_ram` (R15). -/
def ControllerType.hasRam : ControllerType → Bool
  | .romOnly => false
  | .mbc1 _ ram _ => ram
  | .mbc2 _ _ => true
  | .mbc3 _ ram _ _ => ram
  | .mbc5 _ ram _ _ => ram

/-- `has_battery` (R15). -/
def ControllerType.hasBattery : ControllerType → Bool
  | .romOnly => false
  | .mbc1 _ _ battery => battery
  | .mbc2 _ battery => battery
  | .mbc3 _ _ battery _ => battery
  | .mbc5 _ _ battery _ => battery

/-- `has_timer` (R15). -/
def ControllerType.hasTimer : ControllerType → Bool
  | .romOnly => false
  | .mbc1 _ _ _ => false
  | .mbc2 _ _ => false
  | .mbc3 _ _ _ timer => timer
  | .mbc5 _ _ _ _ => false

/-- `has_rumble` (R15). -/
def ControllerType.hasRumble : ControllerType → Bool
  | .romOnly => false
  | .mbc1 _ _ _ => false
  | .mbc2 _ _ => false
  | .mbc3 _ _ _ _ => false
  | .mbc5 _ _ _ rumble => rumble

/-- `ram_usable` of a type and a RAM bank count (R16). -/
def ramUsable (ct : ControllerType) (ramBanks : Nat) : Bool :=
  match ct.variant with
  | .mbc2 => true
  | _ => ct.hasRam && Nat.ble 1 ramBanks

/-- `ram_usable(cfg)` (R16). -/
def CartConfig.ramUsable (cfg : CartConfig) : Bool := Machine.ramUsable cfg.ctype cfg.ramBanks

/-- The size of the cartridge RAM buffer, in bytes or, for MBC2, in cells (R19, R20). -/
def ramSize (ct : ControllerType) (ramBanks : Nat) : Nat :=
  match ct.variant with
  | .mbc2 => Config.mbc2RamCells
  | _ => if ramUsable ct ramBanks then ramBanks * Config.ramBankSize else 0

/-- The size of a cartridge's RAM buffer (R19, R20). -/
def CartConfig.ramSize (cfg : CartConfig) : Nat := Machine.ramSize cfg.ctype cfg.ramBanks

/-- The live clock and its latched copy, when the type has a timer (R25, R26). -/
def liveClock (c : Cartridge) (r : Mbc3Regs) : Option Clock :=
  if c.cfg.ctype.hasTimer then r.clock else none

/-! ### Outcomes (00_scope R8, R9) -/

/-- An operation's outcome with nothing else changed. -/
def answer (s : State) (r : Response) : Result := .next { s with response := some r }

/-- `respond v`: the read completes with a data byte. -/
def respond (s : State) (v : Byte) : Result := answer s (.data v)

/-- `done`: the write completes. -/
def done (s : State) : Result := answer s .ok

/-- A load ends in an error outcome and changes nothing (40_load R85). -/
def raiseLoadError (s : State) (e : LoadError) : Result := answer s (.loadErr e)

/-- The numeric codes of the errors (60_exceptions R147). -/
def LoadError.code : LoadError → Nat
  | .headerTooShort _ _ => 1
  | .unsupportedControllerType _ => 2
  | .unsupportedRomSizeCode _ => 3
  | .unsupportedRamSizeCode _ => 4
  | .logoMismatch => 5

/-- The error code an outcome carries, if it is an error (60_exceptions R147). -/
def Response.errorCode : Response → Option Nat
  | .addrErr _ _ => some 16
  | .loadErr e => some e.code
  | _ => none

/-! ### Reaching the loaded cartridge -/

/-- Run with the loaded cartridge; without one the model is stuck (70_reset R162; log 9). -/
def withCart (s : State) (k : Cartridge → Result) : Result :=
  match s.cart with
  | none => .fault .noCartridge
  | some c => k c

/-- Run on a loaded RomOnly cartridge (log 10 where another variant is loaded). -/
def onRomOnly (s : State) (k : Cartridge → Result) : Result :=
  withCart s fun c => match c.regs with
    | .romOnly => k c
    | .mbc1 _ | .mbc2 _ | .mbc3 _ | .mbc5 _ => .refused .wrongVariant

/-- Run on a loaded MBC1 cartridge. -/
def onMbc1 (s : State) (k : Cartridge → Mbc1Regs → Result) : Result :=
  withCart s fun c => match c.regs with
    | .mbc1 r => k c r
    | .romOnly | .mbc2 _ | .mbc3 _ | .mbc5 _ => .refused .wrongVariant

/-- Run on a loaded MBC2 cartridge. -/
def onMbc2 (s : State) (k : Cartridge → Mbc2Regs → Result) : Result :=
  withCart s fun c => match c.regs with
    | .mbc2 r => k c r
    | .romOnly | .mbc1 _ | .mbc3 _ | .mbc5 _ => .refused .wrongVariant

/-- Run on a loaded MBC3 cartridge. -/
def onMbc3 (s : State) (k : Cartridge → Mbc3Regs → Result) : Result :=
  withCart s fun c => match c.regs with
    | .mbc3 r => k c r
    | .romOnly | .mbc1 _ | .mbc2 _ | .mbc5 _ => .refused .wrongVariant

/-- Run on a loaded MBC5 cartridge. -/
def onMbc5 (s : State) (k : Cartridge → Mbc5Regs → Result) : Result :=
  withCart s fun c => match c.regs with
    | .mbc5 r => k c r
    | .romOnly | .mbc1 _ | .mbc2 _ | .mbc3 _ => .refused .wrongVariant

/-- The state with another cartridge record loaded. -/
def State.withCartridge (s : State) (c : Cartridge) : State := { s with cart := some c }

/-- A register write: the cartridge's registers become `regs`, and the write completes (`reg <- v; done`). -/
def writeRegs (s : State) (c : Cartridge) (regs : Regs) : Result :=
  done (s.withCartridge { c with regs := regs })

/-- A RAM write: byte `o` of the cartridge RAM becomes `v`, and the write completes. -/
def writeRam (s : State) (c : Cartridge) (o : Nat) (v : Byte) : Result :=
  done (s.withCartridge (cartRamWrite c o v))

end Sys2Proof.Machine
end

