-- ==== Sys2Proof/Machine/Operands.lean ====
section
/-! DEFINITION. Operand assembly (30_encoding R65): in-window offsets, storage offsets, the fields of a write value, the
zero alias and the modulo; and the address map (20_memory R38). Every offset is taken from the low bits of the address,
which equal `a - base` for a well-formed operation (log 19). -/

namespace Sys2Proof.Machine

/-- Where a transaction goes (41_address_space R89). -/
inductive Region where
  | cart | wram | unmapped
deriving DecidableEq, Repr

/-- `Region(a)` (41_address_space R89). -/
def regionOf (a : Addr) : Region :=
  if a.toNat ≤ 0x7FFF then .cart
  else if 0xA000 ≤ a.toNat ∧ a.toNat ≤ 0xBFFF then .cart
  else if 0xC000 ≤ a.toNat ∧ a.toNat ≤ 0xDFFF then .wram
  else .unmapped

/-- The offset in a ROM window, `a[13:0]`. -/
def romWindowOffset (a : Addr) : Nat := (a.setWidth 14).toNat

/-- The offset in the RAM window, `a[12:0]`. -/
def ramWindowOffset (a : Addr) : Nat := (a.setWidth 13).toNat

/-- The offset in internal RAM, `a[12:0]`. -/
def wramOffset (a : Addr) : Nat := (a.setWidth 13).toNat

/-- The MBC2 cell of a RAM-window address, `(a - 0xA000)[8:0]` (44_mbc2 R112). -/
def mbc2Cell (a : Addr) : Nat := (a.setWidth 9).toNat

/-- The ROM offset a switchable-window address reaches (20_memory R39). -/
def romxOffset (bank : Nat) (a : Addr) : Nat := romWindowOffset a + bank * Config.romBankSize

/-- The RAM offset a RAM-window address reaches (20_memory R39). -/
def ramOffset (bank : Nat) (a : Addr) : Nat := ramWindowOffset a + bank * Config.ramBankSize

/-- The zero alias: index 0 is used as index 1; applied before the modulo (20_memory R48). -/
def zeroAlias (x : Nat) : Nat := if x = 0 then 1 else x

/-- The low `n` bits of a write value (30_encoding R61 to R64). -/
def lowBits (n : Nat) (v : Byte) : BitVec n := v.setWidth n

/-- A one-bit field of a write value. -/
def bitField (i : Nat) (v : Byte) : BitVec 1 := v.extractLsb' i 1

end Sys2Proof.Machine
end

