-- ==== Sys2Proof/Machine/Flags.lean ====
section
/-! DEFINITION. The block has no flags and no condition codes (10_state R34). This file holds the only Boolean
computations it has: the RAM-enable decode shared by every variant, the access gate it drives, and the flag bits of the
RTC's DH register. -/

namespace Sys2Proof.Machine

/-- `EnableValue(v) = (v[3:0] == 0xA)` (30_encoding R59). -/
def enableValue (v : Byte) : Bool := lowBits 4 v == 0xA#4

/-- Cartridge RAM is accessible: usable and enabled (20_memory R49 (b)). -/
def ramAccessible (cfg : CartConfig) (ramEn : Bool) : Bool := cfg.ramUsable && ramEn

/-- The DH byte: bit 7 = DC, bit 6 = HALT, bits 5..1 read 0, bit 0 = day bit 8 (45_mbc3 R123). -/
def dhByte (r : Rtc) : Byte := (r.DC ++ r.HALT) ++ (0b00000#5 ++ r.DH0)

/-- A write of the DH register: DH0, HALT and DC come from bits 0, 6 and 7 (45_mbc3 R127). -/
def writeDh (r : Rtc) (v : Byte) : Rtc :=
  { r with DH0 := bitField 0 v, HALT := bitField 6 v, DC := bitField 7 v }

end Sys2Proof.Machine
end

