-- ==== Sys2Proof/Machine/AddressSpace.lean ====
section
/-! DEFINITION. The operations the AddressSpace serves itself (41_address_space): internal RAM and the unmapped ranges.
They are admitted with any cartridge loaded, and with none the model is stuck (R89). -/

namespace Sys2Proof.Machine

/-- A read of an unmapped address: open bus when lenient, else the addressing error, which is the one transaction's
outcome: nothing else happens and nothing is remembered (R91, R94; 60_exceptions R148, R152). -/
def readUnmapped (a : Addr) (s : State) : Result :=
  withCart s fun c => answer s (if c.cfg.lenient then .data Config.openBus else .addrErr a .read)

/-- A write of an unmapped address: dropped when lenient, else the addressing error, likewise (R91, R95). -/
def writeUnmapped (a : Addr) (s : State) : Result :=
  withCart s fun c => answer s (if c.cfg.lenient then .ok else .addrErr a .write)

/-- AS.RD_WRAM (R92). -/
def execAsRdWram (a : Addr) (s : State) : Result :=
  withCart s fun _ => respond s (wramRead s (wramOffset a))

/-- AS.WR_WRAM (R93). -/
def execAsWrWram (a : Addr) (v : Byte) (s : State) : Result :=
  withCart s fun _ => done (wramWrite s (wramOffset a) v)

/-- AS.RD_UNMAPPED_8000 (R94). -/
def execAsRdUnmapped8000 (a : Addr) (s : State) : Result := readUnmapped a s

/-- AS.RD_UNMAPPED_E000 (R94). -/
def execAsRdUnmappedE000 (a : Addr) (s : State) : Result := readUnmapped a s

/-- AS.WR_UNMAPPED_8000 (R95); the value is discarded. -/
def execAsWrUnmapped8000 (a : Addr) (_v : Byte) (s : State) : Result := writeUnmapped a s

/-- AS.WR_UNMAPPED_E000 (R95); the value is discarded. -/
def execAsWrUnmappedE000 (a : Addr) (_v : Byte) (s : State) : Result := writeUnmapped a s

end Sys2Proof.Machine
end

