-- ==== Sys2Proof/Machine/Mbc2.lean ====
section
/-! DEFINITION. The MBC2 operations and its nibble RAM (44_mbc2). -/

namespace Sys2Proof.Machine

/-- `CurRomBank(c)` (R113). -/
def mbc2CurRomBank (cfg : CartConfig) (r : Mbc2Regs) : Nat := zeroAlias r.romb.toNat % cfg.romBanks

/-- What a 4-bit cell holds of a byte: its low nibble (10_state R20; log 17). -/
def lowNibble (v : Byte) : Byte := v &&& 0x0F#8

/-- What a read of a cell returns: the missing high bits read as 1s (R116). -/
def nibbleRead (cell : Byte) : Byte := 0xF0#8 ||| cell

/-- MBC2.RD_ROM0 (R114). -/
def execMbc2RdRom0 (a : Addr) (s : State) : Result :=
  onMbc2 s fun c _ => respond s (romByte c.cfg.image (romWindowOffset a))

/-- MBC2.RD_ROMX (R115). -/
def execMbc2RdRomx (a : Addr) (s : State) : Result :=
  onMbc2 s fun c r => respond s (romByte c.cfg.image (romxOffset (mbc2CurRomBank c.cfg r) a))

/-- MBC2.RD_RAM (R116). -/
def execMbc2RdRam (a : Addr) (s : State) : Result :=
  onMbc2 s fun c r =>
    if r.ramEn then respond s (nibbleRead (cartRamRead c (mbc2Cell a))) else respond s Config.openBus

/-- MBC2.WR_RAM (R117). -/
def execMbc2WrRam (a : Addr) (v : Byte) (s : State) : Result :=
  onMbc2 s fun c r => if r.ramEn then writeRam s c (mbc2Cell a) (lowNibble v) else done s

/-- MBC2.WR_RAMEN (R118): a write with address bit 8 clear. -/
def execMbc2WrRamen (_a : Addr) (v : Byte) (s : State) : Result :=
  onMbc2 s fun c r => writeRegs s c (.mbc2 { r with ramEn := enableValue v })

/-- MBC2.WR_ROMB (R119): a write with address bit 8 set. -/
def execMbc2WrRomb (_a : Addr) (v : Byte) (s : State) : Result :=
  onMbc2 s fun c r => writeRegs s c (.mbc2 { r with romb := lowBits 4 v })

/-- MBC2.WR_IGNORED (R120): a no-op. -/
def execMbc2WrIgnored (_a : Addr) (_v : Byte) (s : State) : Result :=
  onMbc2 s fun _ _ => done s

end Sys2Proof.Machine
end

