-- ==== Sys2Proof/Machine/Load.lean ====
section
/-! DEFINITION. The load-time configuration path (40_load): header fields, code tables, reset values of a loaded
cartridge, and LOAD. -/

namespace Sys2Proof.Machine

/-- Byte `o` of an image that is long enough to hold it; the header rules only read inside the header region (R73). -/
def imageByte (bytes : List Byte) (o : Nat) : Byte := bytes.getD o Config.openBus

/-- The `n` image bytes from offset `o` on. -/
def imageSlice (bytes : List Byte) (o n : Nat) : List Byte := (bytes.drop o).take n

/-- `Resolve(t)` with `rom_size_class` filled in: the 17 codes of R78; every other code fails. -/
def resolve (t romCode : Byte) : Option ControllerType :=
  if t = 0x00#8 then some .romOnly
  else if t = 0x01#8 then some (.mbc1 romCode false false)
  else if t = 0x02#8 then some (.mbc1 romCode true false)
  else if t = 0x03#8 then some (.mbc1 romCode true true)
  else if t = 0x05#8 then some (.mbc2 romCode false)
  else if t = 0x06#8 then some (.mbc2 romCode true)
  else if t = 0x0F#8 then some (.mbc3 romCode false true true)
  else if t = 0x10#8 then some (.mbc3 romCode true true true)
  else if t = 0x11#8 then some (.mbc3 romCode false false false)
  else if t = 0x12#8 then some (.mbc3 romCode true false false)
  else if t = 0x13#8 then some (.mbc3 romCode true true false)
  else if t = 0x19#8 then some (.mbc5 romCode false false false)
  else if t = 0x1A#8 then some (.mbc5 romCode true false false)
  else if t = 0x1B#8 then some (.mbc5 romCode true true false)
  else if t = 0x1C#8 then some (.mbc5 romCode false false true)
  else if t = 0x1D#8 then some (.mbc5 romCode true false true)
  else if t = 0x1E#8 then some (.mbc5 romCode true true true)
  else none

/-- The table value of a ROM-size code, before the cap (R79). -/
def romBankTable (code : Byte) : Option Nat :=
  if code = 0x00#8 then some 2
  else if code = 0x01#8 then some 4
  else if code = 0x02#8 then some 8
  else if code = 0x03#8 then some 16
  else if code = 0x04#8 then some 32
  else if code = 0x05#8 then some 64
  else if code = 0x06#8 then some 128
  else if code = 0x07#8 then some 256
  else if code = 0x08#8 then some 512
  else if code = 0x52#8 then some 72
  else if code = 0x53#8 then some 80
  else if code = 0x54#8 then some 96
  else none

/-- `RomBanks(code)`: the table value capped at 96 (R79). -/
def romBanks (code : Byte) : Option Nat := (romBankTable code).map (fun n => min n Config.maxRomBanks)

/-- The table value of a RAM-size code, before the cap (R80). -/
def ramBankTable (code : Byte) : Option Nat :=
  if code = 0x00#8 then some 0
  else if code = 0x01#8 then some 1
  else if code = 0x02#8 then some 1
  else if code = 0x03#8 then some 4
  else if code = 0x04#8 then some 16
  else if code = 0x05#8 then some 8
  else none

/-- `RamBanks(code)`: the table value capped at 16 (R80). -/
def ramBanks (code : Byte) : Option Nat := (ramBankTable code).map (fun n => min n Config.maxRamBanks)

/-- `LOGO_REF` (R82). -/
def logoRef : List Byte :=
  [ 0xCE#8, 0xED#8, 0x66#8, 0x66#8, 0xCC#8, 0x0D#8, 0x00#8, 0x0B#8, 0x03#8, 0x73#8, 0x00#8, 0x83#8
  , 0x00#8, 0x0C#8, 0x00#8, 0x0D#8 ] ++
  [ 0x00#8, 0x08#8, 0x11#8, 0x1F#8, 0x88#8, 0x89#8, 0x00#8, 0x0E#8, 0xDC#8, 0xCC#8, 0x6E#8, 0xE6#8
  , 0xDD#8, 0xDD#8, 0xD9#8, 0x99#8 ] ++
  [ 0xBB#8, 0xBB#8, 0x67#8, 0x63#8, 0x6E#8, 0x0E#8, 0xEC#8, 0xCC#8, 0xDD#8, 0xDC#8, 0x99#8, 0x9F#8
  , 0xBB#8, 0xB9#8, 0x33#8, 0x3E#8 ]

/-- The logo bytes 0x0104..0x0133 (R73, R74). -/
def logoOf (bytes : List Byte) : List Byte := imageSlice bytes 0x0104 48

/-- A printable ASCII code, 0x20..0x7E (R75). -/
def printable (b : Byte) : Bool := Nat.ble 0x20 b.toNat && Nat.ble b.toNat 0x7E

/-- The title: 0x0134..0x0143 up to the first byte that is not printable (R75). -/
def titleOf (bytes : List Byte) : List Byte := (imageSlice bytes 0x0134 16).takeWhile printable

/-- The colour-mode flag: 0x0143, bit 7 (R76). -/
def colorModeOf (bytes : List Byte) : ColorMode :=
  if (imageByte bytes 0x0143).getLsbD 7 then .colorCapable else .legacy

/-- The super-console-support flag: 0x0146 equal to 0x03 (R77). -/
def sgbSupportOf (bytes : List Byte) : SgbSupport :=
  if imageByte bytes 0x0146 = 0x03#8 then .supported else .unsupported

/-- `ResetRegs(ct)`: every register at its load value, the clock at INIT_RTC (10_state R21 to R27). -/
def resetRegs (initRtc : Rtc) : ControllerType → Regs
  | .romOnly => .romOnly
  | .mbc1 _ _ _ => .mbc1 { ramEn := false, bank1 := 0x01#5, bank2 := 0x0#2, mode := 0#1 }
  | .mbc2 _ _ => .mbc2 { ramEn := false, romb := 0x1#4 }
  | .mbc3 _ _ _ timer =>
    .mbc3 { ramEn := false, romb := 0x01#7, sel := 0x00#8, latchPrev := 0xFF#8
            clock := if timer then some { rtc := initRtc, rtcl := initRtc } else none }
  | .mbc5 _ _ _ _ => .mbc5 { ramEn := false, romb := 0x001#9, ramb := 0x0#4 }

/-- What a RAM cell takes of an INIT_CART_RAM byte: its low nibble on MBC2 (10_state R19, R20). -/
def initCell (ct : ControllerType) (b : Byte) : Byte :=
  match ct.variant with
  | .mbc2 => lowNibble b
  | .romOnly | .mbc1 | .mbc3 | .mbc5 => b

/-- `InitRam(ct, qb)`: the buffer of the type's size, holding INIT_CART_RAM (10_state R19, R20). -/
def initRam (initCartRam : List Byte) (ct : ControllerType) (qb : Nat) : Memory :=
  Memory.ofBytesFrom 0 ((initCartRam.take (ramSize ct qb)).map (initCell ct))

/-- What a load comes to (00_scope R9). -/
inductive LoadResult where
  | loaded (c : Cartridge)
  | failed (e : LoadError)
deriving DecidableEq, Repr

/-- The Header record of an image (R73 to R77). -/
def headerOf (bytes : List Byte) (ct : ControllerType) (rb qb : Nat) : Header :=
  { logo := logoOf bytes
    title := titleOf bytes
    colorMode := colorModeOf bytes
    sgbSupport := sgbSupportOf bytes
    ctype := ct
    romBanks := rb
    ramBanks := qb }

/-- The cartridge a successful load builds (R86). -/
def freshCartridge (p : Params) (bytes : List Byte) (ct : ControllerType) (rb qb : Nat) : Cartridge :=
  { cfg := { header := headerOf bytes ct rb qb, ctype := ct, romBanks := rb, ramBanks := qb
             image := bytes, lenient := p.lenient }
    regs := resetRegs p.initRtc ct
    ram := initRam p.initCartRam ct qb }

/-- The checks of a load, in the order of R84, and the cartridge it builds (R71). -/
def loadImage (p : Params) (bytes : List Byte) (checkLogo : Bool) : LoadResult :=
  if bytes.length < Config.headerSize then .failed (.headerTooShort Config.headerSize bytes.length)
  else match resolve (imageByte bytes 0x0147) (imageByte bytes 0x0148) with
    | none => .failed (.unsupportedControllerType (imageByte bytes 0x0147))
    | some ct => match romBanks (imageByte bytes 0x0148) with
      | none => .failed (.unsupportedRomSizeCode (imageByte bytes 0x0148))
      | some rb => match ramBanks (imageByte bytes 0x0149) with
        | none => .failed (.unsupportedRamSizeCode (imageByte bytes 0x0149))
        | some qb =>
          if checkLogo && logoOf bytes != logoRef then .failed .logoMismatch
          else .loaded (freshCartridge p bytes ct rb qb)

/-- LOAD (R71): on success only `cart` changes (R86, R87), on failure nothing (R85). -/
def execLoad (bytes : List Byte) (checkLogo : Option Bool) (s : State) : Result :=
  match loadImage s.params bytes (checkLogo.getD s.params.checkLogo) with
  | .loaded c => .next { s.withCartridge c with response := some .loaded }
  | .failed e => raiseLoadError s e

/-- A header-only image of a variant, for a table word read before any load (log 8): type code, ROM code 0x00, RAM
code 0x02. -/
def tableImage : List Byte :=
  List.replicate 0x147 0x00#8 ++ [0x1E#8, 0x00#8, 0x02#8] ++ List.replicate 6 0x00#8

/-- The cartridge a LOAD of `tableImage` builds (log 8). -/
def tableCartridge (p : Params) : Option Cartridge :=
  match loadImage p tableImage false with
  | .loaded c => some c
  | .failed _ => none

end Sys2Proof.Machine
end

