-- ==== Sys2Proof/Machine/Mbc1.lean ====
section
/-! DEFINITION. The MBC1 operations (43_mbc1). -/

namespace Sys2Proof.Machine

/-- `rom_sel(c)`: `bank2` above the aliased `bank1` in mode 0, the aliased `bank1` alone in mode 1 (R103). -/
def mbc1RomSel (r : Mbc1Regs) : Nat :=
  (if r.mode = 0#1 then r.bank2.toNat <<< 5 else 0) ||| zeroAlias r.bank1.toNat

/-- `CurRomBank(c)` (R103). -/
def mbc1CurRomBank (cfg : CartConfig) (r : Mbc1Regs) : Nat := mbc1RomSel r % cfg.romBanks

/-- `ram_sel(c)`: `bank2` in mode 1, else 0 (R103). -/
def mbc1RamSel (r : Mbc1Regs) : Nat := if r.mode = 1#1 then r.bank2.toNat else 0

/-- `CurRamBank(c)`, used only when the RAM is usable (R103). -/
def mbc1CurRamBank (cfg : CartConfig) (r : Mbc1Regs) : Nat := mbc1RamSel r % cfg.ramBanks

/-- MBC1.RD_ROM0 (R104): bank 0 in both modes. -/
def execMbc1RdRom0 (a : Addr) (s : State) : Result :=
  onMbc1 s fun c _ => respond s (romByte c.cfg.image (romWindowOffset a))

/-- MBC1.RD_ROMX (R105). -/
def execMbc1RdRomx (a : Addr) (s : State) : Result :=
  onMbc1 s fun c r => respond s (romByte c.cfg.image (romxOffset (mbc1CurRomBank c.cfg r) a))

/-- MBC1.RD_RAM (R106). -/
def execMbc1RdRam (a : Addr) (s : State) : Result :=
  onMbc1 s fun c r =>
    if ramAccessible c.cfg r.ramEn then respond s (cartRamRead c (ramOffset (mbc1CurRamBank c.cfg r) a))
    else respond s Config.openBus

/-- MBC1.WR_RAM (R107). -/
def execMbc1WrRam (a : Addr) (v : Byte) (s : State) : Result :=
  onMbc1 s fun c r =>
    if ramAccessible c.cfg r.ramEn then writeRam s c (ramOffset (mbc1CurRamBank c.cfg r) a) v
    else done s

/-- MBC1.WR_RAMEN (R108). -/
def execMbc1WrRamen (_a : Addr) (v : Byte) (s : State) : Result :=
  onMbc1 s fun c r => writeRegs s c (.mbc1 { r with ramEn := enableValue v })

/-- MBC1.WR_BANK1 (R109). -/
def execMbc1WrBank1 (_a : Addr) (v : Byte) (s : State) : Result :=
  onMbc1 s fun c r => writeRegs s c (.mbc1 { r with bank1 := lowBits 5 v })

/-- MBC1.WR_BANK2 (R110): stored whatever the mode. -/
def execMbc1WrBank2 (_a : Addr) (v : Byte) (s : State) : Result :=
  onMbc1 s fun c r => writeRegs s c (.mbc1 { r with bank2 := lowBits 2 v })

/-- MBC1.WR_MODE (R111). -/
def execMbc1WrMode (_a : Addr) (v : Byte) (s : State) : Result :=
  onMbc1 s fun c r => writeRegs s c (.mbc1 { r with mode := lowBits 1 v })

end Sys2Proof.Machine
end

