-- ==== Sys2Proof/Machine/Mbc3.lean ====
section
/-! DEFINITION. The MBC3 operations and its real-time clock (45_mbc3). -/

namespace Sys2Proof.Machine

/-- `CurRomBank(c)` (R121). -/
def mbc3CurRomBank (cfg : CartConfig) (r : Mbc3Regs) : Nat := zeroAlias r.romb.toNat % cfg.romBanks

/-- `CurRamBank(c)`, used only when `sel <= 0x07` and the RAM is usable (R121). -/
def mbc3CurRamBank (cfg : CartConfig) (r : Mbc3Regs) : Nat := r.sel.toNat % cfg.ramBanks

/-- The RTC registers that `sel` can select (30_encoding R63). -/
inductive RtcReg where
  | S | M | H | DL | DH
deriving DecidableEq, Repr

/-- The RTC register `sel` names, if any (30_encoding R63). -/
def rtcRegOf (sel : Byte) : Option RtcReg :=
  if sel = 0x08#8 then some .S
  else if sel = 0x09#8 then some .M
  else if sel = 0x0A#8 then some .H
  else if sel = 0x0B#8 then some .DL
  else if sel = 0x0C#8 then some .DH
  else none

/-- What the RAM window reaches (R122); an RTC target comes with the clock it lies in. -/
inductive Target where
  | open
  | ram (bank : Nat)
  | rtc (reg : RtcReg) (k : Clock)
deriving DecidableEq, Repr

/-- `Target(c)` (R122). -/
def mbc3Target (c : Cartridge) (r : Mbc3Regs) : Target :=
  if !r.ramEn then .open
  else if Nat.ble r.sel.toNat 0x07 && c.cfg.ramUsable then .ram (mbc3CurRamBank c.cfg r)
  else match rtcRegOf r.sel, liveClock c r with
    | some reg, some k => .rtc reg k
    | _, _ => .open

/-- `RtcByte(s)`, from a register file; bits that hold no field read 0 (R123). -/
def rtcByte (f : Rtc) : RtcReg → Byte
  | .S => f.S.setWidth 8
  | .M => f.M.setWidth 8
  | .H => f.H.setWidth 8
  | .DL => f.DL
  | .DH => dhByte f

/-- A write of an RTC register (R127). -/
def rtcWrite (f : Rtc) (v : Byte) : RtcReg → Rtc
  | .S => { f with S := lowBits 6 v }
  | .M => { f with M := lowBits 6 v }
  | .H => { f with H := lowBits 5 v }
  | .DL => { f with DL := v }
  | .DH => writeDh f v

/-- The 9-bit day counter `DH0 ++ DL` (R133). -/
def rtcDay (f : Rtc) : BitVec 9 := f.DH0 ++ f.DL

/-- One second passes on a register file (R133). -/
def rtcTick (f : Rtc) : Rtc :=
  if f.HALT = 1#1 then f
  else if f.S ≠ 59#6 then { f with S := f.S + 1#6 }
  else if f.M ≠ 59#6 then { f with S := 0#6, M := f.M + 1#6 }
  else if f.H ≠ 23#5 then { f with S := 0#6, M := 0#6, H := f.H + 1#5 }
  else if rtcDay f ≠ 511#9 then
    { f with S := 0#6, M := 0#6, H := 0#5
             DL := (rtcDay f + 1#9).setWidth 8, DH0 := (rtcDay f + 1#9).extractLsb' 8 1 }
  else { f with S := 0#6, M := 0#6, H := 0#5, DL := 0#8, DH0 := 0#1, DC := 1#1 }

/-- MBC3.RD_ROM0 (R124). -/
def execMbc3RdRom0 (a : Addr) (s : State) : Result :=
  onMbc3 s fun c _ => respond s (romByte c.cfg.image (romWindowOffset a))

/-- MBC3.RD_ROMX (R125). -/
def execMbc3RdRomx (a : Addr) (s : State) : Result :=
  onMbc3 s fun c r => respond s (romByte c.cfg.image (romxOffset (mbc3CurRomBank c.cfg r) a))

/-- MBC3.RD_RAM (R126): RTC bytes come from the latched copy. -/
def execMbc3RdRam (a : Addr) (s : State) : Result :=
  onMbc3 s fun c r => match mbc3Target c r with
    | .ram b => respond s (cartRamRead c (ramOffset b a))
    | .rtc reg k => respond s (rtcByte k.rtcl reg)
    | .open => respond s Config.openBus

/-- MBC3.WR_RAM (R127): RTC writes go to the live file. -/
def execMbc3WrRam (a : Addr) (v : Byte) (s : State) : Result :=
  onMbc3 s fun c r => match mbc3Target c r with
    | .ram b => writeRam s c (ramOffset b a) v
    | .rtc reg k => writeRegs s c (.mbc3 { r with clock := some { k with rtc := rtcWrite k.rtc v reg } })
    | .open => done s

/-- MBC3.WR_RAMEN (R128). -/
def execMbc3WrRamen (_a : Addr) (v : Byte) (s : State) : Result :=
  onMbc3 s fun c r => writeRegs s c (.mbc3 { r with ramEn := enableValue v })

/-- MBC3.WR_ROMB (R129). -/
def execMbc3WrRomb (_a : Addr) (v : Byte) (s : State) : Result :=
  onMbc3 s fun c r => writeRegs s c (.mbc3 { r with romb := lowBits 7 v })

/-- MBC3.WR_SEL (R130): all 8 bits are stored. -/
def execMbc3WrSel (_a : Addr) (v : Byte) (s : State) : Result :=
  onMbc3 s fun c r => writeRegs s c (.mbc3 { r with sel := v })

/-- The clock after a latch-range write: `0x00` then `0x01` copies the live file (R131). -/
def latchedClock (prev v : Byte) (k : Clock) : Clock :=
  if prev = 0x00#8 ∧ v = 0x01#8 then { k with rtcl := k.rtc } else k

/-- MBC3.WR_LATCH (R131); not gated by `ram_en`. -/
def execMbc3WrLatch (_a : Addr) (v : Byte) (s : State) : Result :=
  onMbc3 s fun c r =>
    match liveClock c r with
    | some k => writeRegs s c (.mbc3 { r with clock := some (latchedClock r.latchPrev v k), latchPrev := v })
    | none => writeRegs s c (.mbc3 { r with latchPrev := v })

/-- MBC3.RTC_TICK (R133): only the live file changes. The event has no outcome of its own. Without a timer there is no
oscillator, so no such event (R132; log 11). -/
def execMbc3RtcTick (s : State) : Result :=
  match s.cart with
  | none => .fault .noOscillator
  | some c => match c.regs with
    | .mbc3 r => match liveClock c r with
      | some k => .next { s.withCartridge { c with regs := .mbc3 { r with clock := some { k with rtc := rtcTick k.rtc } } }
                          with response := none }
      | none => .fault .noOscillator
    | .romOnly | .mbc1 _ | .mbc2 _ | .mbc5 _ => .fault .noOscillator

end Sys2Proof.Machine
end

