-- ==== Sys2Proof/Machine/Mbc5.lean ====
section
/-! DEFINITION. The MBC5 operations and the rumble output (46_mbc5). -/

namespace Sys2Proof.Machine

/-- `CurRomBank(c)`: no zero alias (R135). -/
def mbc5CurRomBank (cfg : CartConfig) (r : Mbc5Regs) : Nat := r.romb.toNat % cfg.romBanks

/-- `ram_sel(c)`: with rumble, bit 3 is the motor and not part of the bank (R135). -/
def mbc5RamSel (ct : ControllerType) (r : Mbc5Regs) : Nat :=
  if ct.hasRumble then (r.ramb.setWidth 3).toNat else r.ramb.toNat

/-- `CurRamBank(c)`, used only when the RAM is usable (R135). -/
def mbc5CurRamBank (cfg : CartConfig) (r : Mbc5Regs) : Nat := mbc5RamSel cfg.ctype r % cfg.ramBanks

/-- The output `rumble_motor = ramb[3]`; without rumble there is no such output (R136). -/
def rumbleMotor (s : State) : Option Bool :=
  match s.cart with
  | none => none
  | some c => match c.regs with
    | .mbc5 r => if c.cfg.ctype.hasRumble then some (r.ramb.getLsbD 3) else none
    | .romOnly | .mbc1 _ | .mbc2 _ | .mbc3 _ => none

/-- MBC5.RD_ROM0 (R137). -/
def execMbc5RdRom0 (a : Addr) (s : State) : Result :=
  onMbc5 s fun c _ => respond s (romByte c.cfg.image (romWindowOffset a))

/-- MBC5.RD_ROMX (R138). -/
def execMbc5RdRomx (a : Addr) (s : State) : Result :=
  onMbc5 s fun c r => respond s (romByte c.cfg.image (romxOffset (mbc5CurRomBank c.cfg r) a))

/-- MBC5.RD_RAM (R139). -/
def execMbc5RdRam (a : Addr) (s : State) : Result :=
  onMbc5 s fun c r =>
    if ramAccessible c.cfg r.ramEn then respond s (cartRamRead c (ramOffset (mbc5CurRamBank c.cfg r) a))
    else respond s Config.openBus

/-- MBC5.WR_RAM (R140). -/
def execMbc5WrRam (a : Addr) (v : Byte) (s : State) : Result :=
  onMbc5 s fun c r =>
    if ramAccessible c.cfg r.ramEn then writeRam s c (ramOffset (mbc5CurRamBank c.cfg r) a) v
    else done s

/-- MBC5.WR_RAMEN (R141). -/
def execMbc5WrRamen (_a : Addr) (v : Byte) (s : State) : Result :=
  onMbc5 s fun c r => writeRegs s c (.mbc5 { r with ramEn := enableValue v })

/-- MBC5.WR_ROMB_LO (R142): `romb <- romb[8] ++ v`. -/
def execMbc5WrRombLo (_a : Addr) (v : Byte) (s : State) : Result :=
  onMbc5 s fun c r => writeRegs s c (.mbc5 { r with romb := r.romb.extractLsb' 8 1 ++ v })

/-- MBC5.WR_ROMB_HI (R143): `romb <- v[0] ++ romb[7:0]`. -/
def execMbc5WrRombHi (_a : Addr) (v : Byte) (s : State) : Result :=
  onMbc5 s fun c r => writeRegs s c (.mbc5 { r with romb := bitField 0 v ++ r.romb.setWidth 8 })

/-- MBC5.WR_RAMB (R144). -/
def execMbc5WrRamb (_a : Addr) (v : Byte) (s : State) : Result :=
  onMbc5 s fun c r => writeRegs s c (.mbc5 { r with ramb := lowBits 4 v })

/-- MBC5.WR_IGNORED (R145): a no-op. -/
def execMbc5WrIgnored (_a : Addr) (_v : Byte) (s : State) : Result :=
  onMbc5 s fun _ _ => done s

end Sys2Proof.Machine
end

