-- ==== Sys2Proof/Machine/RomOnly.lean ====
section
/-! DEFINITION. The RomOnly operations (42_romonly R97 to R101). -/

namespace Sys2Proof.Machine

/-- ROM.RD_ROM0 (R97). -/
def execRomRdRom0 (a : Addr) (s : State) : Result :=
  onRomOnly s fun c => respond s (romByte c.cfg.image (romWindowOffset a))

/-- ROM.RD_ROMX (R98): the bank is 1 whatever `rom_banks`. -/
def execRomRdRomx (a : Addr) (s : State) : Result :=
  onRomOnly s fun c => respond s (romByte c.cfg.image (romxOffset 1 a))

/-- ROM.RD_RAM (R99): RomOnly has no RAM. -/
def execRomRdRam (_a : Addr) (s : State) : Result :=
  onRomOnly s fun _ => respond s Config.openBus

/-- ROM.WR_ROM (R100): a no-op. -/
def execRomWrRom (_a : Addr) (_v : Byte) (s : State) : Result :=
  onRomOnly s fun _ => done s

/-- ROM.WR_RAM (R101): a no-op. -/
def execRomWrRam (_a : Addr) (_v : Byte) (s : State) : Result :=
  onRomOnly s fun _ => done s

end Sys2Proof.Machine
end

