-- ==== Sys2Proof/Machine/Dispatch.lean ====
section
/-! DEFINITION. exec: one arm per operation, each one call of its meaning. -/

namespace Sys2Proof.Machine

def exec (i : Instr) (s : State) : Host.Outcome State Fault Refusal :=
  match i with
  | .asRdWram a => Sys2Proof.Machine.execAsRdWram a s
  | .asWrWram a v => Sys2Proof.Machine.execAsWrWram a v s
  | .asRdUnmapped8000 a => Sys2Proof.Machine.execAsRdUnmapped8000 a s
  | .asRdUnmappedE000 a => Sys2Proof.Machine.execAsRdUnmappedE000 a s
  | .asWrUnmapped8000 a v => Sys2Proof.Machine.execAsWrUnmapped8000 a v s
  | .asWrUnmappedE000 a v => Sys2Proof.Machine.execAsWrUnmappedE000 a v s
  | .romRdRom0 a => Sys2Proof.Machine.execRomRdRom0 a s
  | .romRdRomx a => Sys2Proof.Machine.execRomRdRomx a s
  | .romRdRam a => Sys2Proof.Machine.execRomRdRam a s
  | .romWrRam a v => Sys2Proof.Machine.execRomWrRam a v s
  | .romWrRom a v => Sys2Proof.Machine.execRomWrRom a v s
  | .mbc1RdRom0 a => Sys2Proof.Machine.execMbc1RdRom0 a s
  | .mbc1RdRomx a => Sys2Proof.Machine.execMbc1RdRomx a s
  | .mbc1RdRam a => Sys2Proof.Machine.execMbc1RdRam a s
  | .mbc1WrRam a v => Sys2Proof.Machine.execMbc1WrRam a v s
  | .mbc1WrRamen a v => Sys2Proof.Machine.execMbc1WrRamen a v s
  | .mbc1WrBank1 a v => Sys2Proof.Machine.execMbc1WrBank1 a v s
  | .mbc1WrBank2 a v => Sys2Proof.Machine.execMbc1WrBank2 a v s
  | .mbc1WrMode a v => Sys2Proof.Machine.execMbc1WrMode a v s
  | .mbc2RdRom0 a => Sys2Proof.Machine.execMbc2RdRom0 a s
  | .mbc2RdRomx a => Sys2Proof.Machine.execMbc2RdRomx a s
  | .mbc2RdRam a => Sys2Proof.Machine.execMbc2RdRam a s
  | .mbc2WrRam a v => Sys2Proof.Machine.execMbc2WrRam a v s
  | .mbc2WrRamen a v => Sys2Proof.Machine.execMbc2WrRamen a v s
  | .mbc2WrRomb a v => Sys2Proof.Machine.execMbc2WrRomb a v s
  | .mbc2WrIgnored a v => Sys2Proof.Machine.execMbc2WrIgnored a v s
  | .mbc3RdRom0 a => Sys2Proof.Machine.execMbc3RdRom0 a s
  | .mbc3RdRomx a => Sys2Proof.Machine.execMbc3RdRomx a s
  | .mbc3RdRam a => Sys2Proof.Machine.execMbc3RdRam a s
  | .mbc3WrRam a v => Sys2Proof.Machine.execMbc3WrRam a v s
  | .mbc3WrRamen a v => Sys2Proof.Machine.execMbc3WrRamen a v s
  | .mbc3WrRomb a v => Sys2Proof.Machine.execMbc3WrRomb a v s
  | .mbc3WrSel a v => Sys2Proof.Machine.execMbc3WrSel a v s
  | .mbc3WrLatch a v => Sys2Proof.Machine.execMbc3WrLatch a v s
  | .mbc5RdRom0 a => Sys2Proof.Machine.execMbc5RdRom0 a s
  | .mbc5RdRomx a => Sys2Proof.Machine.execMbc5RdRomx a s
  | .mbc5RdRam a => Sys2Proof.Machine.execMbc5RdRam a s
  | .mbc5WrRam a v => Sys2Proof.Machine.execMbc5WrRam a v s
  | .mbc5WrRamen a v => Sys2Proof.Machine.execMbc5WrRamen a v s
  | .mbc5WrRombLo a v => Sys2Proof.Machine.execMbc5WrRombLo a v s
  | .mbc5WrRombHi a v => Sys2Proof.Machine.execMbc5WrRombHi a v s
  | .mbc5WrRamb a v => Sys2Proof.Machine.execMbc5WrRamb a v s
  | .mbc5WrIgnored a v => Sys2Proof.Machine.execMbc5WrIgnored a v s
  | .load bytes checkLogo => Sys2Proof.Machine.execLoad bytes checkLogo s
  | .mbc3RtcTick => Sys2Proof.Machine.execMbc3RtcTick s

end Sys2Proof.Machine
end

