-- ==== Sys2Proof/Machine/HostAgent.lean ====
section
/-! DEFINITION. What the agents outside the bus do between transactions: the host save agent (20_memory R52), the host
loader's save for the next load (70_reset R165), and a power cycle (70_reset R161). None of them is a row of the opcode
table. -/

namespace Sys2Proof.Machine

/-- The host reads byte `o` of the cartridge RAM, ignoring the latch (R52). -/
def hostReadRam (o : Nat) (s : State) : Result :=
  match s.cart with
  | none => answer s .hostAbsent
  | some c => if o < c.cfg.ramSize then answer s (.hostByte (cartRamRead c o)) else answer s .hostAbsent

/-- The host overwrites byte `o` of the cartridge RAM, ignoring the latch; an MBC2 cell takes the low nibble (R52). -/
def hostWriteRam (o : Nat) (v : Byte) (s : State) : Result :=
  match s.cart with
  | none => answer s .hostAbsent
  | some c =>
    if o < c.cfg.ramSize then answer (s.withCartridge (cartRamWrite c o (initCell c.cfg.ctype v))) .hostDone
    else answer s .hostAbsent

/-- The registers and the clock of a loaded MBC3 with a timer. -/
def timerOf (s : State) : Option (Cartridge × Mbc3Regs × Clock) :=
  match s.cart with
  | none => none
  | some c => match c.regs with
    | .mbc3 r => (liveClock c r).map (fun k => (c, r, k))
    | .romOnly | .mbc1 _ | .mbc2 _ | .mbc5 _ => none

/-- The host reads the live clock (R52). -/
def hostReadRtc (s : State) : Result :=
  match timerOf s with
  | none => answer s .hostAbsent
  | some (_, _, k) => answer s (.hostRtc k.rtc)

/-- The host overwrites the live clock (R52). -/
def hostWriteRtc (f : Rtc) (s : State) : Result :=
  match timerOf s with
  | none => answer s .hostAbsent
  | some (c, r, k) =>
    answer (s.withCartridge { c with regs := .mbc3 { r with clock := some { k with rtc := f } } }) .hostDone

/-- The save that the next load starts from (R165). -/
def hostSupply (initCartRam : List Byte) (initRtc : Rtc) (s : State) : Result :=
  .next { s with params := { s.params with initCartRam := initCartRam, initRtc := initRtc }
                 response := some .hostDone }

/-- A power cycle: power-on with a new INIT_WRAM (R161; log 14). -/
def powerOn (initWram : List Byte) (s : State) : Result :=
  .next { s with wram := [], cart := none, params := { s.params with initWram := initWram }, response := none }

end Sys2Proof.Machine
end

