-- ==== Sys2Proof/Machine/Inputs.lean ====
section
/-! DEFINITION. Serving one pending input: a bus transaction is decoded under the loaded variant and run, an event runs
its own operation, and the host's accesses happen between transactions (20_memory R44, R51). -/

namespace Sys2Proof.Machine

/-- A bus transaction: admitted only with a cartridge loaded, decoded by the loaded type's variant, and run
(30_encoding R57, 41_address_space R89, R90). -/
def serveBus (t : Transaction) (s : State) : Result :=
  match s.cart with
  | none => .fault .noCartridge
  | some c => match decodeTransaction c.cfg.ctype.variant t with
    | some i => exec i s
    | none => .refused (.undecodable .noRow)

/-- One pending input. -/
def serve (i : Input) (s : State) : Result :=
  match i with
  | .bus t => serveBus t s
  | .load bytes checkLogo => exec (.load bytes checkLogo) s
  | .supply initCartRam initRtc => hostSupply initCartRam initRtc s
  | .tick => exec .mbc3RtcTick s
  | .hostReadRam o => hostReadRam o s
  | .hostWriteRam o v => hostWriteRam o v s
  | .hostReadRtc => hostReadRtc s
  | .hostWriteRtc f => hostWriteRtc f s
  | .powerCycle initWram => powerOn initWram s

/-- The state with a table word's transaction placed first among the inputs, and, where the loaded cartridge is not of
the variant the word is read under, a cartridge of that variant loaded (log 8). -/
def placeTableWord (s : State) (nbits w : Nat) : State :=
  match transactionOfBytes (tableBytes nbits w) with
  | .reject _ => s
  | .ok t _ =>
    { s with inputs := .bus t :: s.inputs
             cart := match s.cart with
               | some c => if c.cfg.ctype.variant = tableVariant then some c else tableCartridge s.params
               | none => tableCartridge s.params }

end Sys2Proof.Machine
end

