-- ==== Sys2Proof/Machine/Step.lean ====
section
/-! DEFINITION. One step: the first pending input is taken and served; with none pending the block is idle (log 1). -/

namespace Sys2Proof.Machine

/-- One step of the block (20_memory R44, R50). -/
def step (s : State) : Host.Outcome State Fault Refusal :=
  match s.inputs with
  | [] => .next s
  | i :: rest => serve i { s with inputs := rest }

/-- The state whose very next step runs the operation of a table word (log 8, log 20). -/
def State.withFetchWord (s : State) (nbits w : Nat) : State := placeTableWord s nbits w

end Sys2Proof.Machine
end

