-- ==== Sys2Proof/Machine/Pseudo.lean ====
section
/-! DEFINITION. The pseudo-operations of 30_encoding R69, as the bus transactions they expand to. An expansion the
table does not give is `none`, but for SELROM on an MBC1 in mode 1 (log 22). An operand `n` is as wide as the widest field
the table takes of it (log 22). -/

namespace Sys2Proof.Machine

/-- `RAMON` (R69). -/
def ramOn : Variant → Option (List Transaction)
  | .romOnly => none
  | .mbc1 | .mbc2 | .mbc3 | .mbc5 => some [.wr 0x0000#16 0x0A#8]

/-- `RAMOFF` (R69). -/
def ramOff : Variant → Option (List Transaction)
  | .romOnly => none
  | .mbc1 | .mbc2 | .mbc3 | .mbc5 => some [.wr 0x0000#16 0x00#8]

/-- `SELROM n` (R69). DESIGN CHOICE: the table gives the MBC1 line for mode 0 only; an expansion does not look at the
registers, so the two writes are the same in mode 1 (log 22). -/
def selRom (n : BitVec 9) : Variant → Option (List Transaction)
  | .romOnly => none
  | .mbc1 => some [.wr 0x2000#16 ((n.extractLsb' 0 5).setWidth 8), .wr 0x4000#16 ((n.extractLsb' 5 2).setWidth 8)]
  | .mbc2 => some [.wr 0x0100#16 ((n.extractLsb' 0 4).setWidth 8)]
  | .mbc3 => some [.wr 0x2000#16 ((n.extractLsb' 0 7).setWidth 8)]
  | .mbc5 => some [.wr 0x2000#16 (n.extractLsb' 0 8), .wr 0x3000#16 ((n.extractLsb' 8 1).setWidth 8)]

/-- `SELRAM n` (R69). -/
def selRam (n : BitVec 4) : Variant → Option (List Transaction)
  | .romOnly | .mbc2 => none
  | .mbc1 => some [.wr 0x6000#16 0x01#8, .wr 0x4000#16 ((n.extractLsb' 0 2).setWidth 8)]
  | .mbc3 => some [.wr 0x4000#16 ((n.extractLsb' 0 3).setWidth 8)]
  | .mbc5 => some [.wr 0x4000#16 (n.setWidth 8)]

/-- `SELRTC r`, for `r` in 0..4 (R69). -/
def selRtc (r : Fin 5) : Variant → Option (List Transaction)
  | .mbc3 => some [.wr 0x4000#16 (0x08#8 + BitVec.ofNat 8 r.val)]
  | .romOnly | .mbc1 | .mbc2 | .mbc5 => none

/-- `LATCH` (R69). -/
def latch : Variant → Option (List Transaction)
  | .mbc3 => some [.wr 0x6000#16 0x00#8, .wr 0x6000#16 0x01#8]
  | .romOnly | .mbc1 | .mbc2 | .mbc5 => none

end Sys2Proof.Machine
end

