-- ==== Sys2Proof/Safety.lean ====
section
/-! DEFINITION. The invariant of the block, and the words claims are stated in. -/

namespace Sys2Proof.Machine

/-- The registers are those of the controller type, with a clock exactly when the type has a timer (10_state R21 to
R27). -/
def Regs.fit (ct : ControllerType) : Regs → Bool
  | .romOnly => ct.variant == .romOnly
  | .mbc1 _ => ct.variant == .mbc1
  | .mbc2 _ => ct.variant == .mbc2
  | .mbc3 r => ct.variant == .mbc3 && r.clock.isSome == ct.hasTimer
  | .mbc5 _ => ct.variant == .mbc5

/-- The configuration is one a load can build: bank counts in their ranges, an image that holds a header, and the
Header record in agreement (10_state R12, R13; 40_load R71, R72). -/
def CartConfig.sound (cfg : CartConfig) : Bool :=
  Nat.ble 2 cfg.romBanks && Nat.ble cfg.romBanks Config.maxRomBanks && Nat.ble cfg.ramBanks Config.maxRamBanks
    && Nat.ble Config.headerSize cfg.image.length
    && cfg.header.ctype == cfg.ctype && cfg.header.romBanks == cfg.romBanks && cfg.header.ramBanks == cfg.ramBanks

/-- The RAM buffer is canonical, lies inside its size, and on MBC2 holds 4-bit cells (10_state R19, R20). -/
def Cartridge.ramSound (c : Cartridge) : Bool :=
  c.ram.wf unlistedRam && c.ram.below c.cfg.ramSize
    && (c.cfg.ctype.variant != .mbc2 || c.ram.all (fun e => Nat.ble e.2.toNat 0x0F))

/-- The loaded cartridge is sound. -/
def Cartridge.sound (c : Cartridge) : Bool := c.cfg.sound && c.regs.fit c.cfg.ctype && c.ramSound

/-- The invariant: internal RAM is canonical and inside its 0x2000 bytes, and the loaded cartridge is sound. -/
def State.sound (s : State) : Bool :=
  s.wram.wf (unlistedWram s.params) && s.wram.below Config.wramSize && s.cart.all Cartridge.sound

/-- What a read at `a` returns now, as an outcome; `none` where the block has no step. -/
def busRead (s : State) (a : Addr) : Option Response :=
  match serveBus (.rd a) s with
  | .next t => t.response
  | .fault _ => none
  | .refused _ => none

/-- The address is one of the cartridge's: a ROM window or the RAM window (41_address_space R89). -/
def cartAddress (a : Addr) : Bool := regionOf a == .cart

/-- Serve a list of bus transactions in order (20_memory R50). -/
def serveBusAll : List Transaction → State → Result
  | [], s => .next s
  | t :: ts, s => match serveBus t s with
    | .next u => serveBusAll ts u
    | .fault f => .fault f
    | .refused r => .refused r

/-- `CurRomBank(c)` (10_state R28); RomOnly shows bank 1 (42_romonly R98). -/
def curRomBank (c : Cartridge) : Nat :=
  match c.regs with
  | .romOnly => 1
  | .mbc1 r => mbc1CurRomBank c.cfg r
  | .mbc2 r => mbc2CurRomBank c.cfg r
  | .mbc3 r => mbc3CurRomBank c.cfg r
  | .mbc5 r => mbc5CurRomBank c.cfg r

/-- The RAM-enable latch of a register file; RomOnly has none (10_state R34). -/
def Regs.ramEnabled : Regs → Bool
  | .romOnly => false
  | .mbc1 r => r.ramEn
  | .mbc2 r => r.ramEn
  | .mbc3 r => r.ramEn
  | .mbc5 r => r.ramEn

/-- The variant whose registers a register file is. -/
def Regs.variant : Regs → Variant
  | .romOnly => .romOnly
  | .mbc1 _ => .mbc1
  | .mbc2 _ => .mbc2
  | .mbc3 _ => .mbc3
  | .mbc5 _ => .mbc5

/-- The registers with the live clock set aside: what only a register write or a load changes (10_state R30). -/
def Regs.setLive (f : Rtc) : Regs → Regs
  | .romOnly => .romOnly
  | .mbc1 r => .mbc1 r
  | .mbc2 r => .mbc2 r
  | .mbc3 r => .mbc3 { r with clock := r.clock.map (fun k => { k with rtc := f }) }
  | .mbc5 r => .mbc5 r

/-- `t` is `s` after a write to byte `o` of the RAM of its cartridge `c`: that byte reads `v`, every other byte of the
RAM reads as before, and nothing else of the state changes but the outcome `Ok`. -/
def ramByteWritten (s t : State) (c : Cartridge) (o : Nat) (v : Byte) : Prop :=
  ∃ c', t = { s with cart := some c', response := some .ok } ∧ c'.cfg = c.cfg ∧ c'.regs = c.regs ∧
    cartRamRead c' o = v ∧ ∀ p, p ≠ o → cartRamRead c' p = cartRamRead c p

/-- Seconds since day 0 that a register file shows (45_mbc3 R133). -/
def rtcSeconds (f : Rtc) : Nat :=
  f.S.toNat + 60 * f.M.toNat + 3600 * f.H.toNat + 86400 * (rtcDay f).toNat

end Sys2Proof.Machine
end

