-- ==== Sys2Proof/Certificates/Slice0/Obligations.lean ====
section
/-! DEFINITION. The statements about the block. Each docstring names the rules of spec/ it formalises. -/

open Sys2Proof Sys2Proof.Machine

/-! ### Decoding -/

/-- From 30_encoding: for every well-formed bus operation, under every variant whose rows hold it, decoding its encoding
gives it back with every operand, and leaves the bytes that follow (the byte layout is the model's choice, log 7). -/
def Obligations.DecodeOfEncodeIsTheOperation : Prop :=
  ∀ (i : Instr) (vr : Variant) (rest : List Byte),
    i.wellFormed = true → i.transaction.isSome = true → i.belongs vr = true →
    decode vr (encode i ++ rest) = .ok i rest

/-- The other direction: what the decoder accepts is a well-formed operation of the variant, and the bytes it took are
that operation's encoding (the byte layout is the model's choice, log 7). -/
def Obligations.AcceptedBytesAreTheEncoding : Prop :=
  ∀ (vr : Variant) (bytes rest : List Byte) (i : Instr),
    decode vr bytes = .ok i rest →
    i.wellFormed = true ∧ i.belongs vr = true ∧ bytes = encode i ++ rest

/-- From 30_encoding: for each variant exactly one row matches every key; the row is the variant's own where the address is the
cartridge's, and an AddressSpace row elsewhere; it is a read row for W = 0 and a write row for W = 1. -/
def Obligations.ExactlyOneRowMatchesEveryKey : Prop :=
  ∀ (vr : Variant) (t : Transaction),
    (rows.filter (fun r => r.hits vr t.key)).length = 1 ∧
    ∃ i, decodeTransaction vr t = some i ∧ i.transaction = some t ∧
      i.variant = (if t.addr.toNat ≤ 0x7FFF ∨ (0xA000 ≤ t.addr.toNat ∧ t.addr.toNat ≤ 0xBFFF) then some vr else none)

/-- Transactions written out from the encodings of 41_address_space to 46_mbc5 decode to the operation they stand for (the
byte layout is the model's choice, log 7). -/
def Obligations.SampleTransactionsDecode : Prop :=
  decode .romOnly [0x23#8, 0xC1#8, 0x01#8, 0x5A#8] = .ok (.asWrWram 0xC123#16 0x5A#8) [] ∧
  decode .romOnly [0x00#8, 0x20#8, 0x01#8, 0x03#8] = .ok (.romWrRom 0x2000#16 0x03#8) [] ∧
  decode .mbc1 [0x00#8, 0x40#8, 0x00#8] = .ok (.mbc1RdRomx 0x4000#16) [] ∧
  decode .mbc2 [0x00#8, 0x03#8, 0x01#8, 0x0A#8] = .ok (.mbc2WrRomb 0x0300#16 0x0A#8) [] ∧
  decode .mbc3 [0x00#8, 0x60#8, 0x01#8, 0x01#8] = .ok (.mbc3WrLatch 0x6000#16 0x01#8) [] ∧
  decode .mbc5 [0xFF#8, 0x2F#8, 0x01#8, 0x03#8] = .ok (.mbc5WrRombLo 0x2FFF#16 0x03#8) []

/-- A step takes the first pending input (log 1). A transaction whose bytes (log 7) decode, under the loaded type's variant,
to an operation runs that operation; the two events run theirs. -/
def Obligations.StepRunsTheDecodedOperation : Prop :=
  (∀ (s : State) (c : Cartridge) (t : Transaction) (i : Instr) (rest : List Input),
    s.inputs = .bus t :: rest → s.cart = some c → decode c.cfg.ctype.variant t.bytes = .ok i [] →
    step s = exec i { s with inputs := rest }) ∧
  (∀ (s : State) (bytes : List Byte) (checkLogo : Option Bool) (rest : List Input),
    s.inputs = .load bytes checkLogo :: rest → step s = exec (.load bytes checkLogo) { s with inputs := rest }) ∧
  (∀ (s : State) (rest : List Input),
    s.inputs = .tick :: rest → step s = exec .mbc3RtcTick { s with inputs := rest })

/-- From 70_reset_and_hazards: with no cartridge loaded, a pending RD or WR has no step, neither a value nor an error
outcome; the model's form of being stuck is the fault noCartridge (log 9). -/
def Obligations.BusIsStuckWithoutCartridge : Prop :=
  (∀ (s : State) (t : Transaction) (rest : List Input),
    s.cart = none → s.inputs = .bus t :: rest → step s = .fault .noCartridge) ∧
  (∀ (s : State) (i : Instr), s.cart = none → i.transaction.isSome = true → exec i s = .fault .noCartridge)

/-- From 30_encoding: an operation of one variant's rows is not run while a cartridge with another variant's registers is loaded (how
the model stops is its choice, log 10). -/
def Obligations.OtherVariantsOperationIsRefused : Prop :=
  ∀ (s : State) (c : Cartridge) (i : Instr) (vr : Variant),
    s.cart = some c → i.variant = some vr → i.transaction.isSome = true → c.regs.variant ≠ vr →
    exec i s = .refused .wrongVariant

/-- From 20_memory: inputs are served one at a time, in order: a step that serves one leaves exactly the later ones (that
they wait in a list is the model's choice, log 1). -/
def Obligations.StepConsumesInputsInOrder : Prop :=
  ∀ (s u : State) (inp : Input) (rest : List Input),
    s.inputs = inp :: rest → step s = .next u → u.inputs = rest

/-! ### LOAD -/

/-- R72, R81, R83, R84, R85: the first error in the order length, type, ROM code, RAM code, logo is the outcome, with its
recorded value, and a failed load changes nothing. -/
def Obligations.LoadReportsTheFirstError : Prop :=
  ∀ (s : State) (bytes : List Byte) (checkLogo : Option Bool),
    let fails := fun e => exec (.load bytes checkLogo) s = .next { s with response := some (.loadErr e) }
    let t := bytes.getD 0x147 0#8
    let rc := bytes.getD 0x148 0#8
    let qc := bytes.getD 0x149 0#8
    let typeCodes : List Byte := [0x00#8, 0x01#8, 0x02#8, 0x03#8, 0x05#8, 0x06#8, 0x0F#8, 0x10#8, 0x11#8, 0x12#8,
      0x13#8, 0x19#8, 0x1A#8, 0x1B#8, 0x1C#8, 0x1D#8, 0x1E#8]
    let romCodes : List Byte := [0x00#8, 0x01#8, 0x02#8, 0x03#8, 0x04#8, 0x05#8, 0x06#8, 0x07#8, 0x08#8, 0x52#8,
      0x53#8, 0x54#8]
    let ramCodes : List Byte := [0x00#8, 0x01#8, 0x02#8, 0x03#8, 0x04#8, 0x05#8]
    (bytes.length < 0x150 → fails (.headerTooShort 0x150 bytes.length)) ∧
    (0x150 ≤ bytes.length → t ∉ typeCodes → fails (.unsupportedControllerType t)) ∧
    (0x150 ≤ bytes.length → t ∈ typeCodes → rc ∉ romCodes → fails (.unsupportedRomSizeCode rc)) ∧
    (0x150 ≤ bytes.length → t ∈ typeCodes → rc ∈ romCodes → qc ∉ ramCodes → fails (.unsupportedRamSizeCode qc)) ∧
    (0x150 ≤ bytes.length → t ∈ typeCodes → rc ∈ romCodes → qc ∈ ramCodes →
      checkLogo.getD s.params.checkLogo = true → (bytes.drop 0x104).take 48 ≠ logoRef → fails .logoMismatch)

/-- R71, R86: when every check passes the load ends as Loaded and replaces `cart`; `cfg` holds the resolved type, the two
counts, the image and LENIENT; each RAM byte that INIT_CART_RAM gives is in the buffer (its low nibble on MBC2); nothing
else of the state changes. -/
def Obligations.LoadReplacesTheCartridge : Prop :=
  ∀ (s : State) (bytes : List Byte) (checkLogo : Option Bool) (ct : ControllerType) (rb qb : Nat),
    0x150 ≤ bytes.length →
    resolve (bytes.getD 0x147 0#8) (bytes.getD 0x148 0#8) = some ct →
    romBanks (bytes.getD 0x148 0#8) = some rb → ramBanks (bytes.getD 0x149 0#8) = some qb →
    (checkLogo.getD s.params.checkLogo = true → (bytes.drop 0x104).take 48 = logoRef) →
    ∃ c, exec (.load bytes checkLogo) s = .next { s with cart := some c, response := some .loaded } ∧
      c.cfg.ctype = ct ∧ c.cfg.romBanks = rb ∧ c.cfg.ramBanks = qb ∧ c.cfg.image = bytes ∧
      c.cfg.lenient = s.params.lenient ∧ c.regs = resetRegs s.params.initRtc ct ∧
      c.cfg.header.ctype = ct ∧ c.cfg.header.romBanks = rb ∧ c.cfg.header.ramBanks = qb ∧
      c.cfg.ramSize = (if ct.variant = .mbc2 then 512 else if ct.hasRam = true ∧ 1 ≤ qb then qb * 0x2000 else 0) ∧
      ∀ o, o < c.cfg.ramSize → o < s.params.initCartRam.length →
        cartRamRead c o = (if ct.variant = .mbc2 then s.params.initCartRam.getD o 0#8 &&& 0x0F#8
          else s.params.initCartRam.getD o 0#8)

/-- From 40_load: the header record of a loaded cartridge. The title is the longest printable prefix of 0x0134..0x0143. That
the record still holds the logo after the load is the model's choice, where the spec lets a model drop it (log 15). -/
def Obligations.LoadedHeaderFields : Prop :=
  ∀ (s u : State) (bytes : List Byte) (checkLogo : Option Bool),
    exec (.load bytes checkLogo) s = .next u → u.response = some .loaded →
    ∃ c, u.cart = some c ∧
      c.cfg.header.logo.length = 48 ∧ (∀ j, j < 48 → c.cfg.header.logo[j]? = bytes[0x104 + j]?) ∧
      c.cfg.header.title.length ≤ 16 ∧
      (∀ j, j < c.cfg.header.title.length → c.cfg.header.title[j]? = bytes[0x134 + j]?) ∧
      (∀ b ∈ c.cfg.header.title, 0x20 ≤ b.toNat ∧ b.toNat ≤ 0x7E) ∧
      (c.cfg.header.title.length < 16 →
        ∀ b, bytes[0x134 + c.cfg.header.title.length]? = some b → b.toNat < 0x20 ∨ 0x7E < b.toNat) ∧
      (c.cfg.header.colorMode = .colorCapable ↔ (bytes.getD 0x143 0#8).getLsbD 7 = true) ∧
      (c.cfg.header.sgbSupport = .supported ↔ bytes.getD 0x146 0#8 = 0x03#8)

/-- R78: a loaded cartridge's type is the table's for its type code, with the ROM-size code as `rom_size_class`, and a
code of the table does not fail so, and a code outside it fails the load with the raw code. -/
def Obligations.LoadedTypeIsTheTables : Prop :=
  ∀ (s u : State) (bytes : List Byte) (checkLogo : Option Bool),
    let t := bytes.getD 0x147 0#8
    let rc := bytes.getD 0x148 0#8
    let table : List (Byte × ControllerType) :=
      [ (0x00#8, .romOnly), (0x01#8, .mbc1 rc false false), (0x02#8, .mbc1 rc true false), (0x03#8, .mbc1 rc true true),
        (0x05#8, .mbc2 rc false), (0x06#8, .mbc2 rc true), (0x0F#8, .mbc3 rc false true true),
        (0x10#8, .mbc3 rc true true true),
        (0x11#8, .mbc3 rc false false false), (0x12#8, .mbc3 rc true false false), (0x13#8, .mbc3 rc true true false),
        (0x19#8, .mbc5 rc false false false), (0x1A#8, .mbc5 rc true false false), (0x1B#8, .mbc5 rc true true false),
        (0x1C#8, .mbc5 rc false false true), (0x1D#8, .mbc5 rc true false true), (0x1E#8, .mbc5 rc true true true) ]
    0x150 ≤ bytes.length → exec (.load bytes checkLogo) s = .next u →
    (∀ c, u.response = some .loaded → u.cart = some c → (t, c.cfg.ctype) ∈ table) ∧
    (∀ ct, (t, ct) ∈ table → u.response ≠ some (.loadErr (.unsupportedControllerType t))) ∧
    ((∀ ct, (t, ct) ∉ table) → u = { s with response := some (.loadErr (.unsupportedControllerType t)) })

/-- R79, R80: a loaded cartridge's ROM bank count is the table value of its ROM-size code capped at 96, and its RAM bank
count the table value of its RAM-size code, for every variant. -/
def Obligations.LoadedBankCountsAreTheTables : Prop :=
  ∀ (s u : State) (bytes : List Byte) (checkLogo : Option Bool),
    exec (.load bytes checkLogo) s = .next u → u.response = some .loaded →
    ∃ c, u.cart = some c ∧
      (bytes.getD 0x148 0#8, c.cfg.romBanks) ∈
        ([ (0x00#8, 2), (0x01#8, 4), (0x02#8, 8), (0x03#8, 16), (0x04#8, 32), (0x05#8, 64), (0x06#8, 96),
           (0x07#8, 96), (0x08#8, 96), (0x52#8, 72), (0x53#8, 80), (0x54#8, 96) ] : List (Byte × Nat)) ∧
      (bytes.getD 0x149 0#8, c.cfg.ramBanks) ∈
        ([ (0x00#8, 0), (0x01#8, 1), (0x02#8, 1), (0x03#8, 4), (0x04#8, 16), (0x05#8, 8) ] : List (Byte × Nat))

/-- R21 to R27: the registers of a freshly loaded cartridge, per variant; with a timer the live clock is INIT_RTC and the
latched copy equals it, without one there is no clock. -/
def Obligations.LoadResetsTheRegisters : Prop :=
  ∀ (s u : State) (bytes : List Byte) (checkLogo : Option Bool),
    exec (.load bytes checkLogo) s = .next u → u.response = some .loaded →
    ∃ c, u.cart = some c ∧
      (c.cfg.ctype.variant = .romOnly → c.regs = .romOnly) ∧
      (c.cfg.ctype.variant = .mbc1 → c.regs = .mbc1 ⟨false, 0x01#5, 0x0#2, 0#1⟩) ∧
      (c.cfg.ctype.variant = .mbc2 → c.regs = .mbc2 ⟨false, 0x1#4⟩) ∧
      (c.cfg.ctype.variant = .mbc3 →
        c.regs = .mbc3 ⟨false, 0x01#7, 0x00#8, 0xFF#8,
          if c.cfg.ctype.hasTimer then some ⟨s.params.initRtc, s.params.initRtc⟩ else none⟩) ∧
      (c.cfg.ctype.variant = .mbc5 → c.regs = .mbc5 ⟨false, 0x001#9, 0x0#4⟩)

/-- From 70_reset_and_hazards: immediately after a successful load, in every variant, the two ROM windows show banks 0 and 1, the RAM window
reads 0xFF, MBC1 is in ROM-banking mode, MBC3 and MBC5 select RAM bank 0, and no motor runs. -/
def Obligations.WindowsAfterLoad : Prop :=
  ∀ (s u : State) (bytes : List Byte) (checkLogo : Option Bool),
    exec (.load bytes checkLogo) s = .next u → u.response = some .loaded →
    (∀ a : Addr, a.toNat ≤ 0x3FFF → busRead u a = some (.data (bytes.getD a.toNat 0xFF#8))) ∧
    (∀ a : Addr, 0x4000 ≤ a.toNat → a.toNat ≤ 0x7FFF →
      busRead u a = some (.data (bytes.getD ((a.toNat - 0x4000) + 1 * 0x4000) 0xFF#8))) ∧
    (∀ a : Addr, 0xA000 ≤ a.toNat → a.toNat ≤ 0xBFFF → busRead u a = some (.data 0xFF#8)) ∧
    (∃ c, u.cart = some c ∧ curRomBank c = 1 ∧ (∀ r, c.regs = .mbc1 r → r.mode = 0#1) ∧
      (∀ r, c.regs = .mbc3 r → r.sel = 0x00#8) ∧ (∀ r, c.regs = .mbc5 r → r.ramb = 0x0#4)) ∧
    rumbleMotor u ≠ some true

/-- From 10_state and 70_reset_and_hazards: at power-on there is no cartridge, internal RAM holds INIT_WRAM (its bytes at
reset are the model's choice, log 3), and no transaction is admitted (the fault is the model's form, log 9); so it is after a
power cycle, which brings a new INIT_WRAM (an input of the model's, log 14). -/
def Obligations.PowerOnState : Prop :=
  State.reset.cart = none ∧
  (∀ o, wramRead State.reset o = unlistedWram State.reset.params o) ∧
  (∀ t, serveBus t State.reset = .fault .noCartridge) ∧
  ∀ (s : State) (initWram : List Byte), ∃ u, serve (.powerCycle initWram) s = .next u ∧
    u.cart = none ∧ (∀ o, o < initWram.length → wramRead u o = initWram.getD o 0#8) ∧ u.inputs = s.inputs

/-! ### AddressSpace -/

/-- R92, R93: a read of internal RAM, and a write, which changes the one byte `a - 0xC000` and no cartridge state; under
every variant. -/
def Obligations.WramAccess : Prop :=
  ∀ (s : State) (c : Cartridge) (a : Addr) (v : Byte),
    s.sound = true → s.cart = some c → 0xC000 ≤ a.toNat → a.toNat ≤ 0xDFFF →
    (∀ vr, decodeTransaction vr (.rd a) = some (.asRdWram a) ∧
      decodeTransaction vr (.wr a v) = some (.asWrWram a v)) ∧
    exec (.asRdWram a) s = .next { s with response := some (.data (wramRead s (a.toNat - 0xC000))) } ∧
    ∃ m, exec (.asWrWram a v) s = .next { s with wram := m, response := some .ok } ∧
      wramRead { s with wram := m } (a.toNat - 0xC000) = v ∧
      ∀ o, o ≠ a.toNat - 0xC000 → wramRead { s with wram := m } o = wramRead s o

/-- R94, R95: an unmapped access: lenient, a read gives 0xFF and a write is dropped; strict, the outcome is the addressing
error with the address and the kind. In both, no state changes; under every variant. -/
def Obligations.UnmappedAccessResult : Prop :=
  ∀ (s : State) (c : Cartridge) (a : Addr) (v : Byte), s.cart = some c →
    let read := Host.Outcome.next (φ := Fault) (ρ := Refusal)
      { s with response := some (if c.cfg.lenient then .data 0xFF#8 else .addrErr a .read) }
    let write := Host.Outcome.next (φ := Fault) (ρ := Refusal)
      { s with response := some (if c.cfg.lenient then .ok else .addrErr a .write) }
    (0x8000 ≤ a.toNat → a.toNat ≤ 0x9FFF →
      (∀ vr, decodeTransaction vr (.rd a) = some (.asRdUnmapped8000 a) ∧
        decodeTransaction vr (.wr a v) = some (.asWrUnmapped8000 a v)) ∧
      exec (.asRdUnmapped8000 a) s = read ∧ exec (.asWrUnmapped8000 a v) s = write) ∧
    (0xE000 ≤ a.toNat →
      (∀ vr, decodeTransaction vr (.rd a) = some (.asRdUnmappedE000 a) ∧
        decodeTransaction vr (.wr a v) = some (.asWrUnmappedE000 a v)) ∧
      exec (.asRdUnmappedE000 a) s = read ∧ exec (.asWrUnmappedE000 a v) s = write)

/-- From 60_exceptions: an addressing error comes only from an unmapped address on a strict cartridge, and carries the transaction's
address and kind. -/
def Obligations.AddressingErrorOnlyWhenUnmapped : Prop :=
  ∀ (s u : State) (t : Transaction) (a : Addr) (k : AccessKind),
    serveBus t s = .next u → u.response = some (.addrErr a k) →
    regionOf t.addr = .unmapped ∧ a = t.addr ∧ (k = .write ↔ ∃ v, t = .wr a v) ∧
    ∃ c, s.cart = some c ∧ c.cfg.lenient = false

/-- R9: on a sound state with a cartridge, every transaction completes, a read with a data byte or AddrErr(a, Read), a
write with Ok or AddrErr(a, Write); a load completes, with Loaded or a load error. -/
def Obligations.EveryOperationCompletes : Prop :=
  (∀ (s : State) (c : Cartridge) (t : Transaction), s.sound = true → s.cart = some c →
    ∃ u, serveBus t s = .next u ∧
      match t with
      | .rd a => (∃ v, u.response = some (.data v)) ∨ u.response = some (.addrErr a .read)
      | .wr a _ => u.response = some .ok ∨ u.response = some (.addrErr a .write)) ∧
  (∀ (s : State) (bytes : List Byte) (checkLogo : Option Bool), ∃ u,
    exec (.load bytes checkLogo) s = .next u ∧
      (u.response = some .loaded ∨ ∃ e, u.response = some (.loadErr e)))

/-- R45: a read transaction changes no state of the block. -/
def Obligations.ReadsHaveNoSideEffect : Prop :=
  ∀ (s u : State) (a : Addr), serveBus (.rd a) s = .next u → u = { s with response := u.response }

/-- R96: an addressing error changes no state, and after it the block serves every transaction as if it had not
happened. -/
def Obligations.AddressingErrorIsNotRemembered : Prop :=
  ∀ (s u : State) (t t' : Transaction) (a : Addr) (k : AccessKind),
    serveBus t s = .next u → u.response = some (.addrErr a k) →
    u = { s with response := u.response } ∧ serveBus t' u = serveBus t' s

/-- From 20_memory: serving one transaction twice in a row leaves the same state, and gives the same outcome, as serving it
once. Of the MBC3 latch range it holds because a repeated 0x01 does not latch again (which value was written before still
decides what the first write does: Mbc3LatchWrite). -/
def Obligations.RepeatingATransactionChangesNothing : Prop :=
  ∀ (s u : State) (t : Transaction), s.sound = true → serveBus t s = .next u → serveBus t u = .next u

/-- R17: no transaction writes ROM; no transaction changes anything of the configuration. -/
def Obligations.TransactionsKeepTheConfiguration : Prop :=
  ∀ (s u : State) (c : Cartridge) (t : Transaction), s.cart = some c → serveBus t s = .next u →
    ∃ c', u.cart = some c' ∧ c'.cfg = c.cfg

/-- From 20_memory: the storage spaces do not alias: a transaction changes at most one of internal RAM, cartridge RAM and registers;
internal RAM only by a write in its region, cartridge RAM only by a write in the RAM window, and the registers other than
the live clock only by a write below 0x8000. -/
def Obligations.StorageSpacesDoNotAlias : Prop :=
  ∀ (s u : State) (c c' : Cartridge) (t : Transaction),
    s.cart = some c → serveBus t s = .next u → u.cart = some c' →
    (u.wram ≠ s.wram → ∃ a v, t = .wr a v ∧ 0xC000 ≤ a.toNat ∧ a.toNat ≤ 0xDFFF ∧ c' = c) ∧
    (c'.ram ≠ c.ram → ∃ a v, t = .wr a v ∧ 0xA000 ≤ a.toNat ∧ a.toNat ≤ 0xBFFF ∧ c'.regs = c.regs ∧ u.wram = s.wram) ∧
    (∀ f, c'.regs.setLive f ≠ c.regs.setLive f →
      ∃ a v, t = .wr a v ∧ a.toNat ≤ 0x7FFF ∧ c'.ram = c.ram ∧ u.wram = s.wram)

/-- From 10_state and 20_memory: over every input, the registers other than the live clock change only by a write below 0x8000 or by a
load (a power cycle leaves no cartridge). -/
def Obligations.BankRegistersChangeOnlyByWriteOrLoad : Prop :=
  ∀ (s u : State) (c c' : Cartridge) (inp : Input) (f : Rtc),
    s.cart = some c → serve inp s = .next u → u.cart = some c' → c'.regs.setLive f ≠ c.regs.setLive f →
    (∃ a v, inp = .bus (.wr a v) ∧ a.toNat ≤ 0x7FFF) ∨ (∃ bytes checkLogo, inp = .load bytes checkLogo)

/-- From 20_memory: the host reads and overwrites the bytes of `ram`, whatever the latch; nothing else changes (an MBC2 cell
takes the low nibble: log 17; that the host works byte by byte is the model's choice, log 13). -/
def Obligations.HostSaveAgentAccess : Prop :=
  ∀ (s : State) (c : Cartridge) (o : Nat) (v : Byte), s.sound = true → s.cart = some c → o < c.cfg.ramSize →
    serve (.hostReadRam o) s = .next { s with response := some (.hostByte (cartRamRead c o)) } ∧
    (∃ c', serve (.hostWriteRam o v) s = .next { s with cart := some c', response := some .hostDone } ∧
      c'.cfg = c.cfg ∧ c'.regs = c.regs ∧
      cartRamRead c' o = (if c.cfg.ctype.variant = .mbc2 then v &&& 0x0F#8 else v) ∧
      ∀ p, p ≠ o → cartRamRead c' p = cartRamRead c p)

/-- From 20_memory: the host reads and overwrites the live clock of an MBC3 with a timer; the latched copy and everything
else stay (the form of the access is the model's choice, log 13). -/
def Obligations.HostClockAccess : Prop :=
  ∀ (s : State) (c : Cartridge) (r : Mbc3Regs) (k : Clock) (f : Rtc),
    s.cart = some c → c.regs = .mbc3 r → c.cfg.ctype.hasTimer = true → r.clock = some k →
    serve .hostReadRtc s = .next { s with response := some (.hostRtc k.rtc) } ∧
    serve (.hostWriteRtc f) s = .next { s with
      cart := some { c with regs := .mbc3 { r with clock := some { rtc := f, rtcl := k.rtcl } } }
      response := some .hostDone }

/-! ### RomOnly -/

/-- R97, R98, R99: the RomOnly reads. -/
def Obligations.RomOnlyReads : Prop :=
  ∀ (s : State) (c : Cartridge) (a : Addr), s.cart = some c → c.regs = .romOnly →
    (a.toNat ≤ 0x3FFF → decodeTransaction .romOnly (.rd a) = some (.romRdRom0 a) ∧
      exec (.romRdRom0 a) s = .next { s with response := some (.data (c.cfg.image.getD a.toNat 0xFF#8)) }) ∧
    (0x4000 ≤ a.toNat → a.toNat ≤ 0x7FFF → decodeTransaction .romOnly (.rd a) = some (.romRdRomx a) ∧
      exec (.romRdRomx a) s =
        .next { s with response := some (.data (c.cfg.image.getD ((a.toNat - 0x4000) + 1 * 0x4000) 0xFF#8)) }) ∧
    (0xA000 ≤ a.toNat → a.toNat ≤ 0xBFFF → decodeTransaction .romOnly (.rd a) = some (.romRdRam a) ∧
      exec (.romRdRam a) s = .next { s with response := some (.data 0xFF#8) })

/-- R100, R101: the RomOnly writes are no-ops that complete. -/
def Obligations.RomOnlyWritesAreNoOps : Prop :=
  ∀ (s : State) (c : Cartridge) (a : Addr) (v : Byte), s.cart = some c → c.regs = .romOnly →
    (a.toNat ≤ 0x7FFF → decodeTransaction .romOnly (.wr a v) = some (.romWrRom a v)) ∧
    (0xA000 ≤ a.toNat → a.toNat ≤ 0xBFFF → decodeTransaction .romOnly (.wr a v) = some (.romWrRam a v)) ∧
    exec (.romWrRom a v) s = .next { s with response := some .ok } ∧
    exec (.romWrRam a v) s = .next { s with response := some .ok }

/-- From 42_romonly: on a RomOnly cartridge every sequence of transactions completes, and every read of a cartridge address returns
the same byte before and after it. -/
def Obligations.RomOnlyInvariance : Prop :=
  ∀ (s : State) (c : Cartridge) (ts : List Transaction), s.sound = true → s.cart = some c →
    c.cfg.ctype = .romOnly →
    ∃ u, serveBusAll ts s = .next u ∧ ∀ a : Addr, cartAddress a = true → busRead u a = busRead s a

/-! ### MBC1 -/

/-- R103: the current banks of MBC1. -/
def Obligations.Mbc1CurrentBanks : Prop :=
  ∀ (cfg : CartConfig) (r : Mbc1Regs),
    mbc1RomSel r = (if r.mode = 0#1 then 32 * r.bank2.toNat else 0) + (if r.bank1 = 0#5 then 1 else r.bank1.toNat) ∧
    1 ≤ mbc1RomSel r ∧ mbc1RomSel r ≤ 127 ∧
    mbc1CurRomBank cfg r = mbc1RomSel r % cfg.romBanks ∧
    mbc1CurRamBank cfg r = (if r.mode = 1#1 then r.bank2.toNat else 0) % cfg.ramBanks

/-- R104, R105: the MBC1 ROM reads. -/
def Obligations.Mbc1RomReads : Prop :=
  ∀ (s : State) (c : Cartridge) (r : Mbc1Regs) (a : Addr), s.cart = some c → c.regs = .mbc1 r →
    (a.toNat ≤ 0x3FFF → decodeTransaction .mbc1 (.rd a) = some (.mbc1RdRom0 a) ∧
      exec (.mbc1RdRom0 a) s = .next { s with response := some (.data (c.cfg.image.getD a.toNat 0xFF#8)) }) ∧
    (0x4000 ≤ a.toNat → a.toNat ≤ 0x7FFF →
      let sel := (if r.mode = 0#1 then 32 * r.bank2.toNat else 0) + (if r.bank1 = 0#5 then 1 else r.bank1.toNat)
      decodeTransaction .mbc1 (.rd a) = some (.mbc1RdRomx a) ∧ exec (.mbc1RdRomx a) s = .next { s with
        response := some (.data (c.cfg.image.getD ((a.toNat - 0x4000) + (sel % c.cfg.romBanks) * 0x4000) 0xFF#8)) })

/-- R106, R107: MBC1 reads and writes its RAM window at `(a - 0xA000) + CurRamBank * 0x2000` when the RAM is usable and
enabled; otherwise a read gives 0xFF and a write is dropped. -/
def Obligations.Mbc1RamAccess : Prop :=
  ∀ (s : State) (c : Cartridge) (r : Mbc1Regs) (a : Addr) (v : Byte),
    s.sound = true → s.cart = some c → c.regs = .mbc1 r → 0xA000 ≤ a.toNat → a.toNat ≤ 0xBFFF →
    let o := (a.toNat - 0xA000) + ((if r.mode = 1#1 then r.bank2.toNat else 0) % c.cfg.ramBanks) * 0x2000
    decodeTransaction .mbc1 (.rd a) = some (.mbc1RdRam a) ∧ decodeTransaction .mbc1 (.wr a v) = some (.mbc1WrRam a v) ∧
    (c.cfg.ctype.hasRam = true → 1 ≤ c.cfg.ramBanks → r.ramEn = true →
      exec (.mbc1RdRam a) s = .next { s with response := some (.data (cartRamRead c o)) } ∧
      ∃ t, exec (.mbc1WrRam a v) s = .next t ∧ ramByteWritten s t c o v) ∧
    (c.cfg.ctype.hasRam = false ∨ c.cfg.ramBanks = 0 ∨ r.ramEn = false →
      exec (.mbc1RdRam a) s = .next { s with response := some (.data 0xFF#8) } ∧
      exec (.mbc1WrRam a v) s = .next { s with response := some .ok })

/-- R108 to R111: an MBC1 register write changes its one register, to the field of the value, and nothing else. -/
def Obligations.Mbc1RegisterWrites : Prop :=
  ∀ (s : State) (c : Cartridge) (r : Mbc1Regs) (a : Addr) (v : Byte), s.cart = some c → c.regs = .mbc1 r →
    let wrote := fun r' => Host.Outcome.next (φ := Fault) (ρ := Refusal)
      { s with cart := some { c with regs := .mbc1 r' }, response := some .ok }
    (a.toNat ≤ 0x1FFF → decodeTransaction .mbc1 (.wr a v) = some (.mbc1WrRamen a v) ∧
      exec (.mbc1WrRamen a v) s = wrote { r with ramEn := decide (v.toNat % 16 = 10) }) ∧
    (0x2000 ≤ a.toNat → a.toNat ≤ 0x3FFF →
      decodeTransaction .mbc1 (.wr a v) = some (.mbc1WrBank1 a v) ∧
      exec (.mbc1WrBank1 a v) s = wrote { r with bank1 := BitVec.ofNat 5 (v.toNat % 32) }) ∧
    (0x4000 ≤ a.toNat → a.toNat ≤ 0x5FFF →
      decodeTransaction .mbc1 (.wr a v) = some (.mbc1WrBank2 a v) ∧
      exec (.mbc1WrBank2 a v) s = wrote { r with bank2 := BitVec.ofNat 2 (v.toNat % 4) }) ∧
    (0x6000 ≤ a.toNat → a.toNat ≤ 0x7FFF →
      decodeTransaction .mbc1 (.wr a v) = some (.mbc1WrMode a v) ∧
      exec (.mbc1WrMode a v) s = wrote { r with mode := BitVec.ofNat 1 (v.toNat % 2) })

/-! ### MBC2 -/

/-- R113, R114, R115: the MBC2 ROM reads; the alias comes before the modulo. -/
def Obligations.Mbc2RomReads : Prop :=
  ∀ (s : State) (c : Cartridge) (r : Mbc2Regs) (a : Addr), s.cart = some c → c.regs = .mbc2 r →
    (a.toNat ≤ 0x3FFF → decodeTransaction .mbc2 (.rd a) = some (.mbc2RdRom0 a) ∧
      exec (.mbc2RdRom0 a) s = .next { s with response := some (.data (c.cfg.image.getD a.toNat 0xFF#8)) }) ∧
    (0x4000 ≤ a.toNat → a.toNat ≤ 0x7FFF →
      let bank := (if r.romb = 0#4 then 1 else r.romb.toNat) % c.cfg.romBanks
      decodeTransaction .mbc2 (.rd a) = some (.mbc2RdRomx a) ∧ exec (.mbc2RdRomx a) s =
        .next { s with response := some (.data (c.cfg.image.getD ((a.toNat - 0x4000) + bank * 0x4000) 0xFF#8)) })

/-- R112, R116, R117: the MBC2 nibble RAM, at cell `(a - 0xA000) mod 0x200`, gated by the latch alone. -/
def Obligations.Mbc2RamAccess : Prop :=
  ∀ (s : State) (c : Cartridge) (r : Mbc2Regs) (a : Addr) (v : Byte),
    s.sound = true → s.cart = some c → c.regs = .mbc2 r → 0xA000 ≤ a.toNat → a.toNat ≤ 0xBFFF →
    let cell := (a.toNat - 0xA000) % 0x200
    decodeTransaction .mbc2 (.rd a) = some (.mbc2RdRam a) ∧ decodeTransaction .mbc2 (.wr a v) = some (.mbc2WrRam a v) ∧
    (r.ramEn = true →
      (∃ b : Byte, exec (.mbc2RdRam a) s = .next { s with response := some (.data b) } ∧
        b.toNat = 0xF0 + (cartRamRead c cell).toNat) ∧
      ∃ t, exec (.mbc2WrRam a v) s = .next t ∧ ramByteWritten s t c cell (BitVec.ofNat 8 (v.toNat % 16))) ∧
    (r.ramEn = false →
      exec (.mbc2RdRam a) s = .next { s with response := some (.data 0xFF#8) } ∧
      exec (.mbc2WrRam a v) s = .next { s with response := some .ok })

/-- R118, R119, R120: the MBC2 register writes, told apart by address bit 8, and the ignored write. -/
def Obligations.Mbc2RegisterWrites : Prop :=
  ∀ (s : State) (c : Cartridge) (r : Mbc2Regs) (a : Addr) (v : Byte), s.cart = some c → c.regs = .mbc2 r →
    let wrote := fun r' => Host.Outcome.next (φ := Fault) (ρ := Refusal)
      { s with cart := some { c with regs := .mbc2 r' }, response := some .ok }
    (a.toNat ≤ 0x3FFF → a.getLsbD 8 = false →
      decodeTransaction .mbc2 (.wr a v) = some (.mbc2WrRamen a v) ∧
      exec (.mbc2WrRamen a v) s = wrote { r with ramEn := decide (v.toNat % 16 = 10) }) ∧
    (a.toNat ≤ 0x3FFF → a.getLsbD 8 = true →
      decodeTransaction .mbc2 (.wr a v) = some (.mbc2WrRomb a v) ∧
      exec (.mbc2WrRomb a v) s = wrote { r with romb := BitVec.ofNat 4 (v.toNat % 16) }) ∧
    (0x4000 ≤ a.toNat → a.toNat ≤ 0x7FFF →
      decodeTransaction .mbc2 (.wr a v) = some (.mbc2WrIgnored a v) ∧
      exec (.mbc2WrIgnored a v) s = .next { s with response := some .ok })

/-! ### MBC3 -/

/-- R121 (the ROM bank), R124, R125: the MBC3 ROM reads. -/
def Obligations.Mbc3RomReads : Prop :=
  ∀ (s : State) (c : Cartridge) (r : Mbc3Regs) (a : Addr), s.cart = some c → c.regs = .mbc3 r →
    (a.toNat ≤ 0x3FFF → decodeTransaction .mbc3 (.rd a) = some (.mbc3RdRom0 a) ∧
      exec (.mbc3RdRom0 a) s = .next { s with response := some (.data (c.cfg.image.getD a.toNat 0xFF#8)) }) ∧
    (0x4000 ≤ a.toNat → a.toNat ≤ 0x7FFF →
      let bank := (if r.romb = 0#7 then 1 else r.romb.toNat) % c.cfg.romBanks
      decodeTransaction .mbc3 (.rd a) = some (.mbc3RdRomx a) ∧ exec (.mbc3RdRomx a) s =
        .next { s with response := some (.data (c.cfg.image.getD ((a.toNat - 0x4000) + bank * 0x4000) 0xFF#8)) })

/-- R122, R123, R126: what a read of the MBC3 RAM window gives, in every case of the target, and that it changes nothing.
RAM: latch set, `sel` at most 7, usable RAM. RTC: latch set, a timer, `sel` 0x08 to 0x0C, the latched register with its
missing bits 0, at every address of the window. Nothing: in every other case, 0xFF. -/
def Obligations.Mbc3WindowRead : Prop :=
  ∀ (s : State) (c : Cartridge) (r : Mbc3Regs) (a : Addr),
    s.sound = true → s.cart = some c → c.regs = .mbc3 r → 0xA000 ≤ a.toNat → a.toNat ≤ 0xBFFF →
    let gives := fun (b : Byte) => exec (.mbc3RdRam a) s = .next { s with response := some (.data b) }
    decodeTransaction .mbc3 (.rd a) = some (.mbc3RdRam a) ∧
    (r.ramEn = true → r.sel.toNat ≤ 7 → c.cfg.ctype.hasRam = true → 1 ≤ c.cfg.ramBanks →
      gives (cartRamRead c ((a.toNat - 0xA000) + (r.sel.toNat % c.cfg.ramBanks) * 0x2000))) ∧
    (∀ k, r.ramEn = true → c.cfg.ctype.hasTimer = true → r.clock = some k → 8 ≤ r.sel.toNat → r.sel.toNat ≤ 12 →
      ∃ b, gives b ∧
        (r.sel = 0x08#8 → b.toNat = k.rtcl.S.toNat) ∧ (r.sel = 0x09#8 → b.toNat = k.rtcl.M.toNat) ∧
        (r.sel = 0x0A#8 → b.toNat = k.rtcl.H.toNat) ∧ (r.sel = 0x0B#8 → b = k.rtcl.DL) ∧
        (r.sel = 0x0C#8 → b.toNat = 128 * k.rtcl.DC.toNat + 64 * k.rtcl.HALT.toNat + k.rtcl.DH0.toNat)) ∧
    (r.ramEn = false ∨ 12 < r.sel.toNat ∨ (7 < r.sel.toNat ∧ c.cfg.ctype.hasTimer = false) ∨
      (r.sel.toNat ≤ 7 ∧ (c.cfg.ctype.hasRam = false ∨ c.cfg.ramBanks = 0)) → gives 0xFF#8)

/-- R122, R127: what a write of the MBC3 RAM window does, in every case of the target: one byte of RAM; one register of the
live clock, the latched copy and everything else as before; nothing. -/
def Obligations.Mbc3WindowWrite : Prop :=
  ∀ (s : State) (c : Cartridge) (r : Mbc3Regs) (a : Addr) (v : Byte),
    s.sound = true → s.cart = some c → c.regs = .mbc3 r → 0xA000 ≤ a.toNat → a.toNat ≤ 0xBFFF →
    decodeTransaction .mbc3 (.wr a v) = some (.mbc3WrRam a v) ∧
    (r.ramEn = true → r.sel.toNat ≤ 7 → c.cfg.ctype.hasRam = true → 1 ≤ c.cfg.ramBanks →
      ∃ t, exec (.mbc3WrRam a v) s = .next t ∧
        ramByteWritten s t c ((a.toNat - 0xA000) + (r.sel.toNat % c.cfg.ramBanks) * 0x2000) v) ∧
    (∀ k, r.ramEn = true → c.cfg.ctype.hasTimer = true → r.clock = some k →
      let wrote := fun f => Host.Outcome.next (φ := Fault) (ρ := Refusal)
        { s with cart := some { c with regs := .mbc3 { r with clock := some { rtc := f, rtcl := k.rtcl } } }
                 response := some .ok }
      (r.sel = 0x08#8 → exec (.mbc3WrRam a v) s = wrote { k.rtc with S := BitVec.ofNat 6 (v.toNat % 64) }) ∧
      (r.sel = 0x09#8 → exec (.mbc3WrRam a v) s = wrote { k.rtc with M := BitVec.ofNat 6 (v.toNat % 64) }) ∧
      (r.sel = 0x0A#8 → exec (.mbc3WrRam a v) s = wrote { k.rtc with H := BitVec.ofNat 5 (v.toNat % 32) }) ∧
      (r.sel = 0x0B#8 → exec (.mbc3WrRam a v) s = wrote { k.rtc with DL := v }) ∧
      (r.sel = 0x0C#8 → exec (.mbc3WrRam a v) s = wrote { k.rtc with
        DH0 := BitVec.ofNat 1 (v.toNat % 2), HALT := BitVec.ofNat 1 (v.toNat / 64 % 2)
        DC := BitVec.ofNat 1 (v.toNat / 128) })) ∧
    (r.ramEn = false ∨ 12 < r.sel.toNat ∨ (7 < r.sel.toNat ∧ c.cfg.ctype.hasTimer = false) ∨
      (r.sel.toNat ≤ 7 ∧ (c.cfg.ctype.hasRam = false ∨ c.cfg.ramBanks = 0)) →
      exec (.mbc3WrRam a v) s = .next { s with response := some .ok })

/-- R128, R129, R130: the MBC3 register writes. -/
def Obligations.Mbc3RegisterWrites : Prop :=
  ∀ (s : State) (c : Cartridge) (r : Mbc3Regs) (a : Addr) (v : Byte), s.cart = some c → c.regs = .mbc3 r →
    let wrote := fun r' => Host.Outcome.next (φ := Fault) (ρ := Refusal)
      { s with cart := some { c with regs := .mbc3 r' }, response := some .ok }
    (a.toNat ≤ 0x1FFF → decodeTransaction .mbc3 (.wr a v) = some (.mbc3WrRamen a v) ∧
      exec (.mbc3WrRamen a v) s = wrote { r with ramEn := decide (v.toNat % 16 = 10) }) ∧
    (0x2000 ≤ a.toNat → a.toNat ≤ 0x3FFF →
      decodeTransaction .mbc3 (.wr a v) = some (.mbc3WrRomb a v) ∧
      exec (.mbc3WrRomb a v) s = wrote { r with romb := BitVec.ofNat 7 (v.toNat % 128) }) ∧
    (0x4000 ≤ a.toNat → a.toNat ≤ 0x5FFF → decodeTransaction .mbc3 (.wr a v) = some (.mbc3WrSel a v) ∧
      exec (.mbc3WrSel a v) s = wrote { r with sel := v })

/-- R131: a latch-range write stores its value in `latch_prev`; with a timer, 0x01 after 0x00 copies every live field at
once, whatever the RAM-enable latch; any other write leaves the latched copy. -/
def Obligations.Mbc3LatchWrite : Prop :=
  ∀ (s : State) (c : Cartridge) (r : Mbc3Regs) (a : Addr) (v : Byte), s.sound = true → s.cart = some c →
    c.regs = .mbc3 r → 0x6000 ≤ a.toNat → a.toNat ≤ 0x7FFF →
    decodeTransaction .mbc3 (.wr a v) = some (.mbc3WrLatch a v) ∧
      exec (.mbc3WrLatch a v) s = .next { s with
      cart := some { c with regs := .mbc3 { r with
        latchPrev := v
        clock := if r.latchPrev = 0x00#8 ∧ v = 0x01#8 then r.clock.map (fun k => { rtc := k.rtc, rtcl := k.rtc })
          else r.clock } }
      response := some .ok }

/-- From 45_mbc3: one tick of the live clock, stage by stage: halted, seconds, minutes, hours, days, and the sticky carry;
nothing else of the block changes. That the outcome field is set to none is the model's choice (log 21). -/
def Obligations.RtcTickResult : Prop :=
  ∀ (s : State) (c : Cartridge) (r : Mbc3Regs) (k : Clock),
    s.cart = some c → c.regs = .mbc3 r → c.cfg.ctype.hasTimer = true → r.clock = some k →
    ∃ f, exec .mbc3RtcTick s = .next { s with
        cart := some { c with regs := .mbc3 { r with clock := some { rtc := f, rtcl := k.rtcl } } }
        response := none } ∧
      f.HALT = k.rtc.HALT ∧
      (k.rtc.HALT = 1#1 → f = k.rtc) ∧
      (k.rtc.HALT = 0#1 →
        let d := 256 * k.rtc.DH0.toNat + k.rtc.DL.toNat
        let s59 := k.rtc.S.toNat = 59
        let m59 := s59 ∧ k.rtc.M.toNat = 59
        let h23 := m59 ∧ k.rtc.H.toNat = 23
        (s59 → f.S.toNat = 0) ∧ (¬s59 → f.S.toNat = (k.rtc.S.toNat + 1) % 64 ∧ f.M = k.rtc.M) ∧
        (m59 → f.M.toNat = 0) ∧ (s59 → ¬m59 → f.M.toNat = (k.rtc.M.toNat + 1) % 64) ∧ (¬m59 → f.H = k.rtc.H) ∧
        (h23 → f.H.toNat = 0) ∧ (m59 → ¬h23 → f.H.toNat = (k.rtc.H.toNat + 1) % 32) ∧
        (¬h23 → f.DL = k.rtc.DL ∧ f.DH0 = k.rtc.DH0) ∧
        (h23 → 256 * f.DH0.toNat + f.DL.toNat = (d + 1) % 512) ∧
        (h23 ∧ d = 511 → f.DC = 1#1) ∧ (¬(h23 ∧ d = 511) → f.DC = k.rtc.DC))

/-- From 45_mbc3: on a clock in range and not halted, a tick is one second modulo 512 days, stays in range, and sets the day
carry exactly when it wraps (and keeps it once set). -/
def Obligations.RtcTickCountsSeconds : Prop :=
  ∀ f : Rtc, f.S.toNat < 60 → f.M.toNat < 60 → f.H.toNat < 24 → f.HALT = 0#1 →
    rtcSeconds (rtcTick f) = (rtcSeconds f + 1) % (512 * 86400) ∧
    (rtcTick f).S.toNat < 60 ∧ (rtcTick f).M.toNat < 60 ∧ (rtcTick f).H.toNat < 24 ∧
    ((rtcTick f).DC = 1#1 ↔ f.DC = 1#1 ∨ rtcSeconds f + 1 = 512 * 86400)

/-- From 45_mbc3: without a timer there are no ticks (how the model stops is its choice, log 11). -/
def Obligations.NoTickWithoutTimer : Prop :=
  ∀ (s : State), (∀ c, s.cart = some c → c.cfg.ctype.hasTimer = false) →
    exec .mbc3RtcTick s = .fault .noOscillator

/-- From 10_state and 45_mbc3: over every input, the latched copy of a cartridge that stays loaded changes only by a
0x01 written to the latch range after a 0x00, and then to the live clock. -/
def Obligations.LatchedCopyChangesOnlyByLatch : Prop :=
  ∀ (s u : State) (c c' : Cartridge) (r r' : Mbc3Regs) (k k' : Clock) (inp : Input),
    s.cart = some c → c.regs = .mbc3 r → r.clock = some k →
    serve inp s = .next u → u.cart = some c' → c'.regs = .mbc3 r' → r'.clock = some k' → k'.rtcl ≠ k.rtcl →
    (∃ a, inp = .bus (.wr a 0x01#8) ∧ 0x6000 ≤ a.toNat ∧ a.toNat ≤ 0x7FFF ∧ r.latchPrev = 0x00#8 ∧ k'.rtcl = k.rtc) ∨
    (∃ bytes checkLogo, inp = .load bytes checkLogo)

/-! ### MBC5 -/

/-- R137, R138: the MBC5 ROM reads; no zero alias. -/
def Obligations.Mbc5RomReads : Prop :=
  ∀ (s : State) (c : Cartridge) (r : Mbc5Regs) (a : Addr), s.cart = some c → c.regs = .mbc5 r →
    (a.toNat ≤ 0x3FFF → decodeTransaction .mbc5 (.rd a) = some (.mbc5RdRom0 a) ∧
      exec (.mbc5RdRom0 a) s = .next { s with response := some (.data (c.cfg.image.getD a.toNat 0xFF#8)) }) ∧
    (0x4000 ≤ a.toNat → a.toNat ≤ 0x7FFF →
      let bank := r.romb.toNat % c.cfg.romBanks
      decodeTransaction .mbc5 (.rd a) = some (.mbc5RdRomx a) ∧ exec (.mbc5RdRomx a) s =
        .next { s with response := some (.data (c.cfg.image.getD ((a.toNat - 0x4000) + bank * 0x4000) 0xFF#8)) })

/-- R135 (the RAM bank), R139, R140: the MBC5 RAM window; with rumble, bit 3 of `ramb` is not part of the bank. -/
def Obligations.Mbc5RamAccess : Prop :=
  ∀ (s : State) (c : Cartridge) (r : Mbc5Regs) (a : Addr) (v : Byte),
    s.sound = true → s.cart = some c → c.regs = .mbc5 r → 0xA000 ≤ a.toNat → a.toNat ≤ 0xBFFF →
    let sel := if c.cfg.ctype.hasRumble then r.ramb.toNat % 8 else r.ramb.toNat
    let o := (a.toNat - 0xA000) + (sel % c.cfg.ramBanks) * 0x2000
    decodeTransaction .mbc5 (.rd a) = some (.mbc5RdRam a) ∧ decodeTransaction .mbc5 (.wr a v) = some (.mbc5WrRam a v) ∧
    (c.cfg.ctype.hasRam = true → 1 ≤ c.cfg.ramBanks → r.ramEn = true →
      exec (.mbc5RdRam a) s = .next { s with response := some (.data (cartRamRead c o)) } ∧
      ∃ t, exec (.mbc5WrRam a v) s = .next t ∧ ramByteWritten s t c o v) ∧
    (c.cfg.ctype.hasRam = false ∨ c.cfg.ramBanks = 0 ∨ r.ramEn = false →
      exec (.mbc5RdRam a) s = .next { s with response := some (.data 0xFF#8) } ∧
      exec (.mbc5WrRam a v) s = .next { s with response := some .ok })

/-- R141 to R145: the MBC5 register writes, the two halves of `romb` each keeping the other, and the ignored write. -/
def Obligations.Mbc5RegisterWrites : Prop :=
  ∀ (s : State) (c : Cartridge) (r : Mbc5Regs) (a : Addr) (v : Byte), s.cart = some c → c.regs = .mbc5 r →
    let wrote := fun r' => Host.Outcome.next (φ := Fault) (ρ := Refusal)
      { s with cart := some { c with regs := .mbc5 r' }, response := some .ok }
    (a.toNat ≤ 0x1FFF → decodeTransaction .mbc5 (.wr a v) = some (.mbc5WrRamen a v) ∧
      exec (.mbc5WrRamen a v) s = wrote { r with ramEn := decide (v.toNat % 16 = 10) }) ∧
    (0x2000 ≤ a.toNat → a.toNat ≤ 0x2FFF →
      decodeTransaction .mbc5 (.wr a v) = some (.mbc5WrRombLo a v) ∧
      exec (.mbc5WrRombLo a v) s = wrote { r with romb := BitVec.ofNat 9 (r.romb.toNat / 256 * 256 + v.toNat) }) ∧
    (0x3000 ≤ a.toNat → a.toNat ≤ 0x3FFF →
      decodeTransaction .mbc5 (.wr a v) = some (.mbc5WrRombHi a v) ∧
      exec (.mbc5WrRombHi a v) s =
        wrote { r with romb := BitVec.ofNat 9 (v.toNat % 2 * 256 + r.romb.toNat % 256) }) ∧
    (0x4000 ≤ a.toNat → a.toNat ≤ 0x5FFF →
      decodeTransaction .mbc5 (.wr a v) = some (.mbc5WrRamb a v) ∧
      exec (.mbc5WrRamb a v) s = wrote { r with ramb := BitVec.ofNat 4 (v.toNat % 16) }) ∧
    (0x6000 ≤ a.toNat → a.toNat ≤ 0x7FFF →
      decodeTransaction .mbc5 (.wr a v) = some (.mbc5WrIgnored a v) ∧
      exec (.mbc5WrIgnored a v) s = .next { s with response := some .ok })

/-- R136: with rumble the motor output is bit 3 of `ramb`, so a write of `ramb` sets it to bit 3 of the value; without
rumble there is no output. -/
def Obligations.RumbleMotorFollowsRamb : Prop :=
  ∀ (s : State) (c : Cartridge) (r : Mbc5Regs) (a : Addr) (v : Byte), s.cart = some c → c.regs = .mbc5 r →
    rumbleMotor s = (if c.cfg.ctype.hasRumble then some (decide (r.ramb.toNat / 8 = 1)) else none) ∧
    ∃ t, exec (.mbc5WrRamb a v) s = .next t ∧
      rumbleMotor t = if c.cfg.ctype.hasRumble then some (decide (v.toNat / 8 % 2 = 1)) else none

/-! ### The whole block -/

/-- The invariant is kept by every step: internal RAM and cartridge RAM keep their canonical form inside their sizes,
MBC2 cells stay 4 bits wide, the bank counts stay in their ranges, and the registers stay those of the type. -/
def Obligations.StepKeepsTheStateSound : Prop :=
  ∀ (s u : State), s.sound = true → step s = .next u → u.sound = true

/-- On a sound state a step completes, whatever the next input, but in the two cases in which the spec has no step: a
transaction without a cartridge and a tick without a timer; how the model stops there is its choice (log 9,
log 11). -/
def Obligations.StepStopsOnlyWhereThereIsNoStep : Prop :=
  ∀ (s : State), s.sound = true →
    (∃ u, step s = .next u) ∨
    (step s = .fault .noCartridge ∧ s.cart = none ∧ ∃ t rest, s.inputs = .bus t :: rest) ∨
    (step s = .fault .noOscillator ∧ (∃ rest, s.inputs = .tick :: rest) ∧
      ∀ c, s.cart = some c → c.cfg.ctype.hasTimer = false)

/-- The invariant holds at power-on. -/
def Obligations.ResetStateIsSound : Prop := State.reset.sound = true

/-- From 10_state and 20_memory: on a sound state, the current ROM bank is below the cartridge's actual count, and every RAM-window access
that reaches RAM stays inside the buffer: for each variant the offset is below its size. -/
def Obligations.BanksStayBelowTheirCounts : Prop :=
  ∀ (s : State) (c : Cartridge) (a : Addr), s.sound = true → s.cart = some c →
    curRomBank c < c.cfg.romBanks ∧
    (∀ r, c.regs = .mbc1 r → c.cfg.ramUsable = true →
      mbc1CurRamBank c.cfg r < c.cfg.ramBanks ∧ ramOffset (mbc1CurRamBank c.cfg r) a < c.cfg.ramSize) ∧
    (∀ r, c.regs = .mbc2 r → mbc2Cell a < c.cfg.ramSize) ∧
    (∀ r, c.regs = .mbc3 r → c.cfg.ramUsable = true →
      mbc3CurRamBank c.cfg r < c.cfg.ramBanks ∧ ramOffset (mbc3CurRamBank c.cfg r) a < c.cfg.ramSize) ∧
    (∀ r, c.regs = .mbc5 r → c.cfg.ramUsable = true →
      mbc5CurRamBank c.cfg r < c.cfg.ramBanks ∧ ramOffset (mbc5CurRamBank c.cfg r) a < c.cfg.ramSize)

/-- From 20_memory: in every variant, while the RAM-enable latch is clear, every read of the RAM window returns 0xFF and every
write to it leaves the block's state as it is. -/
def Obligations.DisabledRamIsOpenBus : Prop :=
  ∀ (s : State) (c : Cartridge) (a : Addr) (v : Byte), s.sound = true → s.cart = some c →
    c.regs.ramEnabled = false → 0xA000 ≤ a.toNat → a.toNat ≤ 0xBFFF →
    busRead s a = some (.data 0xFF#8) ∧ serveBus (.wr a v) s = .next { s with response := some .ok }

/-- From 30_encoding: SELROM n completes in each variant that has it and changes the bank that the very next transaction sees to
`n` (its field), aliased where the variant aliases, modulo the count (MBC1 in mode 0). -/
def Obligations.SelRomSelectsTheBank : Prop :=
  ∀ (s : State) (c : Cartridge) (n : BitVec 9) (ts : List Transaction), s.sound = true → s.cart = some c →
    selRom n c.cfg.ctype.variant = some ts → (∀ r, c.regs = .mbc1 r → r.mode = 0#1) →
    ∃ u c', serveBusAll ts s = .next u ∧ u.cart = some c' ∧ c'.cfg = c.cfg ∧
      curRomBank c' =
          (match c.cfg.ctype.variant with
          | .mbc1 => n.toNat / 32 % 4 * 32 + (if n.toNat % 32 = 0 then 1 else n.toNat % 32)
          | .mbc2 => if n.toNat % 16 = 0 then 1 else n.toNat % 16
          | .mbc3 => if n.toNat % 128 = 0 then 1 else n.toNat % 128
          | .romOnly | .mbc5 => n.toNat) % c.cfg.romBanks

/-- From 30_encoding: SELRAM n completes in each variant that has it and makes `n` (its field) the current RAM bank, modulo the count,
on MBC5 with rumble without bit 3; SELRTC n completes on an MBC3 and makes `sel` the n-th clock register. -/
def Obligations.SelRamAndSelRtcSelectTheTarget : Prop :=
  (∀ (s : State) (c : Cartridge) (n : BitVec 4) (ts : List Transaction), s.sound = true → s.cart = some c →
    selRam n c.cfg.ctype.variant = some ts →
    ∃ u c', serveBusAll ts s = .next u ∧ u.cart = some c' ∧ c'.cfg = c.cfg ∧ c'.ram = c.ram ∧
      (∀ r, c'.regs = .mbc1 r → mbc1CurRamBank c'.cfg r = n.toNat % 4 % c.cfg.ramBanks) ∧
      (∀ r, c'.regs = .mbc3 r → r.sel.toNat ≤ 7 ∧ mbc3CurRamBank c'.cfg r = n.toNat % 8 % c.cfg.ramBanks) ∧
      (∀ r, c'.regs = .mbc5 r →
        mbc5CurRamBank c'.cfg r = (if c.cfg.ctype.hasRumble then n.toNat % 8 else n.toNat) % c.cfg.ramBanks)) ∧
  (∀ (s : State) (c : Cartridge) (n : Fin 5) (ts : List Transaction), s.sound = true → s.cart = some c →
    selRtc n c.cfg.ctype.variant = some ts →
    ∃ u c' r, serveBusAll ts s = .next u ∧ u.cart = some c' ∧ c'.cfg = c.cfg ∧ c'.ram = c.ram ∧
      c'.regs = .mbc3 r ∧ r.sel.toNat = 8 + n.val)

/-- From 30_encoding: LATCH completes on an MBC3 and, with a timer, leaves the latched copy equal to the live clock, which it does not
change. -/
def Obligations.LatchCopiesTheLiveClock : Prop :=
  ∀ (s : State) (c : Cartridge) (r : Mbc3Regs) (k : Clock) (ts : List Transaction), s.sound = true →
    s.cart = some c → c.regs = .mbc3 r → r.clock = some k → latch c.cfg.ctype.variant = some ts →
    serveBusAll ts s = .next { s with
      cart := some { c with regs := .mbc3 { r with latchPrev := 0x01#8, clock := some ⟨k.rtc, k.rtc⟩ } }
      response := some .ok }

/-- From 30_encoding: RAMON sets and RAMOFF clears the RAM-enable latch, in every variant that has one. -/
def Obligations.RamOnAndRamOff : Prop :=
  ∀ (s : State) (c : Cartridge) (on off : List Transaction), s.sound = true → s.cart = some c →
    ramOn c.cfg.ctype.variant = some on → ramOff c.cfg.ctype.variant = some off →
    (∃ u c', serveBusAll on s = .next u ∧ u.cart = some c' ∧ c'.regs.ramEnabled = true ∧ c'.cfg = c.cfg ∧ c'.ram = c.ram) ∧
    (∃ u c', serveBusAll off s = .next u ∧ u.cart = some c' ∧ c'.regs.ramEnabled = false ∧ c'.cfg = c.cfg ∧ c'.ram = c.ram)
end

