-- ==== Sys2Proof/Laws/State.lean ====
section
/-! SUPPORT. One lemma per field per update of the state, all true by unfolding the record update. -/

namespace Sys2Proof.Machine

section withCartridge
variable (s : State) (c : Cartridge)

@[simp] theorem State.withCartridge_wram : (s.withCartridge c).wram = s.wram := rfl
@[simp] theorem State.withCartridge_cart : (s.withCartridge c).cart = some c := rfl
@[simp] theorem State.withCartridge_params : (s.withCartridge c).params = s.params := rfl
@[simp] theorem State.withCartridge_inputs : (s.withCartridge c).inputs = s.inputs := rfl
@[simp] theorem State.withCartridge_response : (s.withCartridge c).response = s.response := rfl

end withCartridge

section wramWrite
variable (s : State) (o : Nat) (v : Byte)

@[simp] theorem wramWrite_cart : (wramWrite s o v).cart = s.cart := rfl
@[simp] theorem wramWrite_params : (wramWrite s o v).params = s.params := rfl
@[simp] theorem wramWrite_inputs : (wramWrite s o v).inputs = s.inputs := rfl
@[simp] theorem wramWrite_response : (wramWrite s o v).response = s.response := rfl
theorem wramWrite_wram :
    (wramWrite s o v).wram = Memory.write (unlistedWram s.params) s.wram o v := rfl

end wramWrite

section cartRamWrite
variable (c : Cartridge) (o : Nat) (v : Byte)

@[simp] theorem cartRamWrite_cfg : (cartRamWrite c o v).cfg = c.cfg := rfl
@[simp] theorem cartRamWrite_regs : (cartRamWrite c o v).regs = c.regs := rfl
theorem cartRamWrite_ram : (cartRamWrite c o v).ram = Memory.write unlistedRam c.ram o v := rfl

end cartRamWrite

section reset

@[simp] theorem State.reset_wram : State.reset.wram = [] := rfl
@[simp] theorem State.reset_cart : State.reset.cart = none := rfl
@[simp] theorem State.reset_inputs : State.reset.inputs = [] := rfl
@[simp] theorem State.reset_response : State.reset.response = none := rfl

end reset

end Sys2Proof.Machine
end

