-- ==== Sys2Proof/Laws/Decode.lean ====
section
/-! SUPPORT. Keys and masks as numbers, and the rows of the table: two rows that serve one variant never match one key. -/

namespace Sys2Proof

theorem Transaction.toNat_key_rd (a : Addr) : (Transaction.rd a).key.toNat = a.toNat := by
  refine (BitVec.toNat_append 0#1 a).trans ?_
  simp

theorem Transaction.toNat_key_wr (a : Addr) (v : Byte) : (Transaction.wr a v).key.toNat = 0x10000 + a.toNat := by
  have h := a.isLt
  refine (BitVec.toNat_append 1#1 a).trans ?_
  rw [← Nat.shiftLeft_add_eq_or_of_lt h]
  rfl

theorem Transaction.getLsbD_key_wr (a : Addr) (v : Byte) : (Transaction.wr a v).key.getLsbD 8 = a.getLsbD 8 := by
  refine (BitVec.getLsbD_append (x := 1#1) (y := a)).trans ?_
  simp

namespace Mask

/-- A mask of the top bits keeps the quotient. -/
theorem and_top (n : Nat) {k m b : BitVec 17} (hm : m = BitVec.allOnes 17 <<< n)
    (hb : b.toNat % 2 ^ n = 0) : k &&& m = b ↔ k.toNat / 2 ^ n = b.toNat / 2 ^ n := by
  have hkm : k &&& m = (k >>> n) <<< n := by
    subst hm
    ext i hi
    simp only [BitVec.getElem_and, BitVec.getElem_shiftLeft, BitVec.getElem_allOnes]
    by_cases h : i < n
    · simp [h]
    · have : n + (i - n) = i := by omega
      simp [h, this, BitVec.getLsbD_eq_getElem hi]
  have hlt : k.toNat / 2 ^ n * 2 ^ n < 2 ^ 17 := lt_of_le_of_lt (Nat.div_mul_le_self _ _) k.isLt
  rw [hkm, ← BitVec.toNat_inj]
  simp only [BitVec.toNat_shiftLeft, BitVec.toNat_ushiftRight, Nat.shiftLeft_eq, Nat.shiftRight_eq_div_pow,
    Nat.mod_eq_of_lt hlt]
  have hpos : 0 < 2 ^ n := Nat.pos_of_ne_zero (by positivity)
  constructor
  · intro h
    rw [← h, Nat.mul_div_cancel _ hpos]
  · intro h
    rw [h]
    have := Nat.div_add_mod b.toNat (2 ^ n)
    rw [hb] at this
    rw [Nat.mul_comm]
    omega

theorem and_12 {k b : BitVec 17} (hb : b.toNat % 0x1000 = 0) :
    k &&& 0x1F000#17 = b ↔ k.toNat / 0x1000 = b.toNat / 0x1000 := and_top 12 (by decide) hb

theorem and_13 {k b : BitVec 17} (hb : b.toNat % 0x2000 = 0) :
    k &&& 0x1E000#17 = b ↔ k.toNat / 0x2000 = b.toNat / 0x2000 := and_top 13 (by decide) hb

theorem and_14 {k b : BitVec 17} (hb : b.toNat % 0x4000 = 0) :
    k &&& 0x1C000#17 = b ↔ k.toNat / 0x4000 = b.toNat / 0x4000 := and_top 14 (by decide) hb

theorem and_15 {k b : BitVec 17} (hb : b.toNat % 0x8000 = 0) :
    k &&& 0x18000#17 = b ↔ k.toNat / 0x8000 = b.toNat / 0x8000 := and_top 15 (by decide) hb

theorem bit8_getElem : ∀ j : Fin 17, j.val ≠ 8 → (0x00100#17)[j.val] = false := by decide

/-- The mask of bit 8 alone. -/
theorem and_bit8 (k : BitVec 17) : k &&& 0x00100#17 = if k.getLsbD 8 then 0x00100#17 else 0#17 := by
  ext i hi
  by_cases h : i = 8
  · subst h
    rw [BitVec.getElem_and]
    cases hk : k.getLsbD 8 <;> simp_all
  · have h0 : (0x00100#17)[i] = false :=
      bit8_getElem ⟨i, hi⟩ h
    rw [BitVec.getElem_and, h0, Bool.and_false]
    split
    · exact h0.symm
    · simp

theorem and_split (k : BitVec 17) : k &&& 0x1C100#17 = (k &&& 0x1C000#17) ||| (k &&& 0x00100#17) := by
  rw [← BitVec.and_or_distrib_left]
  rfl

/-- An MBC2 key in the register range with bit 8 clear (30_encoding R62). -/
theorem and_split_clear {k : BitVec 17} (h : k.toNat / 0x4000 = 4) (h8 : k.getLsbD 8 = false) :
    k &&& 0x1C100#17 = 0x10000#17 := by
  rw [and_split, (and_14 (b := 0x10000#17) (by decide)).2 (by simpa using h), and_bit8, h8]
  rfl

/-- An MBC2 key in the register range with bit 8 set (30_encoding R62). -/
theorem and_split_set {k : BitVec 17} (h : k.toNat / 0x4000 = 4) (h8 : k.getLsbD 8 = true) :
    k &&& 0x1C100#17 = 0x10100#17 := by
  rw [and_split, (and_14 (b := 0x10000#17) (by decide)).2 (by simpa using h), and_bit8, h8]
  rfl

end Mask

/-- No variant is served by both rows, or no key matches both. -/
def Row.apart (r q : Row) : Bool :=
  (match r.variant, q.variant with
    | some x, some y => x != y
    | _, _ => false) || r.bits &&& q.mask != q.bits &&& r.mask

theorem rows_pairwise_apart : rows.Pairwise (fun r q => r.apart q = true) := by decide

/-- Rows that are apart never hit one key under one variant. -/
theorem Row.not_hits_of_apart {r q : Row} {vr : Variant} {k : BitVec 17} (h : r.apart q) (hr : r.hits vr k)
    (hq : q.hits vr k) : False := by
  simp only [Row.hits, Bool.and_eq_true, beq_iff_eq] at hr hq
  obtain ⟨hrv, hrk⟩ := hr
  obtain ⟨hqv, hqk⟩ := hq
  have hbits : r.bits &&& q.mask = q.bits &&& r.mask := by
    rw [← hrk, ← hqk, BitVec.and_assoc, BitVec.and_comm r.mask, ← BitVec.and_assoc]
  simp only [Row.apart, hbits, bne_self_eq_false, Bool.or_false] at h
  unfold Row.serves at hrv hqv
  cases hx : r.variant <;> cases hy : q.variant <;> simp_all

/-- A row that hits is the row the decoder finds. -/
theorem find_eq_of_hits {l : List Row} (hl : l.Pairwise (fun r q => r.apart q = true)) {r : Row} {vr : Variant}
    {k : BitVec 17} (hr : r ∈ l) (hk : r.hits vr k) : l.find? (fun r => r.hits vr k) = some r := by
  induction l with
  | nil => cases hr
  | cons q l ih =>
    rw [List.pairwise_cons] at hl
    by_cases hq : q.hits vr k
    · rcases List.mem_cons.1 hr with rfl | hmem
      · simp [hk]
      · exact (Row.not_hits_of_apart (hl.1 r hmem) hq hk).elim
    · rcases List.mem_cons.1 hr with rfl | hmem
      · exact absurd hk hq
      · rw [List.find?_cons]
        simp only [Bool.not_eq_true] at hq
        rw [hq]
        exact ih hl.2 hmem

/-- What a transaction whose key hits a row decodes to. -/
theorem decodeTransaction_of_hits {r : Row} {vr : Variant} {t : Transaction} (hr : r ∈ rows) (hk : r.hits vr t.key) :
    decodeTransaction vr t = some (r.build t.addr t.data) := by
  simp only [decodeTransaction, find_eq_of_hits rows_pairwise_apart hr hk, Option.map_some]

/-- What the decoder gives was built by a row of the table that hits. -/
theorem decodeTransaction_some {vr : Variant} {t : Transaction} {i : Instr} (h : decodeTransaction vr t = some i) :
    ∃ r ∈ rows, r.hits vr t.key ∧ r.build t.addr t.data = i := by
  simp only [decodeTransaction, Option.map_eq_some_iff] at h
  obtain ⟨r, hr, hb⟩ := h
  exact ⟨r, List.mem_of_find?_eq_some hr, List.find?_some (p := fun r : Row => r.hits vr t.key) hr, hb⟩

section members
variable {r : Row}

theorem mem_rows_addressSpace (h : r ∈ addressSpaceRows) : r ∈ rows := by simp [rows, h]
theorem mem_rows_romOnly (h : r ∈ romOnlyRows) : r ∈ rows := by simp [rows, h]
theorem mem_rows_mbc1 (h : r ∈ mbc1Rows) : r ∈ rows := by simp [rows, h]
theorem mem_rows_mbc2 (h : r ∈ mbc2Rows) : r ∈ rows := by simp [rows, h]
theorem mem_rows_mbc3 (h : r ∈ mbc3Rows) : r ∈ rows := by simp [rows, h]
theorem mem_rows_mbc5 (h : r ∈ mbc5Rows) : r ∈ rows := by simp [rows, h]

end members

end Sys2Proof
end

