-- ==== Sys2Proof/Laws/Ops.lean ====
section
/-! SUPPORT. The shared operations: what each one answers, and everything an operation of the block can do. -/

namespace Sys2Proof.Machine

/-! ### Reaching the loaded cartridge -/

section reach
variable {s t : State} {c : Cartridge}

theorem withCart_eq {k : Cartridge → Result} (hc : s.cart = some c) : withCart s k = k c := by
  simp only [withCart, hc]

theorem withCart_next {k : Cartridge → Result} (h : withCart s k = .next t) :
    ∃ c, s.cart = some c ∧ k c = .next t := by
  unfold withCart at h
  split at h
  · cases h
  · exact ⟨_, ‹_›, h⟩

theorem withCart_stuck {k : Cartridge → Result} (hc : s.cart = none) : withCart s k = .fault .noCartridge := by
  simp only [withCart, hc]

theorem onRomOnly_eq {k : Cartridge → Result} (hc : s.cart = some c) (hr : c.regs = .romOnly) :
    onRomOnly s k = k c := by
  simp only [onRomOnly, withCart_eq hc, hr]

theorem onRomOnly_next {k : Cartridge → Result} (h : onRomOnly s k = .next t) :
    ∃ c, s.cart = some c ∧ c.regs = .romOnly ∧ k c = .next t := by
  obtain ⟨c, hc, h⟩ := withCart_next h
  split at h
  · exact ⟨c, hc, ‹_›, h⟩
  all_goals cases h

theorem onMbc1_eq {r : Mbc1Regs} {k : Cartridge → Mbc1Regs → Result} (hc : s.cart = some c)
    (hr : c.regs = .mbc1 r) : onMbc1 s k = k c r := by
  simp only [onMbc1, withCart_eq hc, hr]

theorem onMbc1_next {k : Cartridge → Mbc1Regs → Result} (h : onMbc1 s k = .next t) :
    ∃ c r, s.cart = some c ∧ c.regs = .mbc1 r ∧ k c r = .next t := by
  obtain ⟨c, hc, h⟩ := withCart_next h
  split at h
  · exact ⟨c, _, hc, ‹_›, h⟩
  all_goals cases h

theorem onMbc2_eq {r : Mbc2Regs} {k : Cartridge → Mbc2Regs → Result} (hc : s.cart = some c)
    (hr : c.regs = .mbc2 r) : onMbc2 s k = k c r := by
  simp only [onMbc2, withCart_eq hc, hr]

theorem onMbc2_next {k : Cartridge → Mbc2Regs → Result} (h : onMbc2 s k = .next t) :
    ∃ c r, s.cart = some c ∧ c.regs = .mbc2 r ∧ k c r = .next t := by
  obtain ⟨c, hc, h⟩ := withCart_next h
  split at h
  · exact ⟨c, _, hc, ‹_›, h⟩
  all_goals cases h

theorem onMbc3_eq {r : Mbc3Regs} {k : Cartridge → Mbc3Regs → Result} (hc : s.cart = some c)
    (hr : c.regs = .mbc3 r) : onMbc3 s k = k c r := by
  simp only [onMbc3, withCart_eq hc, hr]

theorem onMbc3_next {k : Cartridge → Mbc3Regs → Result} (h : onMbc3 s k = .next t) :
    ∃ c r, s.cart = some c ∧ c.regs = .mbc3 r ∧ k c r = .next t := by
  obtain ⟨c, hc, h⟩ := withCart_next h
  split at h
  · exact ⟨c, _, hc, ‹_›, h⟩
  all_goals cases h

theorem onMbc5_eq {r : Mbc5Regs} {k : Cartridge → Mbc5Regs → Result} (hc : s.cart = some c)
    (hr : c.regs = .mbc5 r) : onMbc5 s k = k c r := by
  simp only [onMbc5, withCart_eq hc, hr]

theorem onMbc5_next {k : Cartridge → Mbc5Regs → Result} (h : onMbc5 s k = .next t) :
    ∃ c r, s.cart = some c ∧ c.regs = .mbc5 r ∧ k c r = .next t := by
  obtain ⟨c, hc, h⟩ := withCart_next h
  split at h
  · exact ⟨c, _, hc, ‹_›, h⟩
  all_goals cases h

end reach

/-! ### Bank numbers and offsets -/

theorem ramWindowOffset_lt (a : Addr) : ramWindowOffset a < Config.ramBankSize := (a.setWidth 13).isLt

theorem wramOffset_lt (a : Addr) : wramOffset a < Config.wramSize := (a.setWidth 13).isLt

theorem romWindowOffset_lt (a : Addr) : romWindowOffset a < Config.romBankSize := (a.setWidth 14).isLt

theorem mbc2Cell_lt (a : Addr) : mbc2Cell a < Config.mbc2RamCells := (a.setWidth 9).isLt

/-- A RAM access in a bank below the count lies inside the buffer. -/
theorem ramOffset_lt {bank banks : Nat} (a : Addr) (h : bank < banks) :
    ramOffset bank a < banks * Config.ramBankSize := by
  have hw := ramWindowOffset_lt a
  have hb : (bank + 1) * Config.ramBankSize ≤ banks * Config.ramBankSize := Nat.mul_le_mul_right _ h
  rw [Nat.add_mul, Nat.one_mul] at hb
  unfold ramOffset
  omega

/-- Off MBC2, usable RAM has a bank and the buffer's size is all its banks. -/
theorem usable_size {cfg : CartConfig} (hv : cfg.ctype.variant ≠ .mbc2) (hu : cfg.ramUsable) :
    1 ≤ cfg.ramBanks ∧ cfg.ramSize = cfg.ramBanks * Config.ramBankSize := by
  have hu' : Machine.ramUsable cfg.ctype cfg.ramBanks = true := hu
  refine ⟨?_, ?_⟩
  · unfold Machine.ramUsable at hu'
    split at hu'
    · exact absurd ‹_› hv
    · simp only [Bool.and_eq_true, Nat.ble_eq] at hu'
      exact hu'.2
  · unfold CartConfig.ramSize Machine.ramSize
    split
    · exact absurd ‹_› hv
    · rw [if_pos hu']

/-- Off MBC2, an access through the RAM window lies inside the buffer, whatever the select value. -/
theorem window_in_ram {cfg : CartConfig} (sel : Nat) (a : Addr) (hv : cfg.ctype.variant ≠ .mbc2)
    (hu : cfg.ramUsable) : ramOffset (sel % cfg.ramBanks) a < cfg.ramSize := by
  obtain ⟨h1, hsize⟩ := usable_size hv hu
  rw [hsize]
  exact ramOffset_lt a (Nat.mod_lt _ h1)

theorem lowNibble_le (v : Byte) : (lowNibble v).toNat ≤ 0x0F := by
  have : (lowNibble v).toNat = v.toNat &&& 0x0F := BitVec.toNat_and v 0x0F#8
  rw [this]
  exact Nat.and_le_right

/-! ### Everything an operation can do -/

/-- What an operation of the block does to `wram` and `cart`. -/
inductive Effect (s t : State) : Prop where
  /-- nothing -/
  | same (hw : t.wram = s.wram) (hc : t.cart = s.cart)
  /-- one byte of internal RAM is written -/
  | wram (a : Addr) (v : Byte) (hw : t.wram = (wramWrite s (wramOffset a) v).wram) (hc : t.cart = s.cart)
  /-- the loaded variant's registers are written -/
  | regs (c : Cartridge) (rs : Regs) (hs : s.cart = some c) (hc : t.cart = some { c with regs := rs })
      (hw : t.wram = s.wram) (hfit : c.regs.fit c.cfg.ctype → rs.fit c.cfg.ctype)
  /-- one byte of cartridge RAM is written, inside the buffer -/
  | ram (c : Cartridge) (o : Nat) (v : Byte) (hs : s.cart = some c) (hc : t.cart = some (cartRamWrite c o v))
      (hw : t.wram = s.wram)
      (hin : c.regs.fit c.cfg.ctype → o < c.cfg.ramSize ∧ (c.cfg.ctype.variant = .mbc2 → v.toNat ≤ 0x0F))
  /-- a cartridge is loaded -/
  | load (c : Cartridge) (bytes : List Byte) (check : Bool) (hl : loadImage s.params bytes check = .loaded c)
      (hc : t.cart = some c) (hw : t.wram = s.wram)

/-- An operation keeps the parameters and the pending inputs, and has one of the effects above. -/
structure Does (s t : State) : Prop where
  inputs : t.inputs = s.inputs
  params : t.params = s.params
  effect : Effect s t

section does
variable {s t : State} {c : Cartridge}

theorem does_respond {v : Byte} (h : respond s v = .next t) : Does s t := by
  cases h
  exact ⟨rfl, rfl, .same rfl rfl⟩

theorem does_done (h : done s = .next t) : Does s t := by
  cases h
  exact ⟨rfl, rfl, .same rfl rfl⟩

theorem does_answer {r : Response} (h : answer s r = .next t) : Does s t := by
  cases h
  exact ⟨rfl, rfl, .same rfl rfl⟩

theorem does_writeRegs {rs : Regs} (hc : s.cart = some c) (hfit : c.regs.fit c.cfg.ctype → rs.fit c.cfg.ctype)
    (h : writeRegs s c rs = .next t) : Does s t := by
  cases h
  exact ⟨rfl, rfl, .regs c rs hc rfl rfl hfit⟩

theorem does_writeRam {o : Nat} {v : Byte} (hc : s.cart = some c)
    (hin : c.regs.fit c.cfg.ctype → o < c.cfg.ramSize ∧ (c.cfg.ctype.variant = .mbc2 → v.toNat ≤ 0x0F))
    (h : writeRam s c o v = .next t) : Does s t := by
  cases h
  exact ⟨rfl, rfl, .ram c o v hc rfl rfl hin⟩

theorem does_readUnmapped {a : Addr} (h : readUnmapped a s = .next t) : Does s t := by
  obtain ⟨c, -, h⟩ := withCart_next h
  exact does_answer h

theorem does_writeUnmapped {a : Addr} (h : writeUnmapped a s = .next t) : Does s t := by
  obtain ⟨c, -, h⟩ := withCart_next h
  exact does_answer h

/-- A write through the RAM window of a variant that is not MBC2. -/
theorem window_write_ok {sel : Nat} {a : Addr} {v : Byte} {rs : Regs} {ramEn : Bool} (hr : c.regs = rs)
    (hv : rs.fit c.cfg.ctype → c.cfg.ctype.variant ≠ .mbc2) (hacc : ramAccessible c.cfg ramEn) :
    c.regs.fit c.cfg.ctype → ramOffset (sel % c.cfg.ramBanks) a < c.cfg.ramSize ∧
      (c.cfg.ctype.variant = .mbc2 → v.toNat ≤ 0x0F) := by
  intro hf
  have hne := hv (hr ▸ hf)
  simp only [ramAccessible, Bool.and_eq_true] at hacc
  exact ⟨window_in_ram sel a hne hacc.1, fun h => absurd h hne⟩

end does

end Sys2Proof.Machine
end

