-- ==== Sys2Proof/Laws/Exec.lean ====
section
/-! SUPPORT. Everything one operation, one pending input and one step can do, said once. -/

namespace Sys2Proof.Machine

variable {s t : State}

theorem Regs.fit_mbc1 {r r' : Mbc1Regs} {ct : ControllerType} (h : Regs.fit ct (.mbc1 r)) : Regs.fit ct (.mbc1 r') := h
theorem Regs.fit_mbc2 {r r' : Mbc2Regs} {ct : ControllerType} (h : Regs.fit ct (.mbc2 r)) : Regs.fit ct (.mbc2 r') := h
theorem Regs.fit_mbc5 {r r' : Mbc5Regs} {ct : ControllerType} (h : Regs.fit ct (.mbc5 r)) : Regs.fit ct (.mbc5 r') := h

/-- MBC3 registers fit a type as long as the clock is there as before. -/
theorem Regs.fit_mbc3 {r r' : Mbc3Regs} {ct : ControllerType} (h : Regs.fit ct (.mbc3 r))
    (hk : r'.clock.isSome = r.clock.isSome) : Regs.fit ct (.mbc3 r') := by
  simpa only [Regs.fit, hk] using h

theorem Regs.variant_of_fit {ct : ControllerType} : ∀ {rs : Regs}, rs.fit ct →
    (∀ r, rs = .mbc1 r → ct.variant = .mbc1) ∧ (∀ r, rs = .mbc2 r → ct.variant = .mbc2) ∧
    (∀ r, rs = .mbc3 r → ct.variant = .mbc3) ∧ (∀ r, rs = .mbc5 r → ct.variant = .mbc5) := by
  intro rs h
  cases rs <;> simp_all [Regs.fit]

theorem liveClock_some {c : Cartridge} {r : Mbc3Regs} {k : Clock} (h : liveClock c r = some k) : r.clock = some k := by
  unfold liveClock at h
  split at h
  · exact h
  · cases h

theorem does_execLoad {bytes : List Byte} {checkLogo : Option Bool} (h : execLoad bytes checkLogo s = .next t) :
    Does s t := by
  unfold execLoad at h
  split at h
  · cases h
    exact ⟨rfl, rfl, .load _ bytes _ ‹_› rfl rfl⟩
  · cases h
    exact ⟨rfl, rfl, .same rfl rfl⟩

theorem does_execMbc1WrRam {a : Addr} {v : Byte} (h : execMbc1WrRam a v s = .next t) : Does s t := by
  obtain ⟨c, r, hc, hr, h⟩ := onMbc1_next h
  split at h
  · refine does_writeRam hc (window_write_ok hr (fun hf => ?_) ‹_›) h
    rw [(Regs.variant_of_fit hf).1 r rfl]
    decide
  · exact does_done h

theorem does_execMbc5WrRam {a : Addr} {v : Byte} (h : execMbc5WrRam a v s = .next t) : Does s t := by
  obtain ⟨c, r, hc, hr, h⟩ := onMbc5_next h
  split at h
  · refine does_writeRam hc (window_write_ok hr (fun hf => ?_) ‹_›) h
    rw [(Regs.variant_of_fit hf).2.2.2 r rfl]
    decide
  · exact does_done h

theorem does_execMbc2WrRam {a : Addr} {v : Byte} (h : execMbc2WrRam a v s = .next t) : Does s t := by
  obtain ⟨c, r, hc, hr, h⟩ := onMbc2_next h
  split at h
  · refine does_writeRam hc (fun hf => ⟨?_, fun _ => lowNibble_le v⟩) h
    have hv := (Regs.variant_of_fit hf).2.1 r hr
    unfold CartConfig.ramSize Machine.ramSize
    rw [hv]
    exact mbc2Cell_lt a
  · exact does_done h

/-- Where the MBC3 RAM window reaches RAM, the RAM is usable and the bank is the select value's. -/
theorem mbc3Target_ram {c : Cartridge} {r : Mbc3Regs} {b : Nat} (h : mbc3Target c r = .ram b) :
    r.ramEn = true ∧ r.sel.toNat ≤ 7 ∧ c.cfg.ramUsable = true ∧ b = r.sel.toNat % c.cfg.ramBanks := by
  unfold mbc3Target at h
  split at h
  · cases h
  · split at h
    · cases h
      simp_all [mbc3CurRamBank]
    · split at h <;> cases h

/-- Where it reaches an RTC register, the clock is the registers' own. -/
theorem mbc3Target_rtc {c : Cartridge} {r : Mbc3Regs} {reg : RtcReg} {k : Clock} (h : mbc3Target c r = .rtc reg k) :
    r.ramEn = true ∧ rtcRegOf r.sel = some reg ∧ liveClock c r = some k := by
  unfold mbc3Target at h
  split at h
  · cases h
  · split at h
    · cases h
    · split at h
      · cases h
        simp_all
      · cases h

theorem does_execMbc3WrRam {a : Addr} {v : Byte} (h : execMbc3WrRam a v s = .next t) : Does s t := by
  obtain ⟨c, r, hc, hr, h⟩ := onMbc3_next h
  split at h
  · rename_i b htar
    obtain ⟨-, -, hu, rfl⟩ := mbc3Target_ram htar
    refine does_writeRam hc (fun hf => ?_) h
    have hne : c.cfg.ctype.variant ≠ .mbc2 := by
      rw [(Regs.variant_of_fit hf).2.2.1 r hr]
      decide
    exact ⟨window_in_ram _ a hne hu, fun hv => absurd hv hne⟩
  · rename_i reg k htar
    obtain ⟨-, -, hk⟩ := mbc3Target_rtc htar
    refine does_writeRegs hc (fun hf => ?_) h
    rw [hr] at hf
    exact Regs.fit_mbc3 hf (by rw [liveClock_some hk]; rfl)
  · exact does_done h

theorem does_execMbc3RdRam {a : Addr} (h : execMbc3RdRam a s = .next t) : Does s t := by
  obtain ⟨c, r, -, -, h⟩ := onMbc3_next h
  split at h <;> exact does_respond h

theorem does_execMbc3WrLatch {a : Addr} {v : Byte} (h : execMbc3WrLatch a v s = .next t) : Does s t := by
  obtain ⟨c, r, hc, hr, h⟩ := onMbc3_next h
  split at h
  · rename_i k hk
    refine does_writeRegs hc (fun hf => ?_) h
    rw [hr] at hf
    exact Regs.fit_mbc3 hf (by rw [liveClock_some hk]; rfl)
  · refine does_writeRegs hc (fun hf => ?_) h
    rw [hr] at hf
    exact Regs.fit_mbc3 hf rfl

/-- The tick: the live file of a loaded MBC3 with a timer advances, and nothing else. -/
theorem execMbc3RtcTick_next (h : execMbc3RtcTick s = .next t) :
    ∃ c r k, s.cart = some c ∧ c.regs = .mbc3 r ∧ liveClock c r = some k ∧
      t = { s with
        cart := some { c with regs := .mbc3 { r with clock := some { k with rtc := rtcTick k.rtc } } }
        response := none } := by
  unfold execMbc3RtcTick at h
  split at h
  · cases h
  · rename_i c hc
    split at h
    · rename_i r hr
      split at h
      · rename_i k hk
        cases h
        exact ⟨c, r, k, hc, hr, hk, rfl⟩
      · cases h
    all_goals cases h

theorem does_execMbc3RtcTick (h : execMbc3RtcTick s = .next t) : Does s t := by
  obtain ⟨c, r, k, hc, hr, hk, rfl⟩ := execMbc3RtcTick_next h
  refine ⟨rfl, rfl, .regs c _ hc rfl rfl (fun hf => ?_)⟩
  rw [hr] at hf
  exact Regs.fit_mbc3 hf (by rw [liveClock_some hk]; rfl)

/-- Everything an operation can do. -/
theorem exec_does {i : Instr} (h : exec i s = .next t) : Does s t := by
  cases i with
  | asRdWram a =>
    obtain ⟨c, -, h⟩ := withCart_next h
    exact does_respond h
  | asWrWram a v =>
    obtain ⟨c, -, h⟩ := withCart_next h
    cases h
    exact ⟨rfl, rfl, .wram a v rfl rfl⟩
  | asRdUnmapped8000 a => exact does_readUnmapped h
  | asRdUnmappedE000 a => exact does_readUnmapped h
  | asWrUnmapped8000 a v => exact does_writeUnmapped h
  | asWrUnmappedE000 a v => exact does_writeUnmapped h
  | romRdRom0 a | romRdRomx a | romRdRam a =>
    obtain ⟨c, -, -, h⟩ := onRomOnly_next h
    exact does_respond h
  | romWrRam a v | romWrRom a v =>
    obtain ⟨c, -, -, h⟩ := onRomOnly_next h
    exact does_done h
  | mbc1RdRom0 a | mbc1RdRomx a =>
    obtain ⟨c, r, -, -, h⟩ := onMbc1_next h
    exact does_respond h
  | mbc1RdRam a =>
    obtain ⟨c, r, -, -, h⟩ := onMbc1_next h
    split at h <;> exact does_respond h
  | mbc1WrRam a v => exact does_execMbc1WrRam h
  | mbc1WrRamen a v | mbc1WrBank1 a v | mbc1WrBank2 a v | mbc1WrMode a v =>
    obtain ⟨c, r, hc, hr, h⟩ := onMbc1_next h
    exact does_writeRegs hc (fun hf => Regs.fit_mbc1 (hr ▸ hf)) h
  | mbc2RdRom0 a | mbc2RdRomx a =>
    obtain ⟨c, r, -, -, h⟩ := onMbc2_next h
    exact does_respond h
  | mbc2RdRam a =>
    obtain ⟨c, r, -, -, h⟩ := onMbc2_next h
    split at h <;> exact does_respond h
  | mbc2WrRam a v => exact does_execMbc2WrRam h
  | mbc2WrRamen a v | mbc2WrRomb a v =>
    obtain ⟨c, r, hc, hr, h⟩ := onMbc2_next h
    exact does_writeRegs hc (fun hf => Regs.fit_mbc2 (hr ▸ hf)) h
  | mbc2WrIgnored a v =>
    obtain ⟨c, r, -, -, h⟩ := onMbc2_next h
    exact does_done h
  | mbc3RdRom0 a | mbc3RdRomx a =>
    obtain ⟨c, r, -, -, h⟩ := onMbc3_next h
    exact does_respond h
  | mbc3RdRam a => exact does_execMbc3RdRam h
  | mbc3WrRam a v => exact does_execMbc3WrRam h
  | mbc3WrRamen a v | mbc3WrRomb a v | mbc3WrSel a v =>
    obtain ⟨c, r, hc, hr, h⟩ := onMbc3_next h
    refine does_writeRegs hc (fun hf => ?_) h
    rw [hr] at hf
    exact Regs.fit_mbc3 hf rfl
  | mbc3WrLatch a v => exact does_execMbc3WrLatch (a := a) h
  | mbc5RdRom0 a | mbc5RdRomx a =>
    obtain ⟨c, r, -, -, h⟩ := onMbc5_next h
    exact does_respond h
  | mbc5RdRam a =>
    obtain ⟨c, r, -, -, h⟩ := onMbc5_next h
    split at h <;> exact does_respond h
  | mbc5WrRam a v => exact does_execMbc5WrRam h
  | mbc5WrRamen a v | mbc5WrRombLo a v | mbc5WrRombHi a v | mbc5WrRamb a v =>
    obtain ⟨c, r, hc, hr, h⟩ := onMbc5_next h
    exact does_writeRegs hc (fun hf => Regs.fit_mbc5 (hr ▸ hf)) h
  | mbc5WrIgnored a v =>
    obtain ⟨c, r, -, -, h⟩ := onMbc5_next h
    exact does_done h
  | load bytes checkLogo => exact does_execLoad h
  | mbc3RtcTick => exact does_execMbc3RtcTick h

end Sys2Proof.Machine
end

