-- ==== Sys2Proof/Laws/Memory.lean ====
section
/-! SUPPORT. Byte storage: reading after writing, and that every operation keeps the canonical form, the bound and
whatever holds of every entry. -/

namespace Sys2Proof.Machine.Memory
variable {base : Nat → Byte}

theorem read_below {m : Memory} {lo o : Nat} (h : m.wfFrom base lo) (ho : o < lo) : m.read base o = base o := by
  induction m generalizing lo with
  | nil => rfl
  | cons e rest ih =>
    obtain ⟨k, b⟩ := e
    simp only [wfFrom, Bool.and_eq_true, Nat.ble_eq, bne_iff_ne] at h
    have hne : o ≠ k := by omega
    simp only [read, hne, if_false]
    exact ih h.2 (by omega)

/-- A canonical list is canonical from any lower offset on. -/
theorem wfFrom_mono {m : Memory} {lo lo' : Nat} (h : m.wfFrom base lo) (hle : lo' ≤ lo) : m.wfFrom base lo' := by
  cases m with
  | nil => rfl
  | cons e rest =>
    simp only [wfFrom, Bool.and_eq_true, Nat.ble_eq, bne_iff_ne] at h ⊢
    exact ⟨⟨by omega, h.1.2⟩, h.2⟩

/-- A write keeps the canonical form. -/
theorem wfFrom_write {m : Memory} {lo o : Nat} {v : Byte} (h : m.wfFrom base lo) (ho : lo ≤ o) :
    (m.write base o v).wfFrom base lo := by
  induction m generalizing lo with
  | nil =>
    unfold write
    split <;> simp_all [wfFrom]
  | cons e rest ih =>
    obtain ⟨k, b⟩ := e
    have h' := h
    simp only [wfFrom, Bool.and_eq_true, Nat.ble_eq, bne_iff_ne] at h
    obtain ⟨⟨hk, hb⟩, hrest⟩ := h
    unfold write
    split
    · split
      · exact h'
      · rename_i hlt hne
        simp only [wfFrom, Bool.and_eq_true, Nat.ble_eq, bne_iff_ne]
        exact ⟨⟨ho, hne⟩, ⟨by omega, hb⟩, hrest⟩
    · split
      · split
        · exact wfFrom_mono hrest (by omega)
        · rename_i heq hne
          subst heq
          simp only [wfFrom, Bool.and_eq_true, Nat.ble_eq, bne_iff_ne]
          exact ⟨⟨hk, hne⟩, hrest⟩
      · simp only [wfFrom, Bool.and_eq_true, Nat.ble_eq, bne_iff_ne]
        exact ⟨⟨hk, hb⟩, ih hrest (by omega)⟩

theorem wf_write {m : Memory} {o : Nat} {v : Byte} (h : m.wf base) : (m.write base o v).wf base :=
  wfFrom_write h (Nat.zero_le o)

/-- Reading the offset just written gives the value written. -/
theorem read_write_same {m : Memory} {lo o : Nat} {v : Byte} (h : m.wfFrom base lo) :
    (m.write base o v).read base o = v := by
  induction m generalizing lo with
  | nil =>
    unfold write
    split <;> simp_all [read]
  | cons e rest ih =>
    obtain ⟨k, b⟩ := e
    have h' := h
    simp only [wfFrom, Bool.and_eq_true, Nat.ble_eq, bne_iff_ne] at h
    obtain ⟨⟨hk, hb⟩, hrest⟩ := h
    unfold write
    split
    · rename_i hlt
      split
      · rename_i hv
        have hne : o ≠ k := by omega
        simp only [read, hne, if_false, hv]
        exact read_below hrest (by omega)
      · simp [read]
    · split
      · split
        · rename_i heq hv
          rw [hv]
          exact read_below hrest (by omega)
        · simp [read]
      · rename_i hne
        simp only [read, hne, if_false]
        exact ih hrest

/-- A write leaves every other offset alone. -/
theorem read_write_other {m : Memory} {lo o p : Nat} {v : Byte} (h : m.wfFrom base lo) (hp : p ≠ o) :
    (m.write base o v).read base p = m.read base p := by
  induction m generalizing lo with
  | nil =>
    unfold write
    split <;> simp [read, hp]
  | cons e rest ih =>
    obtain ⟨k, b⟩ := e
    simp only [wfFrom, Bool.and_eq_true, Nat.ble_eq, bne_iff_ne] at h
    obtain ⟨⟨hk, hb⟩, hrest⟩ := h
    unfold write
    split
    · split
      · rfl
      · simp [read, hp]
    · split
      · rename_i heq
        subst heq
        split
        · simp [read, hp]
        · simp [read, hp]
      · simp only [read]
        rw [ih hrest]

/-- Whatever holds of every entry and of the entry written holds of every entry after the write. -/
theorem all_write {m : Memory} {o : Nat} {v : Byte} {q : Host.Cell → Bool} (h : m.all q) (hv : q (o, v)) :
    (m.write base o v).all q := by
  induction m with
  | nil =>
    unfold write
    split
    · rfl
    · simp only [List.all_cons, List.all_nil, Bool.and_true, hv]
  | cons e rest ih =>
    obtain ⟨k, b⟩ := e
    have h' := h
    simp only [List.all_cons, Bool.and_eq_true] at h
    unfold write
    split
    · split
      · exact h'
      · simp only [List.all_cons, hv, h.1, h.2, Bool.and_true]
    · split
      · split
        · exact h.2
        · simp only [List.all_cons, hv, h.2, Bool.and_true]
      · simp only [List.all_cons, h.1, ih h.2, Bool.and_true]

/-- A write below the bound keeps the bound. -/
theorem below_write {m : Memory} {size o : Nat} {v : Byte} (h : m.below size) (ho : o < size) :
    (m.write base o v).below size :=
  all_write h (by simpa using ho)

/-- Canonical memories that read alike everywhere are the same data. -/
theorem ext_of_read {m n : Memory} {lo : Nat} (hm : m.wfFrom base lo) (hn : n.wfFrom base lo)
    (h : ∀ o, m.read base o = n.read base o) : m = n := by
  induction m generalizing n lo with
  | nil =>
    cases n with
    | nil => rfl
    | cons e rest =>
      obtain ⟨k, b⟩ := e
      simp only [wfFrom, Bool.and_eq_true, bne_iff_ne] at hn
      have := h k
      simp only [read, if_true] at this
      exact absurd this.symm hn.1.2
  | cons e rest ih =>
    obtain ⟨k, b⟩ := e
    cases n with
    | nil =>
      simp only [wfFrom, Bool.and_eq_true, bne_iff_ne] at hm
      have := h k
      simp only [read, if_true] at this
      exact absurd this hm.1.2
    | cons e' rest' =>
      obtain ⟨k', b'⟩ := e'
      simp only [wfFrom, Bool.and_eq_true, Nat.ble_eq, bne_iff_ne] at hm hn
      have hk : k = k' := by
        rcases Nat.lt_trichotomy k k' with hlt | heq | hgt
        · have := h k
          have hne : k ≠ k' := by omega
          simp only [read, if_true, hne, if_false] at this
          rw [read_below hn.2 (by omega)] at this
          exact absurd this hm.1.2
        · exact heq
        · have := h k'
          have hne : k' ≠ k := by omega
          simp only [read, if_true, hne, if_false] at this
          rw [read_below hm.2 (by omega)] at this
          exact absurd this.symm hn.1.2
      subst hk
      have hb : b = b' := by
        have := h k
        simpa [read] using this
      subst hb
      congr 1
      refine ih hm.2 hn.2 fun o => ?_
      by_cases ho : o < k + 1
      · rw [read_below hm.2 ho, read_below hn.2 ho]
      · have := h o
        have hne : o ≠ k := by omega
        simpa [read, hne] using this

/-- The storage built from a byte sequence is canonical over an all-zero base. -/
theorem wfFrom_ofBytesFrom (o : Nat) (bs : List Byte) : (ofBytesFrom o bs).wfFrom unlistedRam o := by
  induction bs generalizing o with
  | nil => rfl
  | cons b bs ih =>
    unfold ofBytesFrom
    split
    · exact wfFrom_mono (ih (o + 1)) (by omega)
    · simp only [wfFrom, Bool.and_eq_true, Nat.ble_eq, bne_iff_ne]
      exact ⟨⟨Nat.le_refl o, by simpa [unlistedRam]⟩, ih (o + 1)⟩

/-- It lists no offset past the bytes it was given. -/
theorem below_ofBytesFrom (o size : Nat) (bs : List Byte) (h : o + bs.length ≤ size) :
    (ofBytesFrom o bs).below size := by
  induction bs generalizing o with
  | nil => rfl
  | cons b bs ih =>
    have hlen : o + 1 + bs.length ≤ size := by simp only [List.length_cons] at h; omega
    unfold ofBytesFrom
    split
    · exact ih (o + 1) hlen
    · simp only [below, List.all_cons, Bool.and_eq_true, Nat.ble_eq]
      exact ⟨by omega, ih (o + 1) hlen⟩

/-- Whatever holds of every byte given holds of every byte listed. -/
theorem all_ofBytesFrom (o : Nat) (bs : List Byte) (p : Byte → Bool) (h : bs.all p) :
    (ofBytesFrom o bs).all (fun e => p e.2) := by
  induction bs generalizing o with
  | nil => rfl
  | cons b bs ih =>
    simp only [List.all_cons, Bool.and_eq_true] at h
    unfold ofBytesFrom
    split
    · exact ih (o + 1) h.2
    · simp only [List.all_cons, Bool.and_eq_true]
      exact ⟨h.1, ih (o + 1) h.2⟩

/-- It holds byte `i` of the sequence at offset `o + i`, and zero past the end. -/
theorem read_ofBytesFrom (o i : Nat) (bs : List Byte) :
    (ofBytesFrom o bs).read unlistedRam (o + i) = bs.getD i 0x00#8 := by
  induction bs generalizing o i with
  | nil => rfl
  | cons b bs ih =>
    cases i with
    | zero =>
      unfold ofBytesFrom
      split
      · rename_i hb
        subst hb
        exact read_below (wfFrom_ofBytesFrom (o + 1) bs) (by omega)
      · simp [read]
    | succ i =>
      have h := ih (o + 1) i
      have hidx : o + 1 + i = o + (i + 1) := by omega
      rw [hidx] at h
      unfold ofBytesFrom
      split
      · simpa using h
      · have hne : o + (i + 1) ≠ o := by omega
        simp only [read, hne, if_false]
        simpa using h

end Sys2Proof.Machine.Memory
end

