-- ==== Sys2Proof/Laws/PerInstr.lean ====
section
/-! SUPPORT. Lemmas stated once per constructor of Instr. `RowHit`: a well-formed bus operation's key matches a row of
the table that serves its variant and builds it. -/

namespace Sys2Proof.Laws.RowHit

/-- A well-formed bus operation has a row: of its variant, matching its key, and building it. -/
def Statement (i : Instr) : Prop :=
  i.wellFormed = true → ∀ t, i.transaction = some t →
    ∃ r ∈ rows, r.variant = i.variant ∧ t.key &&& r.mask = r.bits ∧ r.build t.addr t.data = i

theorem asRdWram (a : Addr) : Statement (.asRdWram a) := by
  intro h t ht
  cases ht
  simp only [Instr.wellFormed, Bool.and_eq_true, Addr.within, Nat.ble_eq] at h
  refine ⟨⟨none, 0x1E000#17, 0x0C000#17, fun a _ => .asRdWram a⟩,
    mem_rows_addressSpace (by repeat (first | exact List.mem_cons_self | apply List.mem_cons_of_mem)), rfl, ?_, rfl⟩
  exact (Mask.and_13 (by decide)).2 (by rw [Transaction.toNat_key_rd]; simp only [BitVec.toNat_ofNat]; omega)

theorem asWrWram (a : Addr) (v : Byte) : Statement (.asWrWram a v) := by
  intro h t ht
  cases ht
  simp only [Instr.wellFormed, Bool.and_eq_true, Addr.within, Nat.ble_eq] at h
  refine ⟨⟨none, 0x1E000#17, 0x1C000#17, Instr.asWrWram⟩,
    mem_rows_addressSpace (by repeat (first | exact List.mem_cons_self | apply List.mem_cons_of_mem)), rfl, ?_, rfl⟩
  exact (Mask.and_13 (by decide)).2 (by rw [Transaction.toNat_key_wr]; simp only [BitVec.toNat_ofNat]; omega)

theorem asRdUnmapped8000 (a : Addr) : Statement (.asRdUnmapped8000 a) := by
  intro h t ht
  cases ht
  simp only [Instr.wellFormed, Bool.and_eq_true, Addr.within, Nat.ble_eq] at h
  refine ⟨⟨none, 0x1E000#17, 0x08000#17, fun a _ => .asRdUnmapped8000 a⟩,
    mem_rows_addressSpace (by repeat (first | exact List.mem_cons_self | apply List.mem_cons_of_mem)), rfl, ?_, rfl⟩
  exact (Mask.and_13 (by decide)).2 (by rw [Transaction.toNat_key_rd]; simp only [BitVec.toNat_ofNat]; omega)

theorem asRdUnmappedE000 (a : Addr) : Statement (.asRdUnmappedE000 a) := by
  intro h t ht
  cases ht
  simp only [Instr.wellFormed, Bool.and_eq_true, Addr.within, Nat.ble_eq] at h
  refine ⟨⟨none, 0x1E000#17, 0x0E000#17, fun a _ => .asRdUnmappedE000 a⟩,
    mem_rows_addressSpace (by repeat (first | exact List.mem_cons_self | apply List.mem_cons_of_mem)), rfl, ?_, rfl⟩
  exact (Mask.and_13 (by decide)).2 (by rw [Transaction.toNat_key_rd]; simp only [BitVec.toNat_ofNat]; omega)

theorem asWrUnmapped8000 (a : Addr) (v : Byte) : Statement (.asWrUnmapped8000 a v) := by
  intro h t ht
  cases ht
  simp only [Instr.wellFormed, Bool.and_eq_true, Addr.within, Nat.ble_eq] at h
  refine ⟨⟨none, 0x1E000#17, 0x18000#17, Instr.asWrUnmapped8000⟩,
    mem_rows_addressSpace (by repeat (first | exact List.mem_cons_self | apply List.mem_cons_of_mem)), rfl, ?_, rfl⟩
  exact (Mask.and_13 (by decide)).2 (by rw [Transaction.toNat_key_wr]; simp only [BitVec.toNat_ofNat]; omega)

theorem asWrUnmappedE000 (a : Addr) (v : Byte) : Statement (.asWrUnmappedE000 a v) := by
  intro h t ht
  cases ht
  simp only [Instr.wellFormed, Bool.and_eq_true, Addr.within, Nat.ble_eq] at h
  refine ⟨⟨none, 0x1E000#17, 0x1E000#17, Instr.asWrUnmappedE000⟩,
    mem_rows_addressSpace (by repeat (first | exact List.mem_cons_self | apply List.mem_cons_of_mem)), rfl, ?_, rfl⟩
  exact (Mask.and_13 (by decide)).2 (by rw [Transaction.toNat_key_wr]; simp only [BitVec.toNat_ofNat]; omega)

theorem romRdRom0 (a : Addr) : Statement (.romRdRom0 a) := by
  intro h t ht
  cases ht
  simp only [Instr.wellFormed, Bool.and_eq_true, Addr.within, Nat.ble_eq] at h
  refine ⟨⟨some .romOnly, 0x1C000#17, 0x00000#17, fun a _ => .romRdRom0 a⟩,
    mem_rows_romOnly (by repeat (first | exact List.mem_cons_self | apply List.mem_cons_of_mem)), rfl, ?_, rfl⟩
  exact (Mask.and_14 (by decide)).2 (by rw [Transaction.toNat_key_rd]; simp only [BitVec.toNat_ofNat]; omega)

theorem romRdRomx (a : Addr) : Statement (.romRdRomx a) := by
  intro h t ht
  cases ht
  simp only [Instr.wellFormed, Bool.and_eq_true, Addr.within, Nat.ble_eq] at h
  refine ⟨⟨some .romOnly, 0x1C000#17, 0x04000#17, fun a _ => .romRdRomx a⟩,
    mem_rows_romOnly (by repeat (first | exact List.mem_cons_self | apply List.mem_cons_of_mem)), rfl, ?_, rfl⟩
  exact (Mask.and_14 (by decide)).2 (by rw [Transaction.toNat_key_rd]; simp only [BitVec.toNat_ofNat]; omega)

theorem romRdRam (a : Addr) : Statement (.romRdRam a) := by
  intro h t ht
  cases ht
  simp only [Instr.wellFormed, Bool.and_eq_true, Addr.within, Nat.ble_eq] at h
  refine ⟨⟨some .romOnly, 0x1E000#17, 0x0A000#17, fun a _ => .romRdRam a⟩,
    mem_rows_romOnly (by repeat (first | exact List.mem_cons_self | apply List.mem_cons_of_mem)), rfl, ?_, rfl⟩
  exact (Mask.and_13 (by decide)).2 (by rw [Transaction.toNat_key_rd]; simp only [BitVec.toNat_ofNat]; omega)

theorem romWrRam (a : Addr) (v : Byte) : Statement (.romWrRam a v) := by
  intro h t ht
  cases ht
  simp only [Instr.wellFormed, Bool.and_eq_true, Addr.within, Nat.ble_eq] at h
  refine ⟨⟨some .romOnly, 0x1E000#17, 0x1A000#17, Instr.romWrRam⟩,
    mem_rows_romOnly (by repeat (first | exact List.mem_cons_self | apply List.mem_cons_of_mem)), rfl, ?_, rfl⟩
  exact (Mask.and_13 (by decide)).2 (by rw [Transaction.toNat_key_wr]; simp only [BitVec.toNat_ofNat]; omega)

theorem romWrRom (a : Addr) (v : Byte) : Statement (.romWrRom a v) := by
  intro h t ht
  cases ht
  simp only [Instr.wellFormed, Bool.and_eq_true, Addr.within, Nat.ble_eq] at h
  refine ⟨⟨some .romOnly, 0x18000#17, 0x10000#17, Instr.romWrRom⟩,
    mem_rows_romOnly (by repeat (first | exact List.mem_cons_self | apply List.mem_cons_of_mem)), rfl, ?_, rfl⟩
  exact (Mask.and_15 (by decide)).2 (by rw [Transaction.toNat_key_wr]; simp only [BitVec.toNat_ofNat]; omega)

theorem mbc1RdRom0 (a : Addr) : Statement (.mbc1RdRom0 a) := by
  intro h t ht
  cases ht
  simp only [Instr.wellFormed, Bool.and_eq_true, Addr.within, Nat.ble_eq] at h
  refine ⟨⟨some .mbc1, 0x1C000#17, 0x00000#17, fun a _ => .mbc1RdRom0 a⟩,
    mem_rows_mbc1 (by repeat (first | exact List.mem_cons_self | apply List.mem_cons_of_mem)), rfl, ?_, rfl⟩
  exact (Mask.and_14 (by decide)).2 (by rw [Transaction.toNat_key_rd]; simp only [BitVec.toNat_ofNat]; omega)

theorem mbc1RdRomx (a : Addr) : Statement (.mbc1RdRomx a) := by
  intro h t ht
  cases ht
  simp only [Instr.wellFormed, Bool.and_eq_true, Addr.within, Nat.ble_eq] at h
  refine ⟨⟨some .mbc1, 0x1C000#17, 0x04000#17, fun a _ => .mbc1RdRomx a⟩,
    mem_rows_mbc1 (by repeat (first | exact List.mem_cons_self | apply List.mem_cons_of_mem)), rfl, ?_, rfl⟩
  exact (Mask.and_14 (by decide)).2 (by rw [Transaction.toNat_key_rd]; simp only [BitVec.toNat_ofNat]; omega)

theorem mbc1RdRam (a : Addr) : Statement (.mbc1RdRam a) := by
  intro h t ht
  cases ht
  simp only [Instr.wellFormed, Bool.and_eq_true, Addr.within, Nat.ble_eq] at h
  refine ⟨⟨some .mbc1, 0x1E000#17, 0x0A000#17, fun a _ => .mbc1RdRam a⟩,
    mem_rows_mbc1 (by repeat (first | exact List.mem_cons_self | apply List.mem_cons_of_mem)), rfl, ?_, rfl⟩
  exact (Mask.and_13 (by decide)).2 (by rw [Transaction.toNat_key_rd]; simp only [BitVec.toNat_ofNat]; omega)

theorem mbc1WrRam (a : Addr) (v : Byte) : Statement (.mbc1WrRam a v) := by
  intro h t ht
  cases ht
  simp only [Instr.wellFormed, Bool.and_eq_true, Addr.within, Nat.ble_eq] at h
  refine ⟨⟨some .mbc1, 0x1E000#17, 0x1A000#17, Instr.mbc1WrRam⟩,
    mem_rows_mbc1 (by repeat (first | exact List.mem_cons_self | apply List.mem_cons_of_mem)), rfl, ?_, rfl⟩
  exact (Mask.and_13 (by decide)).2 (by rw [Transaction.toNat_key_wr]; simp only [BitVec.toNat_ofNat]; omega)

theorem mbc1WrRamen (a : Addr) (v : Byte) : Statement (.mbc1WrRamen a v) := by
  intro h t ht
  cases ht
  simp only [Instr.wellFormed, Bool.and_eq_true, Addr.within, Nat.ble_eq] at h
  refine ⟨⟨some .mbc1, 0x1E000#17, 0x10000#17, Instr.mbc1WrRamen⟩,
    mem_rows_mbc1 (by repeat (first | exact List.mem_cons_self | apply List.mem_cons_of_mem)), rfl, ?_, rfl⟩
  exact (Mask.and_13 (by decide)).2 (by rw [Transaction.toNat_key_wr]; simp only [BitVec.toNat_ofNat]; omega)

theorem mbc1WrBank1 (a : Addr) (v : Byte) : Statement (.mbc1WrBank1 a v) := by
  intro h t ht
  cases ht
  simp only [Instr.wellFormed, Bool.and_eq_true, Addr.within, Nat.ble_eq] at h
  refine ⟨⟨some .mbc1, 0x1E000#17, 0x12000#17, Instr.mbc1WrBank1⟩,
    mem_rows_mbc1 (by repeat (first | exact List.mem_cons_self | apply List.mem_cons_of_mem)), rfl, ?_, rfl⟩
  exact (Mask.and_13 (by decide)).2 (by rw [Transaction.toNat_key_wr]; simp only [BitVec.toNat_ofNat]; omega)

theorem mbc1WrBank2 (a : Addr) (v : Byte) : Statement (.mbc1WrBank2 a v) := by
  intro h t ht
  cases ht
  simp only [Instr.wellFormed, Bool.and_eq_true, Addr.within, Nat.ble_eq] at h
  refine ⟨⟨some .mbc1, 0x1E000#17, 0x14000#17, Instr.mbc1WrBank2⟩,
    mem_rows_mbc1 (by repeat (first | exact List.mem_cons_self | apply List.mem_cons_of_mem)), rfl, ?_, rfl⟩
  exact (Mask.and_13 (by decide)).2 (by rw [Transaction.toNat_key_wr]; simp only [BitVec.toNat_ofNat]; omega)

theorem mbc1WrMode (a : Addr) (v : Byte) : Statement (.mbc1WrMode a v) := by
  intro h t ht
  cases ht
  simp only [Instr.wellFormed, Bool.and_eq_true, Addr.within, Nat.ble_eq] at h
  refine ⟨⟨some .mbc1, 0x1E000#17, 0x16000#17, Instr.mbc1WrMode⟩,
    mem_rows_mbc1 (by repeat (first | exact List.mem_cons_self | apply List.mem_cons_of_mem)), rfl, ?_, rfl⟩
  exact (Mask.and_13 (by decide)).2 (by rw [Transaction.toNat_key_wr]; simp only [BitVec.toNat_ofNat]; omega)

theorem mbc2RdRom0 (a : Addr) : Statement (.mbc2RdRom0 a) := by
  intro h t ht
  cases ht
  simp only [Instr.wellFormed, Bool.and_eq_true, Addr.within, Nat.ble_eq] at h
  refine ⟨⟨some .mbc2, 0x1C000#17, 0x00000#17, fun a _ => .mbc2RdRom0 a⟩,
    mem_rows_mbc2 (by repeat (first | exact List.mem_cons_self | apply List.mem_cons_of_mem)), rfl, ?_, rfl⟩
  exact (Mask.and_14 (by decide)).2 (by rw [Transaction.toNat_key_rd]; simp only [BitVec.toNat_ofNat]; omega)

theorem mbc2RdRomx (a : Addr) : Statement (.mbc2RdRomx a) := by
  intro h t ht
  cases ht
  simp only [Instr.wellFormed, Bool.and_eq_true, Addr.within, Nat.ble_eq] at h
  refine ⟨⟨some .mbc2, 0x1C000#17, 0x04000#17, fun a _ => .mbc2RdRomx a⟩,
    mem_rows_mbc2 (by repeat (first | exact List.mem_cons_self | apply List.mem_cons_of_mem)), rfl, ?_, rfl⟩
  exact (Mask.and_14 (by decide)).2 (by rw [Transaction.toNat_key_rd]; simp only [BitVec.toNat_ofNat]; omega)

theorem mbc2RdRam (a : Addr) : Statement (.mbc2RdRam a) := by
  intro h t ht
  cases ht
  simp only [Instr.wellFormed, Bool.and_eq_true, Addr.within, Nat.ble_eq] at h
  refine ⟨⟨some .mbc2, 0x1E000#17, 0x0A000#17, fun a _ => .mbc2RdRam a⟩,
    mem_rows_mbc2 (by repeat (first | exact List.mem_cons_self | apply List.mem_cons_of_mem)), rfl, ?_, rfl⟩
  exact (Mask.and_13 (by decide)).2 (by rw [Transaction.toNat_key_rd]; simp only [BitVec.toNat_ofNat]; omega)

theorem mbc2WrRam (a : Addr) (v : Byte) : Statement (.mbc2WrRam a v) := by
  intro h t ht
  cases ht
  simp only [Instr.wellFormed, Bool.and_eq_true, Addr.within, Nat.ble_eq] at h
  refine ⟨⟨some .mbc2, 0x1E000#17, 0x1A000#17, Instr.mbc2WrRam⟩,
    mem_rows_mbc2 (by repeat (first | exact List.mem_cons_self | apply List.mem_cons_of_mem)), rfl, ?_, rfl⟩
  exact (Mask.and_13 (by decide)).2 (by rw [Transaction.toNat_key_wr]; simp only [BitVec.toNat_ofNat]; omega)

theorem mbc2WrRamen (a : Addr) (v : Byte) : Statement (.mbc2WrRamen a v) := by
  intro h t ht
  cases ht
  simp only [Instr.wellFormed, Bool.and_eq_true, Addr.within, Nat.ble_eq] at h
  refine ⟨⟨some .mbc2, 0x1C100#17, 0x10000#17, Instr.mbc2WrRamen⟩,
    mem_rows_mbc2 (by repeat (first | exact List.mem_cons_self | apply List.mem_cons_of_mem)), rfl, ?_, rfl⟩
  exact (Mask.and_split_clear (by rw [Transaction.toNat_key_wr]; omega) (by rw [Transaction.getLsbD_key_wr]; simpa using h.2))

theorem mbc2WrRomb (a : Addr) (v : Byte) : Statement (.mbc2WrRomb a v) := by
  intro h t ht
  cases ht
  simp only [Instr.wellFormed, Bool.and_eq_true, Addr.within, Nat.ble_eq] at h
  refine ⟨⟨some .mbc2, 0x1C100#17, 0x10100#17, Instr.mbc2WrRomb⟩,
    mem_rows_mbc2 (by repeat (first | exact List.mem_cons_self | apply List.mem_cons_of_mem)), rfl, ?_, rfl⟩
  exact (Mask.and_split_set (by rw [Transaction.toNat_key_wr]; omega) (by rw [Transaction.getLsbD_key_wr]; simpa using h.2))

theorem mbc2WrIgnored (a : Addr) (v : Byte) : Statement (.mbc2WrIgnored a v) := by
  intro h t ht
  cases ht
  simp only [Instr.wellFormed, Bool.and_eq_true, Addr.within, Nat.ble_eq] at h
  refine ⟨⟨some .mbc2, 0x1C000#17, 0x14000#17, Instr.mbc2WrIgnored⟩,
    mem_rows_mbc2 (by repeat (first | exact List.mem_cons_self | apply List.mem_cons_of_mem)), rfl, ?_, rfl⟩
  exact (Mask.and_14 (by decide)).2 (by rw [Transaction.toNat_key_wr]; simp only [BitVec.toNat_ofNat]; omega)

theorem mbc3RdRom0 (a : Addr) : Statement (.mbc3RdRom0 a) := by
  intro h t ht
  cases ht
  simp only [Instr.wellFormed, Bool.and_eq_true, Addr.within, Nat.ble_eq] at h
  refine ⟨⟨some .mbc3, 0x1C000#17, 0x00000#17, fun a _ => .mbc3RdRom0 a⟩,
    mem_rows_mbc3 (by repeat (first | exact List.mem_cons_self | apply List.mem_cons_of_mem)), rfl, ?_, rfl⟩
  exact (Mask.and_14 (by decide)).2 (by rw [Transaction.toNat_key_rd]; simp only [BitVec.toNat_ofNat]; omega)

theorem mbc3RdRomx (a : Addr) : Statement (.mbc3RdRomx a) := by
  intro h t ht
  cases ht
  simp only [Instr.wellFormed, Bool.and_eq_true, Addr.within, Nat.ble_eq] at h
  refine ⟨⟨some .mbc3, 0x1C000#17, 0x04000#17, fun a _ => .mbc3RdRomx a⟩,
    mem_rows_mbc3 (by repeat (first | exact List.mem_cons_self | apply List.mem_cons_of_mem)), rfl, ?_, rfl⟩
  exact (Mask.and_14 (by decide)).2 (by rw [Transaction.toNat_key_rd]; simp only [BitVec.toNat_ofNat]; omega)

theorem mbc3RdRam (a : Addr) : Statement (.mbc3RdRam a) := by
  intro h t ht
  cases ht
  simp only [Instr.wellFormed, Bool.and_eq_true, Addr.within, Nat.ble_eq] at h
  refine ⟨⟨some .mbc3, 0x1E000#17, 0x0A000#17, fun a _ => .mbc3RdRam a⟩,
    mem_rows_mbc3 (by repeat (first | exact List.mem_cons_self | apply List.mem_cons_of_mem)), rfl, ?_, rfl⟩
  exact (Mask.and_13 (by decide)).2 (by rw [Transaction.toNat_key_rd]; simp only [BitVec.toNat_ofNat]; omega)

theorem mbc3WrRam (a : Addr) (v : Byte) : Statement (.mbc3WrRam a v) := by
  intro h t ht
  cases ht
  simp only [Instr.wellFormed, Bool.and_eq_true, Addr.within, Nat.ble_eq] at h
  refine ⟨⟨some .mbc3, 0x1E000#17, 0x1A000#17, Instr.mbc3WrRam⟩,
    mem_rows_mbc3 (by repeat (first | exact List.mem_cons_self | apply List.mem_cons_of_mem)), rfl, ?_, rfl⟩
  exact (Mask.and_13 (by decide)).2 (by rw [Transaction.toNat_key_wr]; simp only [BitVec.toNat_ofNat]; omega)

theorem mbc3WrRamen (a : Addr) (v : Byte) : Statement (.mbc3WrRamen a v) := by
  intro h t ht
  cases ht
  simp only [Instr.wellFormed, Bool.and_eq_true, Addr.within, Nat.ble_eq] at h
  refine ⟨⟨some .mbc3, 0x1E000#17, 0x10000#17, Instr.mbc3WrRamen⟩,
    mem_rows_mbc3 (by repeat (first | exact List.mem_cons_self | apply List.mem_cons_of_mem)), rfl, ?_, rfl⟩
  exact (Mask.and_13 (by decide)).2 (by rw [Transaction.toNat_key_wr]; simp only [BitVec.toNat_ofNat]; omega)

theorem mbc3WrRomb (a : Addr) (v : Byte) : Statement (.mbc3WrRomb a v) := by
  intro h t ht
  cases ht
  simp only [Instr.wellFormed, Bool.and_eq_true, Addr.within, Nat.ble_eq] at h
  refine ⟨⟨some .mbc3, 0x1E000#17, 0x12000#17, Instr.mbc3WrRomb⟩,
    mem_rows_mbc3 (by repeat (first | exact List.mem_cons_self | apply List.mem_cons_of_mem)), rfl, ?_, rfl⟩
  exact (Mask.and_13 (by decide)).2 (by rw [Transaction.toNat_key_wr]; simp only [BitVec.toNat_ofNat]; omega)

theorem mbc3WrSel (a : Addr) (v : Byte) : Statement (.mbc3WrSel a v) := by
  intro h t ht
  cases ht
  simp only [Instr.wellFormed, Bool.and_eq_true, Addr.within, Nat.ble_eq] at h
  refine ⟨⟨some .mbc3, 0x1E000#17, 0x14000#17, Instr.mbc3WrSel⟩,
    mem_rows_mbc3 (by repeat (first | exact List.mem_cons_self | apply List.mem_cons_of_mem)), rfl, ?_, rfl⟩
  exact (Mask.and_13 (by decide)).2 (by rw [Transaction.toNat_key_wr]; simp only [BitVec.toNat_ofNat]; omega)

theorem mbc3WrLatch (a : Addr) (v : Byte) : Statement (.mbc3WrLatch a v) := by
  intro h t ht
  cases ht
  simp only [Instr.wellFormed, Bool.and_eq_true, Addr.within, Nat.ble_eq] at h
  refine ⟨⟨some .mbc3, 0x1E000#17, 0x16000#17, Instr.mbc3WrLatch⟩,
    mem_rows_mbc3 (by repeat (first | exact List.mem_cons_self | apply List.mem_cons_of_mem)), rfl, ?_, rfl⟩
  exact (Mask.and_13 (by decide)).2 (by rw [Transaction.toNat_key_wr]; simp only [BitVec.toNat_ofNat]; omega)

theorem mbc5RdRom0 (a : Addr) : Statement (.mbc5RdRom0 a) := by
  intro h t ht
  cases ht
  simp only [Instr.wellFormed, Bool.and_eq_true, Addr.within, Nat.ble_eq] at h
  refine ⟨⟨some .mbc5, 0x1C000#17, 0x00000#17, fun a _ => .mbc5RdRom0 a⟩,
    mem_rows_mbc5 (by repeat (first | exact List.mem_cons_self | apply List.mem_cons_of_mem)), rfl, ?_, rfl⟩
  exact (Mask.and_14 (by decide)).2 (by rw [Transaction.toNat_key_rd]; simp only [BitVec.toNat_ofNat]; omega)

theorem mbc5RdRomx (a : Addr) : Statement (.mbc5RdRomx a) := by
  intro h t ht
  cases ht
  simp only [Instr.wellFormed, Bool.and_eq_true, Addr.within, Nat.ble_eq] at h
  refine ⟨⟨some .mbc5, 0x1C000#17, 0x04000#17, fun a _ => .mbc5RdRomx a⟩,
    mem_rows_mbc5 (by repeat (first | exact List.mem_cons_self | apply List.mem_cons_of_mem)), rfl, ?_, rfl⟩
  exact (Mask.and_14 (by decide)).2 (by rw [Transaction.toNat_key_rd]; simp only [BitVec.toNat_ofNat]; omega)

theorem mbc5RdRam (a : Addr) : Statement (.mbc5RdRam a) := by
  intro h t ht
  cases ht
  simp only [Instr.wellFormed, Bool.and_eq_true, Addr.within, Nat.ble_eq] at h
  refine ⟨⟨some .mbc5, 0x1E000#17, 0x0A000#17, fun a _ => .mbc5RdRam a⟩,
    mem_rows_mbc5 (by repeat (first | exact List.mem_cons_self | apply List.mem_cons_of_mem)), rfl, ?_, rfl⟩
  exact (Mask.and_13 (by decide)).2 (by rw [Transaction.toNat_key_rd]; simp only [BitVec.toNat_ofNat]; omega)

theorem mbc5WrRam (a : Addr) (v : Byte) : Statement (.mbc5WrRam a v) := by
  intro h t ht
  cases ht
  simp only [Instr.wellFormed, Bool.and_eq_true, Addr.within, Nat.ble_eq] at h
  refine ⟨⟨some .mbc5, 0x1E000#17, 0x1A000#17, Instr.mbc5WrRam⟩,
    mem_rows_mbc5 (by repeat (first | exact List.mem_cons_self | apply List.mem_cons_of_mem)), rfl, ?_, rfl⟩
  exact (Mask.and_13 (by decide)).2 (by rw [Transaction.toNat_key_wr]; simp only [BitVec.toNat_ofNat]; omega)

theorem mbc5WrRamen (a : Addr) (v : Byte) : Statement (.mbc5WrRamen a v) := by
  intro h t ht
  cases ht
  simp only [Instr.wellFormed, Bool.and_eq_true, Addr.within, Nat.ble_eq] at h
  refine ⟨⟨some .mbc5, 0x1E000#17, 0x10000#17, Instr.mbc5WrRamen⟩,
    mem_rows_mbc5 (by repeat (first | exact List.mem_cons_self | apply List.mem_cons_of_mem)), rfl, ?_, rfl⟩
  exact (Mask.and_13 (by decide)).2 (by rw [Transaction.toNat_key_wr]; simp only [BitVec.toNat_ofNat]; omega)

theorem mbc5WrRombLo (a : Addr) (v : Byte) : Statement (.mbc5WrRombLo a v) := by
  intro h t ht
  cases ht
  simp only [Instr.wellFormed, Bool.and_eq_true, Addr.within, Nat.ble_eq] at h
  refine ⟨⟨some .mbc5, 0x1F000#17, 0x12000#17, Instr.mbc5WrRombLo⟩,
    mem_rows_mbc5 (by repeat (first | exact List.mem_cons_self | apply List.mem_cons_of_mem)), rfl, ?_, rfl⟩
  exact (Mask.and_12 (by decide)).2 (by rw [Transaction.toNat_key_wr]; simp only [BitVec.toNat_ofNat]; omega)

theorem mbc5WrRombHi (a : Addr) (v : Byte) : Statement (.mbc5WrRombHi a v) := by
  intro h t ht
  cases ht
  simp only [Instr.wellFormed, Bool.and_eq_true, Addr.within, Nat.ble_eq] at h
  refine ⟨⟨some .mbc5, 0x1F000#17, 0x13000#17, Instr.mbc5WrRombHi⟩,
    mem_rows_mbc5 (by repeat (first | exact List.mem_cons_self | apply List.mem_cons_of_mem)), rfl, ?_, rfl⟩
  exact (Mask.and_12 (by decide)).2 (by rw [Transaction.toNat_key_wr]; simp only [BitVec.toNat_ofNat]; omega)

theorem mbc5WrRamb (a : Addr) (v : Byte) : Statement (.mbc5WrRamb a v) := by
  intro h t ht
  cases ht
  simp only [Instr.wellFormed, Bool.and_eq_true, Addr.within, Nat.ble_eq] at h
  refine ⟨⟨some .mbc5, 0x1E000#17, 0x14000#17, Instr.mbc5WrRamb⟩,
    mem_rows_mbc5 (by repeat (first | exact List.mem_cons_self | apply List.mem_cons_of_mem)), rfl, ?_, rfl⟩
  exact (Mask.and_13 (by decide)).2 (by rw [Transaction.toNat_key_wr]; simp only [BitVec.toNat_ofNat]; omega)

theorem mbc5WrIgnored (a : Addr) (v : Byte) : Statement (.mbc5WrIgnored a v) := by
  intro h t ht
  cases ht
  simp only [Instr.wellFormed, Bool.and_eq_true, Addr.within, Nat.ble_eq] at h
  refine ⟨⟨some .mbc5, 0x1E000#17, 0x16000#17, Instr.mbc5WrIgnored⟩,
    mem_rows_mbc5 (by repeat (first | exact List.mem_cons_self | apply List.mem_cons_of_mem)), rfl, ?_, rfl⟩
  exact (Mask.and_13 (by decide)).2 (by rw [Transaction.toNat_key_wr]; simp only [BitVec.toNat_ofNat]; omega)

theorem load (bytes : List Byte) (checkLogo : Option Bool) : Statement (.load bytes checkLogo) := by
  intro _ t ht; cases ht

theorem mbc3RtcTick : Statement .mbc3RtcTick := by
  intro _ t ht; cases ht

end Sys2Proof.Laws.RowHit
end

