-- ==== Sys2Proof/Laws/Serve.lean ====
section
/-! SUPPORT. From a bus transaction to the operation it runs: a well-formed operation of the loaded variant is what its
transaction is served by, and on a sound cartridge the registers are those of the loaded variant. -/

namespace Sys2Proof

/-- Every well-formed bus operation has a row (one lemma per constructor in Laws/PerInstr). -/
theorem Laws.RowHit.all (i : Instr) : Laws.RowHit.Statement i := by
  cases i with
  | asRdWram a => exact Laws.RowHit.asRdWram a
  | asWrWram a v => exact Laws.RowHit.asWrWram a v
  | asRdUnmapped8000 a => exact Laws.RowHit.asRdUnmapped8000 a
  | asRdUnmappedE000 a => exact Laws.RowHit.asRdUnmappedE000 a
  | asWrUnmapped8000 a v => exact Laws.RowHit.asWrUnmapped8000 a v
  | asWrUnmappedE000 a v => exact Laws.RowHit.asWrUnmappedE000 a v
  | romRdRom0 a => exact Laws.RowHit.romRdRom0 a
  | romRdRomx a => exact Laws.RowHit.romRdRomx a
  | romRdRam a => exact Laws.RowHit.romRdRam a
  | romWrRam a v => exact Laws.RowHit.romWrRam a v
  | romWrRom a v => exact Laws.RowHit.romWrRom a v
  | mbc1RdRom0 a => exact Laws.RowHit.mbc1RdRom0 a
  | mbc1RdRomx a => exact Laws.RowHit.mbc1RdRomx a
  | mbc1RdRam a => exact Laws.RowHit.mbc1RdRam a
  | mbc1WrRam a v => exact Laws.RowHit.mbc1WrRam a v
  | mbc1WrRamen a v => exact Laws.RowHit.mbc1WrRamen a v
  | mbc1WrBank1 a v => exact Laws.RowHit.mbc1WrBank1 a v
  | mbc1WrBank2 a v => exact Laws.RowHit.mbc1WrBank2 a v
  | mbc1WrMode a v => exact Laws.RowHit.mbc1WrMode a v
  | mbc2RdRom0 a => exact Laws.RowHit.mbc2RdRom0 a
  | mbc2RdRomx a => exact Laws.RowHit.mbc2RdRomx a
  | mbc2RdRam a => exact Laws.RowHit.mbc2RdRam a
  | mbc2WrRam a v => exact Laws.RowHit.mbc2WrRam a v
  | mbc2WrRamen a v => exact Laws.RowHit.mbc2WrRamen a v
  | mbc2WrRomb a v => exact Laws.RowHit.mbc2WrRomb a v
  | mbc2WrIgnored a v => exact Laws.RowHit.mbc2WrIgnored a v
  | mbc3RdRom0 a => exact Laws.RowHit.mbc3RdRom0 a
  | mbc3RdRomx a => exact Laws.RowHit.mbc3RdRomx a
  | mbc3RdRam a => exact Laws.RowHit.mbc3RdRam a
  | mbc3WrRam a v => exact Laws.RowHit.mbc3WrRam a v
  | mbc3WrRamen a v => exact Laws.RowHit.mbc3WrRamen a v
  | mbc3WrRomb a v => exact Laws.RowHit.mbc3WrRomb a v
  | mbc3WrSel a v => exact Laws.RowHit.mbc3WrSel a v
  | mbc3WrLatch a v => exact Laws.RowHit.mbc3WrLatch a v
  | mbc5RdRom0 a => exact Laws.RowHit.mbc5RdRom0 a
  | mbc5RdRomx a => exact Laws.RowHit.mbc5RdRomx a
  | mbc5RdRam a => exact Laws.RowHit.mbc5RdRam a
  | mbc5WrRam a v => exact Laws.RowHit.mbc5WrRam a v
  | mbc5WrRamen a v => exact Laws.RowHit.mbc5WrRamen a v
  | mbc5WrRombLo a v => exact Laws.RowHit.mbc5WrRombLo a v
  | mbc5WrRombHi a v => exact Laws.RowHit.mbc5WrRombHi a v
  | mbc5WrRamb a v => exact Laws.RowHit.mbc5WrRamb a v
  | mbc5WrIgnored a v => exact Laws.RowHit.mbc5WrIgnored a v
  | load bytes checkLogo => exact Laws.RowHit.load bytes checkLogo
  | mbc3RtcTick => exact Laws.RowHit.mbc3RtcTick

/-- A well-formed operation of the variant is what its transaction decodes to. -/
theorem decodeTransaction_of_wellFormed {i : Instr} {vr : Variant} {t : Transaction} (hw : i.wellFormed)
    (hb : i.belongs vr) (ht : i.transaction = some t) : decodeTransaction vr t = some i := by
  obtain ⟨r, hmem, hvar, hkey, hbuild⟩ := Laws.RowHit.all i hw t ht
  have hhit : r.hits vr t.key := by
    simp only [Row.hits, Row.serves, hvar, hkey, beq_self_eq_true, Bool.and_true]
    exact hb
  rw [decodeTransaction_of_hits hmem hhit, hbuild]

namespace Machine

variable {s : State} {c : Cartridge}

/-- A transaction runs the well-formed operation of the loaded variant that it issues. -/
theorem serveBus_eq {i : Instr} {t : Transaction} (hc : s.cart = some c) (hw : i.wellFormed)
    (hb : i.belongs c.cfg.ctype.variant) (ht : i.transaction = some t) : serveBus t s = exec i s := by
  simp only [serveBus, hc, decodeTransaction_of_wellFormed hw hb ht]

/-- A transaction that completes ran an operation built by a row of the loaded variant. -/
theorem serveBus_next {t : Transaction} {u : State} (h : serveBus t s = .next u) :
    ∃ c i, s.cart = some c ∧ decodeTransaction c.cfg.ctype.variant t = some i ∧ exec i s = .next u := by
  unfold serveBus at h
  split at h
  · cases h
  · split at h
    · exact ⟨_, _, ‹_›, ‹_›, h⟩
    · cases h

theorem sound_cart (hs : s.sound) (hc : s.cart = some c) : c.sound := by
  simp only [State.sound, Bool.and_eq_true, hc, Option.all_some] at hs
  exact hs.2

theorem sound_wram (hs : s.sound) : s.wram.wf (unlistedWram s.params) ∧ s.wram.below Config.wramSize := by
  simp only [State.sound, Bool.and_eq_true] at hs
  exact hs.1

theorem sound_fit (hs : s.sound) (hc : s.cart = some c) : c.regs.fit c.cfg.ctype := by
  have := sound_cart hs hc
  simp only [Cartridge.sound, Bool.and_eq_true] at this
  exact this.1.2

theorem sound_cfg (hs : s.sound) (hc : s.cart = some c) : c.cfg.sound := by
  have := sound_cart hs hc
  simp only [Cartridge.sound, Bool.and_eq_true] at this
  exact this.1.1

theorem sound_ram (hs : s.sound) (hc : s.cart = some c) : c.ramSound := by
  have := sound_cart hs hc
  simp only [Cartridge.sound, Bool.and_eq_true] at this
  exact this.2

theorem sound_ram_wf (hs : s.sound) (hc : s.cart = some c) : c.ram.wf unlistedRam := by
  have := sound_ram hs hc
  simp only [Cartridge.ramSound, Bool.and_eq_true] at this
  exact this.1.1

/-- On a sound cartridge the registers are those of the loaded variant. -/
theorem fit_variant {rs : Regs} {ct : ControllerType} (h : rs.fit ct) : rs.variant = ct.variant := by
  cases rs <;> simp_all [Regs.fit, Regs.variant]

/-- On a sound MBC3 the live clock is the registers' own. -/
theorem fit_liveClock {r : Mbc3Regs} (hr : c.regs = .mbc3 r) (h : c.regs.fit c.cfg.ctype) :
    liveClock c r = r.clock := by
  rw [hr] at h
  simp only [Regs.fit, Bool.and_eq_true, beq_iff_eq] at h
  unfold liveClock
  cases ht : c.cfg.ctype.hasTimer
  · rw [ht] at h
    simp_all
  · rfl

end Machine

end Sys2Proof
end

