-- ==== Sys2Proof/Tests/Slice0.lean ====
section
/-! SUPPORT. Tests. Every expected value is taken from spec/95_test_vectors.md (its number in the docstring) or worked out
by hand from the rule named. -/

namespace Sys2Proof.Tests

open Machine

set_option Elab.async false

/-! ### Ill-formed operations are refused -/

/-- One operation per range check, its address just below the range of its rule. -/
theorem test_wellFormed_below :
    [ Instr.asRdWram 0xBFFF#16, .asWrWram 0xBFFF#16 0x00#8, .asRdUnmapped8000 0x7FFF#16, .asRdUnmappedE000 0xDFFF#16
    , .asWrUnmapped8000 0x7FFF#16 0x00#8, .asWrUnmappedE000 0xDFFF#16 0x00#8, .romRdRomx 0x3FFF#16
    , .romRdRam 0x9FFF#16, .romWrRam 0x9FFF#16 0x00#8, .mbc1RdRomx 0x3FFF#16, .mbc1RdRam 0x9FFF#16
    , .mbc1WrRam 0x9FFF#16 0x00#8, .mbc1WrBank1 0x1FFF#16 0x00#8, .mbc1WrBank2 0x3FFF#16 0x00#8
    , .mbc1WrMode 0x5FFF#16 0x00#8, .mbc2RdRomx 0x3FFF#16, .mbc2RdRam 0x9FFF#16, .mbc2WrRam 0x9FFF#16 0x00#8
    , .mbc2WrIgnored 0x3FFF#16 0x00#8, .mbc3RdRomx 0x3FFF#16, .mbc3RdRam 0x9FFF#16, .mbc3WrRam 0x9FFF#16 0x00#8
    , .mbc3WrRomb 0x1FFF#16 0x00#8, .mbc3WrSel 0x3FFF#16 0x00#8, .mbc3WrLatch 0x5FFF#16 0x00#8
    , .mbc5RdRomx 0x3FFF#16, .mbc5RdRam 0x9FFF#16, .mbc5WrRam 0x9FFF#16 0x00#8, .mbc5WrRombLo 0x1FFF#16 0x00#8
    , .mbc5WrRombHi 0x2FFF#16 0x00#8, .mbc5WrRamb 0x3FFF#16 0x00#8, .mbc5WrIgnored 0x5FFF#16 0x00#8 ].all
      (fun i => !i.wellFormed) = true := by
  decide

/-- One operation per range check, its address just above the range of its rule. -/
theorem test_wellFormed_above :
    [ Instr.asRdWram 0xE000#16, .asWrWram 0xE000#16 0x00#8, .asRdUnmapped8000 0xA000#16
    , .asWrUnmapped8000 0xA000#16 0x00#8, .romRdRom0 0x4000#16, .romRdRomx 0x8000#16, .romRdRam 0xC000#16
    , .romWrRam 0xC000#16 0x00#8, .romWrRom 0x8000#16 0x00#8, .mbc1RdRom0 0x4000#16, .mbc1RdRomx 0x8000#16
    , .mbc1RdRam 0xC000#16, .mbc1WrRam 0xC000#16 0x00#8, .mbc1WrRamen 0x2000#16 0x00#8, .mbc1WrBank1 0x4000#16 0x00#8
    , .mbc1WrBank2 0x6000#16 0x00#8, .mbc1WrMode 0x8000#16 0x00#8, .mbc2RdRom0 0x4000#16, .mbc2RdRomx 0x8000#16
    , .mbc2RdRam 0xC000#16, .mbc2WrRam 0xC000#16 0x00#8, .mbc2WrRamen 0x4000#16 0x00#8, .mbc2WrRomb 0x4100#16 0x00#8
    , .mbc2WrIgnored 0x8000#16 0x00#8, .mbc3RdRom0 0x4000#16, .mbc3RdRomx 0x8000#16, .mbc3RdRam 0xC000#16
    , .mbc3WrRam 0xC000#16 0x00#8, .mbc3WrRamen 0x2000#16 0x00#8, .mbc3WrRomb 0x4000#16 0x00#8
    , .mbc3WrSel 0x6000#16 0x00#8, .mbc3WrLatch 0x8000#16 0x00#8, .mbc5RdRom0 0x4000#16, .mbc5RdRomx 0x8000#16
    , .mbc5RdRam 0xC000#16, .mbc5WrRam 0xC000#16 0x00#8, .mbc5WrRamen 0x2000#16 0x00#8
    , .mbc5WrRombLo 0x3000#16 0x00#8, .mbc5WrRombHi 0x4000#16 0x00#8, .mbc5WrRamb 0x6000#16 0x00#8
    , .mbc5WrIgnored 0x8000#16 0x00#8 ].all (fun i => !i.wellFormed) = true := by
  decide

/-- R118, R119: the two MBC2 registers are told apart by address bit 8. -/
theorem test_wellFormed_mbc2_bit8 :
    (Instr.mbc2WrRamen 0x0100#16 0x0A#8).wellFormed = false ∧ (Instr.mbc2WrRomb 0x0200#16 0x0A#8).wellFormed = false ∧
    (Instr.mbc2WrRamen 0x0200#16 0x0A#8).wellFormed = true ∧ (Instr.mbc2WrRomb 0x0100#16 0x0A#8).wellFormed = true := by
  decide

/-! ### Decoding -/

/-- R92 to R95, one transaction per row, written out from its key. -/
theorem test_decode_address_space :
  decode .romOnly [0xC7#8, 0xC5#8, 0x00#8] = .ok (.asRdWram 0xC5C7#16) [] ∧
  decode .romOnly [0x39#8, 0xDA#8, 0x01#8, 0x4A#8] = .ok (.asWrWram 0xDA39#16 0x4A#8) [] ∧
  decode .romOnly [0xF1#8, 0x93#8, 0x00#8] = .ok (.asRdUnmapped8000 0x93F1#16) [] ∧
  decode .romOnly [0xFF#8, 0xFF#8, 0x00#8] = .ok (.asRdUnmappedE000 0xFFFF#16) [] ∧
  decode .romOnly [0xE5#8, 0x82#8, 0x01#8, 0x5F#8] = .ok (.asWrUnmapped8000 0x82E5#16 0x5F#8) [] ∧
  decode .romOnly [0xC7#8, 0xE5#8, 0x01#8, 0x66#8] = .ok (.asWrUnmappedE000 0xE5C7#16 0x66#8) [] := by
  decide

/-- R97 to R101, one transaction per row, written out from its key. -/
theorem test_decode_rom_only :
  decode .romOnly [0x39#8, 0x1A#8, 0x00#8] = .ok (.romRdRom0 0x1A39#16) [] ∧
  decode .romOnly [0xF1#8, 0x73#8, 0x00#8] = .ok (.romRdRomx 0x73F1#16) [] ∧
  decode .romOnly [0xFF#8, 0xBF#8, 0x00#8] = .ok (.romRdRam 0xBFFF#16) [] ∧
  decode .romOnly [0xE5#8, 0xA2#8, 0x01#8, 0x82#8] = .ok (.romWrRam 0xA2E5#16 0x82#8) [] ∧
  decode .romOnly [0xC7#8, 0x25#8, 0x01#8, 0x89#8] = .ok (.romWrRom 0x25C7#16 0x89#8) [] := by
  decide

/-- R104 to R111, one transaction per row, written out from its key. -/
theorem test_decode_mbc1 :
  decode .mbc1 [0x39#8, 0x1A#8, 0x00#8] = .ok (.mbc1RdRom0 0x1A39#16) [] ∧
  decode .mbc1 [0xF1#8, 0x73#8, 0x00#8] = .ok (.mbc1RdRomx 0x73F1#16) [] ∧
  decode .mbc1 [0xFF#8, 0xBF#8, 0x00#8] = .ok (.mbc1RdRam 0xBFFF#16) [] ∧
  decode .mbc1 [0xE5#8, 0xA2#8, 0x01#8, 0xA5#8] = .ok (.mbc1WrRam 0xA2E5#16 0xA5#8) [] ∧
  decode .mbc1 [0xC7#8, 0x05#8, 0x01#8, 0xAC#8] = .ok (.mbc1WrRamen 0x05C7#16 0xAC#8) [] ∧
  decode .mbc1 [0x39#8, 0x3A#8, 0x01#8, 0xB3#8] = .ok (.mbc1WrBank1 0x3A39#16 0xB3#8) [] ∧
  decode .mbc1 [0xF1#8, 0x53#8, 0x01#8, 0xBA#8] = .ok (.mbc1WrBank2 0x53F1#16 0xBA#8) [] ∧
  decode .mbc1 [0xFF#8, 0x7F#8, 0x01#8, 0xC1#8] = .ok (.mbc1WrMode 0x7FFF#16 0xC1#8) [] := by
  decide

/-- R114 to R120, one transaction per row, written out from its key. -/
theorem test_decode_mbc2 :
  decode .mbc2 [0xE5#8, 0x02#8, 0x00#8] = .ok (.mbc2RdRom0 0x02E5#16) [] ∧
  decode .mbc2 [0xC7#8, 0x65#8, 0x00#8] = .ok (.mbc2RdRomx 0x65C7#16) [] ∧
  decode .mbc2 [0x39#8, 0xBA#8, 0x00#8] = .ok (.mbc2RdRam 0xBA39#16) [] ∧
  decode .mbc2 [0xF1#8, 0xB3#8, 0x01#8, 0xDD#8] = .ok (.mbc2WrRam 0xB3F1#16 0xDD#8) [] ∧
  decode .mbc2 [0xFF#8, 0x3E#8, 0x01#8, 0xE4#8] = .ok (.mbc2WrRamen 0x3EFF#16 0xE4#8) [] ∧
  decode .mbc2 [0xE5#8, 0x03#8, 0x01#8, 0xEB#8] = .ok (.mbc2WrRomb 0x03E5#16 0xEB#8) [] ∧
  decode .mbc2 [0xC7#8, 0x65#8, 0x01#8, 0xF2#8] = .ok (.mbc2WrIgnored 0x65C7#16 0xF2#8) [] := by
  decide

/-- R124 to R131, one transaction per row, written out from its key. -/
theorem test_decode_mbc3 :
  decode .mbc3 [0x39#8, 0x1A#8, 0x00#8] = .ok (.mbc3RdRom0 0x1A39#16) [] ∧
  decode .mbc3 [0xF1#8, 0x73#8, 0x00#8] = .ok (.mbc3RdRomx 0x73F1#16) [] ∧
  decode .mbc3 [0xFF#8, 0xBF#8, 0x00#8] = .ok (.mbc3RdRam 0xBFFF#16) [] ∧
  decode .mbc3 [0xE5#8, 0xA2#8, 0x01#8, 0x0E#8] = .ok (.mbc3WrRam 0xA2E5#16 0x0E#8) [] ∧
  decode .mbc3 [0xC7#8, 0x05#8, 0x01#8, 0x15#8] = .ok (.mbc3WrRamen 0x05C7#16 0x15#8) [] ∧
  decode .mbc3 [0x39#8, 0x3A#8, 0x01#8, 0x1C#8] = .ok (.mbc3WrRomb 0x3A39#16 0x1C#8) [] ∧
  decode .mbc3 [0xF1#8, 0x53#8, 0x01#8, 0x23#8] = .ok (.mbc3WrSel 0x53F1#16 0x23#8) [] ∧
  decode .mbc3 [0xFF#8, 0x7F#8, 0x01#8, 0x2A#8] = .ok (.mbc3WrLatch 0x7FFF#16 0x2A#8) [] := by
  decide

/-- R137 to R145, one transaction per row, written out from its key. -/
theorem test_decode_mbc5 :
  decode .mbc5 [0xE5#8, 0x02#8, 0x00#8] = .ok (.mbc5RdRom0 0x02E5#16) [] ∧
  decode .mbc5 [0xC7#8, 0x65#8, 0x00#8] = .ok (.mbc5RdRomx 0x65C7#16) [] ∧
  decode .mbc5 [0x39#8, 0xBA#8, 0x00#8] = .ok (.mbc5RdRam 0xBA39#16) [] ∧
  decode .mbc5 [0xF1#8, 0xB3#8, 0x01#8, 0x46#8] = .ok (.mbc5WrRam 0xB3F1#16 0x46#8) [] ∧
  decode .mbc5 [0xFF#8, 0x1F#8, 0x01#8, 0x4D#8] = .ok (.mbc5WrRamen 0x1FFF#16 0x4D#8) [] ∧
  decode .mbc5 [0xE5#8, 0x22#8, 0x01#8, 0x54#8] = .ok (.mbc5WrRombLo 0x22E5#16 0x54#8) [] ∧
  decode .mbc5 [0xC7#8, 0x35#8, 0x01#8, 0x5B#8] = .ok (.mbc5WrRombHi 0x35C7#16 0x5B#8) [] ∧
  decode .mbc5 [0x39#8, 0x5A#8, 0x01#8, 0x62#8] = .ok (.mbc5WrRamb 0x5A39#16 0x62#8) [] ∧
  decode .mbc5 [0xF1#8, 0x73#8, 0x01#8, 0x69#8] = .ok (.mbc5WrIgnored 0x73F1#16 0x69#8) [] := by
  decide

/-- What the decoder rejects: bytes that are no transaction of the layout (log 7). -/
theorem test_decode_rejects :
    decode .mbc1 [] = .reject .truncated ∧ decode .mbc1 [0x00#8, 0x20#8] = .reject .truncated ∧
    decode .mbc1 [0x00#8, 0x20#8, 0x01#8] = .reject .truncated ∧
    decode .mbc1 [0x00#8, 0x20#8, 0x02#8, 0x03#8] = .reject .reservedKeyBits := by
  decide

/-- Table words: MBC5.WR_ROMB_HI (K = 0x13000) and AS.RD_WRAM (K = 0x0C000); a data byte stands in bits 31..24. -/
theorem test_table_words :
    decodeTableWord 24 0x13000 = some (.mbc5WrRombHi 0x3000#16 0x00#8) ∧
    decodeTableWord 24 0x0C000 = some (.asRdWram 0xC000#16) ∧
    decodeTableWord 32 0x5A01C001 = some (.asWrWram 0xC001#16 0x5A#8) ∧ decodeTableWord 24 0x20000 = none := by
  decide

/-- The encoder writes the key's low byte first (log 7). -/
theorem test_encode :
    encode (.mbc3WrRomb 0x2345#16 0x7F#8) = [0x45#8, 0x23#8, 0x01#8, 0x7F#8] ∧
    encode (.mbc3RdRam 0xB123#16) = [0x23#8, 0xB1#8, 0x00#8] := by
  decide

/-! ### Small states -/

/-- The first 0x150 bytes of the test image T(type, romcode, ramcode) (95_test_vectors section 0). -/
def header (t romCode ramCode : Byte) : List Byte :=
  List.replicate 0x104 0x00#8 ++ logoRef ++ [0x54#8, 0x45#8, 0x53#8, 0x54#8] ++ List.replicate 15 0x00#8
    ++ [t, romCode, ramCode] ++ List.replicate 6 0x00#8

/-- The open parameters as section 0 of the vectors takes them. -/
def params : Params :=
  { lenient := false, checkLogo := true, initWram := [], initCartRam := [], initRtc := ⟨0, 0, 0, 0, 0, 0, 0⟩ }

/-- No cartridge. -/
def bare : State := { wram := [], cart := none, params := params, inputs := [], response := none }

/-- The state an outcome leads to; `bare` where there is none. -/
def next (r : Result) : State :=
  match r with
  | .next u => u
  | .fault _ => bare
  | .refused _ => bare

/-- What an operation answered. -/
def outcome (r : Result) : Option Response :=
  match r with
  | .next u => u.response
  | .fault _ => none
  | .refused _ => none

/-- The fault an operation ends in. -/
def faultOf (r : Result) : Option Fault :=
  match r with
  | .next _ => none
  | .fault f => some f
  | .refused _ => none

/-- The refusal an operation ends in. -/
def refusalOf (r : Result) : Option Refusal :=
  match r with
  | .next _ => none
  | .fault _ => none
  | .refused e => some e

/-- A fresh load of the header of T(type, romcode, ramcode). -/
def loaded (t romCode ramCode : Byte) : State := next (exec (.load (header t romCode ramCode) none) bare)

/-- The state with other registers. -/
def withRegs (regs : Regs) (s : State) : State :=
  { s with cart := s.cart.map (fun c => { c with regs := regs }) }

/-- The registers. -/
def regs (s : State) : Option Regs := s.cart.map (fun c => c.regs)

/-- Byte `o` of the cartridge RAM. -/
def ramByte (s : State) (o : Nat) : Option Byte := s.cart.map (fun c => cartRamRead c o)

/-- The current ROM bank. -/
def romBank (s : State) : Option Nat := s.cart.map curRomBank

/-- The outcome of a load of an image, CHECK_LOGO given. -/
def loadOutcome (bytes : List Byte) (checkLogo : Bool) : Option Response :=
  outcome (exec (.load bytes (some checkLogo)) bare)

/-- The image with byte 0x0104, the first of the logo, changed to 0x00. -/
def badLogo (bytes : List Byte) : List Byte := bytes.set 0x104 0x00#8

/-! ### LOAD -/

/-- W1, V-L4: too short, whatever else is wrong. -/
theorem test_load_too_short :
    loadOutcome [] true = some (.loadErr (.headerTooShort 0x150 0)) ∧
    loadOutcome ((header 0x00#8 0x00#8 0x00#8).take 0x14F) true = some (.loadErr (.headerTooShort 0x150 0x14F)) := by
  decide +kernel

/-- W1, V-L19: 0x150 bytes are enough. -/
theorem test_load_boundary :
    loadOutcome (header 0x01#8 0x01#8 0x00#8) true = some .loaded ∧
    (loaded 0x01#8 0x01#8 0x00#8).cart.map (fun c => c.cfg.romBanks) = some 4 := by
  decide +kernel

/-- W2, V-L1, V-L2, V-L3, V-L5, V-L6, V-L7: which error a load reports. -/
theorem test_load_errors :
    loadOutcome (header 0x08#8 0x00#8 0x00#8) true = some (.loadErr (.unsupportedControllerType 0x08#8)) ∧
    loadOutcome (header 0x01#8 0x09#8 0x00#8) true = some (.loadErr (.unsupportedRomSizeCode 0x09#8)) ∧
    loadOutcome (header 0x02#8 0x00#8 0x06#8) true = some (.loadErr (.unsupportedRamSizeCode 0x06#8)) ∧
    loadOutcome (header 0x04#8 0x09#8 0x06#8) true = some (.loadErr (.unsupportedControllerType 0x04#8)) ∧
    loadOutcome (badLogo (header 0x00#8 0x00#8 0x00#8)) true = some (.loadErr .logoMismatch) ∧
    loadOutcome (badLogo (header 0x00#8 0x00#8 0x00#8)) false = some .loaded ∧
    loadOutcome (badLogo (header 0x03#8 0x09#8 0x00#8)) true = some (.loadErr (.unsupportedRomSizeCode 0x09#8)) := by
  decide +kernel

/-- R147: the numeric codes. -/
theorem test_error_codes :
    [ Response.loadErr (.headerTooShort 0x150 0), .loadErr (.unsupportedControllerType 0x04#8)
    , .loadErr (.unsupportedRomSizeCode 0x09#8), .loadErr (.unsupportedRamSizeCode 0x06#8), .loadErr .logoMismatch
    , .addrErr 0x8000#16 .read ].map Response.errorCode = [some 1, some 2, some 3, some 4, some 5, some 16] := by
  decide

/-- V-L8, V-L9, V-L10: the bank counts. -/
theorem test_bank_tables :
    [0x00#8, 0x01#8, 0x02#8, 0x03#8, 0x04#8, 0x05#8, 0x06#8, 0x07#8, 0x08#8, 0x52#8, 0x53#8, 0x54#8, 0x09#8].map romBanks =
      [some 2, some 4, some 8, some 16, some 32, some 64, some 96, some 96, some 96, some 72, some 80, some 96, none] ∧
    [0x00#8, 0x01#8, 0x02#8, 0x03#8, 0x04#8, 0x05#8, 0x06#8].map ramBanks =
      [some 0, some 1, some 1, some 4, some 16, some 8, none] := by
  decide

/-- V-L14: 17 codes resolve, the other 239 fail. -/
theorem test_resolve_count :
    ((List.range 256).filter (fun n => (resolve (BitVec.ofNat 8 n) 0x00#8).isSome)).length = 17 := by
  decide +kernel

/-- V-L11, V-L12, W7: titles and the colour flag. -/
theorem test_title :
    titleOf (List.replicate 0x134 0x00#8 ++ [0x54#8, 0x45#8, 0x53#8, 0x54#8, 0x47#8, 0x41#8, 0x4D#8, 0x45#8]
        ++ List.replicate 20 0x00#8) = [0x54#8, 0x45#8, 0x53#8, 0x54#8, 0x47#8, 0x41#8, 0x4D#8, 0x45#8] ∧
    (titleOf (List.replicate 0x134 0x00#8 ++ List.replicate 15 0x41#8 ++ [0x80#8] ++ List.replicate 12 0x41#8)).length
      = 15 ∧
    colorModeOf (List.replicate 0x143 0x00#8 ++ [0xC0#8] ++ List.replicate 12 0x00#8) = .colorCapable ∧
    colorModeOf (List.replicate 0x150 0x7F#8) = .legacy := by
  decide +kernel

/-- V-L13: the super-console flag. -/
theorem test_sgb :
    sgbSupportOf ((header 0x00#8 0x00#8 0x00#8).set 0x146 0x03#8) = .supported ∧
    sgbSupportOf ((header 0x00#8 0x00#8 0x00#8).set 0x146 0x01#8) = .unsupported := by
  decide +kernel

/-- R22 to R27: the registers at load. -/
theorem test_load_registers :
    [loaded 0x00#8 0x00#8 0x00#8, loaded 0x03#8 0x05#8 0x03#8, loaded 0x06#8 0x03#8 0x00#8, loaded 0x1B#8 0x02#8 0x04#8].map
      regs = [ some .romOnly, some (.mbc1 ⟨false, 1#5, 0#2, 0#1⟩), some (.mbc2 ⟨false, 1#4⟩)
             , some (.mbc5 ⟨false, 1#9, 0#4⟩)] ∧
    regs (loaded 0x13#8 0x05#8 0x03#8) = some (.mbc3 ⟨false, 1#7, 0#8, 0xFF#8, none⟩) := by
  decide +kernel

/-- V-L17, V-L18: a failed load keeps the cartridge, a successful one keeps internal RAM. -/
theorem test_load_keeps :
    (next (exec (.load (List.replicate 0x20 0x00#8) none) (loaded 0x03#8 0x00#8 0x02#8))).cart
      = (loaded 0x03#8 0x00#8 0x02#8).cart ∧
    (next (exec (.load (header 0x01#8 0x01#8 0x00#8) none) { bare with wram := [(0, 0x55#8)] })).wram = [(0, 0x55#8)] := by
  decide +kernel

/-- R19, R20: the supplied RAM bytes, four bits each on MBC2. -/
theorem test_load_ram :
    let p := { bare with params := { params with initCartRam := [0x3C#8, 0xA5#8] } }
    ramByte (next (exec (.load (header 0x03#8 0x00#8 0x02#8) none) p)) 1 = some 0xA5#8 ∧
    ramByte (next (exec (.load (header 0x06#8 0x00#8 0x00#8) none) p)) 1 = some 0x05#8 ∧
    ramByte (next (exec (.load (header 0x01#8 0x00#8 0x02#8) none) p)) 1 = some 0x00#8 := by
  decide +kernel

/-! ### AddressSpace and RomOnly: the cartridge is T(0x00, 0x00, 0x00) -/

/-- V-A1, V-A2: internal RAM. -/
theorem test_wram :
    (next (exec (.asWrWram 0xDFFF#16 0xA5#8) (loaded 0x00#8 0x00#8 0x00#8))).wram = [(0x1FFF, 0xA5#8)] ∧
    outcome (exec (.asRdWram 0xC000#16) { loaded 0x00#8 0x00#8 0x00#8 with wram := [(0, 0xA5#8)] })
      = some (.data 0xA5#8) := by
  decide +kernel

/-- V-A3 to V-A6: strict. -/
theorem test_unmapped_strict :
    let s := loaded 0x00#8 0x00#8 0x00#8
    [ Transaction.rd 0x8000#16, .rd 0x9FFF#16, .wr 0xE000#16 0x12#8, .rd 0xFFFF#16, .wr 0x9000#16 0x33#8 ].map
      (fun t => outcome (serveBus t s)) =
    [ some (.addrErr 0x8000#16 .read), some (.addrErr 0x9FFF#16 .read), some (.addrErr 0xE000#16 .write)
    , some (.addrErr 0xFFFF#16 .read), some (.addrErr 0x9000#16 .write) ] := by
  decide +kernel

/-- V-A7: lenient. -/
theorem test_unmapped_lenient :
    let s := next (exec (.load (header 0x00#8 0x00#8 0x00#8) none) { bare with params := { params with lenient := true } })
    [ Transaction.rd 0x8000#16, .rd 0xFF80#16, .wr 0x9000#16 0x33#8 ].map (fun t => outcome (serveBus t s)) =
    [ some (.data 0xFF#8), some (.data 0xFF#8), some .ok ] := by
  decide +kernel

/-- V-A8, V-R2, R40: the RAM window, the type byte, and past the end of a short image. -/
theorem test_rom_only_reads :
    let s := loaded 0x00#8 0x08#8 0x00#8
    outcome (exec (.romRdRam 0xBFFF#16) s) = some (.data 0xFF#8) ∧
    outcome (exec (.romRdRom0 0x0148#16) s) = some (.data 0x08#8) ∧
    outcome (exec (.romRdRomx 0x4000#16) s) = some (.data 0xFF#8) ∧ romxOffset 1 0x7FFF#16 = 0x7FFF := by
  decide +kernel

/-- V-R4, V-R5: the writes. -/
theorem test_rom_only_writes :
    let s := loaded 0x00#8 0x00#8 0x00#8
    next (exec (.romWrRom 0x2000#16 0x00#8) s) = { s with response := some .ok } ∧
    next (exec (.romWrRam 0xA000#16 0x42#8) s) = { s with response := some .ok } := by
  decide +kernel

/-! ### MBC1 -/

/-- V-M1-5, V-M1-6, V-M1-23, R110: the fields the registers take. -/
theorem test_mbc1_writes :
    let s := loaded 0x03#8 0x05#8 0x03#8
    regs (next (exec (.mbc1WrBank1 0x2000#16 0xE3#8) s)) = some (.mbc1 ⟨false, 3#5, 0#2, 0#1⟩) ∧
    regs (next (exec (.mbc1WrBank2 0x5FFF#16 0xFE#8) s)) = some (.mbc1 ⟨false, 1#5, 2#2, 0#1⟩) ∧
    regs (next (exec (.mbc1WrMode 0x6000#16 0xFF#8) s)) = some (.mbc1 ⟨false, 1#5, 0#2, 1#1⟩) ∧
    regs (next (exec (.mbc1WrMode 0x6000#16 0x02#8) s)) = some (.mbc1 ⟨false, 1#5, 0#2, 0#1⟩) := by
  decide +kernel

/-- V-M1-19, V-M1-20, V-M1-21: the RAM-enable values. -/
theorem test_mbc1_ramen :
    let s := loaded 0x03#8 0x00#8 0x02#8
    regs (next (exec (.mbc1WrRamen 0x1FFF#16 0x1A#8) s)) = some (.mbc1 ⟨true, 1#5, 0#2, 0#1⟩) ∧
    regs (next (exec (.mbc1WrRamen 0x0000#16 0xA0#8) s)) = some (.mbc1 ⟨false, 1#5, 0#2, 0#1⟩) ∧
    regs (next (exec (.mbc1WrRamen 0x0000#16 0x0B#8) (withRegs (.mbc1 ⟨true, 1#5, 0#2, 0#1⟩) s)))
      = some (.mbc1 ⟨false, 1#5, 0#2, 0#1⟩) := by
  decide +kernel

/-- V-M1-3, V-M1-7, V-M1-8, V-M1-10, V-M1-12, V-M1-14: the current ROM bank. -/
theorem test_mbc1_rom_bank :
    romBank (withRegs (.mbc1 ⟨false, 5#5, 0#2, 0#1⟩) (loaded 0x01#8 0x01#8 0x00#8)) = some 1 ∧
    romBank (withRegs (.mbc1 ⟨false, 2#5, 0#2, 0#1⟩) (loaded 0x01#8 0x00#8 0x00#8)) = some 0 ∧
    romBank (withRegs (.mbc1 ⟨false, 0#5, 1#2, 0#1⟩) (loaded 0x01#8 0x05#8 0x00#8)) = some 0x21 ∧
    romBank (withRegs (.mbc1 ⟨false, 2#5, 1#2, 1#1⟩) (loaded 0x01#8 0x05#8 0x00#8)) = some 2 ∧
    romBank (withRegs (.mbc1 ⟨false, 1#5, 3#2, 0#1⟩) (loaded 0x01#8 0x06#8 0x00#8)) = some 1 ∧
    romBank (withRegs (.mbc1 ⟨false, 0x1F#5, 3#2, 0#1⟩) (loaded 0x01#8 0x06#8 0x00#8)) = some 31 := by
  decide +kernel

/-- V-M1-7 (bank 0 in the switchable window), V-M1-15 (bank 0 in the fixed one), V-L19. -/
theorem test_mbc1_rom_reads :
    outcome (exec (.mbc1RdRomx 0x4147#16) (withRegs (.mbc1 ⟨false, 2#5, 0#2, 0#1⟩) (loaded 0x01#8 0x00#8 0x00#8)))
      = some (.data 0x01#8) ∧
    outcome (exec (.mbc1RdRom0 0x0148#16) (withRegs (.mbc1 ⟨false, 1#5, 3#2, 1#1⟩) (loaded 0x01#8 0x05#8 0x00#8)))
      = some (.data 0x05#8) ∧
    outcome (exec (.mbc1RdRomx 0x4000#16) (loaded 0x01#8 0x01#8 0x00#8)) = some (.data 0xFF#8) := by
  decide +kernel

/-- V-M1-16, V-M1-17, V-M1-18, W5: RAM reads. -/
theorem test_mbc1_ram_reads :
    let s := fun en b2 mode qc => { loaded 0x03#8 0x00#8 qc with
      cart := (withRegs (.mbc1 ⟨en, 1#5, b2, mode⟩) (loaded 0x03#8 0x00#8 qc)).cart.map
        (fun c => { c with ram := [(0, 0x11#8), (0x4000, 0x22#8)] }) }
    outcome (exec (.mbc1RdRam 0xA000#16) (s true 2#2 1#1 0x03#8)) = some (.data 0x22#8) ∧
    outcome (exec (.mbc1RdRam 0xA000#16) (s true 2#2 0#1 0x03#8)) = some (.data 0x11#8) ∧
    outcome (exec (.mbc1RdRam 0xA000#16) (s true 3#2 1#1 0x02#8)) = some (.data 0x11#8) ∧
    outcome (exec (.mbc1RdRam 0xA000#16) (s false 2#2 1#1 0x03#8)) = some (.data 0xFF#8) := by
  decide +kernel

/-- V-M1-22, W5, V-L15: RAM writes. -/
theorem test_mbc1_ram_writes :
    let w := fun s => next (exec (.mbc1WrRam 0xBFFF#16 0x7E#8) s)
    ramByte (w (withRegs (.mbc1 ⟨true, 1#5, 0#2, 0#1⟩) (loaded 0x03#8 0x00#8 0x02#8))) 0x1FFF = some 0x7E#8 ∧
    ramByte (w (loaded 0x03#8 0x00#8 0x02#8)) 0x1FFF = some 0x00#8 ∧
    ramByte (w (withRegs (.mbc1 ⟨true, 1#5, 0#2, 0#1⟩) (loaded 0x01#8 0x00#8 0x03#8))) 0x1FFF = some 0x00#8 := by
  decide +kernel

/-! ### MBC2 -/

/-- V-M2-3, V-M2-4, V-M2-8, V-M2-11: the registers. -/
theorem test_mbc2_writes :
    let s := loaded 0x06#8 0x03#8 0x00#8
    regs (next (exec (.mbc2WrRomb 0x2100#16 0x1F#8) s)) = some (.mbc2 ⟨false, 0xF#4⟩) ∧
    regs (next (serveBus (.wr 0x0300#16 0x0A#8) s)) = some (.mbc2 ⟨false, 0xA#4⟩) ∧
    regs (next (serveBus (.wr 0x0200#16 0x0A#8) s)) = some (.mbc2 ⟨true, 1#4⟩) ∧
    regs (next (exec (.mbc2WrRamen 0x3E00#16 0x00#8) (withRegs (.mbc2 ⟨true, 1#4⟩) s))) = some (.mbc2 ⟨false, 1#4⟩) ∧
    next (exec (.mbc2WrIgnored 0x4000#16 0x05#8) s) = { s with response := some .ok } := by
  decide +kernel

/-- V-M2-2, V-M2-10, and reads of both windows. -/
theorem test_mbc2_rom :
    romBank (withRegs (.mbc2 ⟨false, 0#4⟩) (loaded 0x06#8 0x03#8 0x00#8)) = some 1 ∧
    romBank (withRegs (.mbc2 ⟨false, 9#4⟩) (loaded 0x05#8 0x02#8 0x00#8)) = some 1 ∧
    outcome (exec (.mbc2RdRomx 0x4147#16) (withRegs (.mbc2 ⟨false, 8#4⟩) (loaded 0x05#8 0x02#8 0x00#8)))
      = some (.data 0x05#8) ∧
    outcome (exec (.mbc2RdRom0 0x0148#16) (loaded 0x05#8 0x02#8 0x00#8)) = some (.data 0x02#8) := by
  decide +kernel

/-- V-M2-5, V-M2-6, V-M2-7, W5: the nibble RAM. -/
theorem test_mbc2_ram :
    let s := withRegs (.mbc2 ⟨true, 1#4⟩) (loaded 0x06#8 0x03#8 0x00#8)
    let t := next (exec (.mbc2WrRam 0xA000#16 0x3C#8) s)
    outcome (exec (.mbc2RdRam 0xBE00#16) t) = some (.data 0xFC#8) ∧
    outcome (exec (.mbc2RdRam 0xA001#16) t) = some (.data 0xF0#8) ∧
    ramByte (next (exec (.mbc2WrRam 0xBFFF#16 0x9E#8) s)) 0x1FF = some 0x0E#8 ∧
    outcome (exec (.mbc2RdRam 0xA000#16) (loaded 0x06#8 0x03#8 0x00#8)) = some (.data 0xFF#8) := by
  decide +kernel

/-! ### MBC3 -/

/-- An MBC3 of T(type, 0x05, 0x03). -/
def mbc3 (t : Byte) (en : Bool) (romb : BitVec 7) (sel prev : Byte) (k : Option Clock) : State :=
  withRegs (.mbc3 ⟨en, romb, sel, prev, k⟩) (loaded t 0x05#8 0x03#8)

/-- A clock: live 59:59:23 on day 0x0FF, and its latched copy. -/
def clock : Clock := ⟨⟨59#6, 59#6, 23#5, 0xFF#8, 0#1, 0#1, 0#1⟩, ⟨42#6, 7#6, 5#5, 0x12#8, 1#1, 1#1, 1#1⟩⟩

/-- V-M3-2 to V-M3-6: the ROM bank. -/
theorem test_mbc3_rom :
    romBank (mbc3 0x10#8 false 0#7 0x00#8 0xFF#8 (some clock)) = some 1 ∧
    romBank (mbc3 0x10#8 false 0x50#7 0x00#8 0xFF#8 (some clock)) = some 0x10 ∧
    romBank (mbc3 0x10#8 false 0x7F#7 0x00#8 0xFF#8 (some clock)) = some 0x3F ∧
    outcome (exec (.mbc3RdRomx 0x4147#16) (mbc3 0x10#8 false 0x40#7 0x00#8 0xFF#8 (some clock))) = some (.data 0x10#8) ∧
    outcome (exec (.mbc3RdRom0 0x0149#16) (mbc3 0x10#8 false 0x40#7 0x00#8 0xFF#8 (some clock))) = some (.data 0x03#8) := by
  decide +kernel

/-- V-M3-3, R128, R130: the register writes. -/
theorem test_mbc3_writes :
    let s := mbc3 0x13#8 false 1#7 0x00#8 0xFF#8 none
    regs (next (exec (.mbc3WrRomb 0x2000#16 0xAA#8) s)) = some (.mbc3 ⟨false, 0x2A#7, 0x00#8, 0xFF#8, none⟩) ∧
    regs (next (exec (.mbc3WrRamen 0x0000#16 0xFA#8) s)) = some (.mbc3 ⟨true, 1#7, 0x00#8, 0xFF#8, none⟩) ∧
    regs (next (exec (.mbc3WrSel 0x4000#16 0xED#8) s)) = some (.mbc3 ⟨false, 1#7, 0xED#8, 0xFF#8, none⟩) := by
  decide +kernel

/-- V-M3-7, V-M3-8, V-M3-9, V-M3-10, V-M3-15, V-M3-18: what the RAM window reads. -/
theorem test_mbc3_window_reads :
    let rd := fun s => outcome (exec (.mbc3RdRam 0xB123#16) s)
    rd (mbc3 0x10#8 true 1#7 0x08#8 0xFF#8 (some clock)) = some (.data 0x2A#8) ∧
    rd (mbc3 0x10#8 true 1#7 0x0A#8 0xFF#8 (some clock)) = some (.data 0x05#8) ∧
    rd (mbc3 0x10#8 true 1#7 0x0C#8 0xFF#8 (some clock)) = some (.data 0xC1#8) ∧
    rd (mbc3 0x10#8 true 1#7 0x0D#8 0xFF#8 (some clock)) = some (.data 0xFF#8) ∧
    rd (mbc3 0x10#8 false 1#7 0x08#8 0xFF#8 (some clock)) = some (.data 0xFF#8) ∧
    rd (mbc3 0x13#8 true 1#7 0x08#8 0xFF#8 none) = some (.data 0xFF#8) ∧
    rd (mbc3 0x13#8 true 1#7 0x05#8 0xFF#8 none) = some (.data 0x00#8) := by
  decide +kernel

/-- V-M3-7, V-M3-11, V-M3-15, V-M3-17: what the RAM window writes. -/
theorem test_mbc3_window_writes :
    let wr := fun v s => next (exec (.mbc3WrRam 0xA000#16 v) s)
    let live := fun r => some (Regs.mbc3 ⟨true, 1#7, r, 0xFF#8, none⟩)
    ramByte (wr 0x66#8 (mbc3 0x13#8 true 1#7 0x05#8 0xFF#8 none)) 0x2000 = some 0x66#8 ∧
    regs (wr 0x66#8 (mbc3 0x13#8 true 1#7 0x08#8 0xFF#8 none)) = live 0x08#8 ∧
    regs (wr 0xFF#8 (mbc3 0x10#8 true 1#7 0x0C#8 0xFF#8 (some clock)))
      = some (.mbc3 ⟨true, 1#7, 0x0C#8, 0xFF#8, some ⟨⟨59#6, 59#6, 23#5, 0xFF#8, 1#1, 1#1, 1#1⟩, clock.rtcl⟩⟩) ∧
    regs (wr 0xFF#8 (mbc3 0x10#8 true 1#7 0x0A#8 0xFF#8 (some clock)))
      = some (.mbc3 ⟨true, 1#7, 0x0A#8, 0xFF#8, some ⟨⟨59#6, 59#6, 31#5, 0xFF#8, 0#1, 0#1, 0#1⟩, clock.rtcl⟩⟩) := by
  decide +kernel

/-- V-M3-12, V-M3-13, V-M3-14: only 0x01 after 0x00 latches. -/
theorem test_mbc3_latch :
    let wr := fun prev v => regs (next (exec (.mbc3WrLatch 0x7FFF#16 v) (mbc3 0x10#8 false 1#7 0x08#8 prev (some clock))))
    let gives := fun prev k => some (Regs.mbc3 ⟨false, 1#7, 0x08#8, prev, some k⟩)
    wr 0x00#8 0x01#8 = gives 0x01#8 ⟨clock.rtc, clock.rtc⟩ ∧ wr 0xFF#8 0x01#8 = gives 0x01#8 clock ∧
    wr 0x00#8 0x02#8 = gives 0x02#8 clock ∧ wr 0x02#8 0x01#8 = gives 0x01#8 clock ∧
    wr 0x01#8 0x01#8 = gives 0x01#8 clock := by
  decide +kernel

/-- V-T1 to V-T10, fields S, M, H, DL, DH0, HALT, DC. -/
theorem test_rtc_tick :
    [ (⟨5, 0, 0, 0, 0, 0, 0⟩ : Rtc), ⟨59, 10, 0, 0, 0, 0, 0⟩, ⟨59, 59, 5, 0, 0, 0, 0⟩, ⟨59, 59, 23, 0xFF, 0, 0, 0⟩
    , ⟨59, 59, 23, 0xFF, 1, 0, 0⟩, ⟨63, 7, 0, 0, 0, 0, 0⟩, ⟨59, 63, 2, 0, 0, 0, 0⟩, ⟨59, 59, 31, 4, 0, 0, 0⟩
    , ⟨10, 0, 0, 0, 0, 1, 0⟩, ⟨59, 59, 23, 3, 0, 0, 1⟩ ].map rtcTick =
    [ ⟨6, 0, 0, 0, 0, 0, 0⟩, ⟨0, 11, 0, 0, 0, 0, 0⟩, ⟨0, 0, 6, 0, 0, 0, 0⟩, ⟨0, 0, 0, 0, 1, 0, 0⟩
    , ⟨0, 0, 0, 0, 0, 0, 1⟩, ⟨0, 7, 0, 0, 0, 0, 0⟩, ⟨0, 0, 2, 0, 0, 0, 0⟩, ⟨0, 0, 0, 4, 0, 0, 0⟩
    , ⟨10, 0, 0, 0, 0, 1, 0⟩, ⟨0, 0, 0, 4, 0, 0, 1⟩ ] := by
  decide +kernel

/-- V-T11, R132: a tick reaches the live file alone, and there is none without a timer. -/
theorem test_tick_event :
    regs (next (exec .mbc3RtcTick (mbc3 0x10#8 false 1#7 0x00#8 0xFF#8 (some clock))))
      = some (.mbc3 ⟨false, 1#7, 0x00#8, 0xFF#8, some ⟨⟨0, 0, 0, 0, 1, 0, 0⟩, clock.rtcl⟩⟩) ∧
    faultOf (exec .mbc3RtcTick (mbc3 0x13#8 false 1#7 0x00#8 0xFF#8 none)) = some .noOscillator := by
  decide +kernel

/-! ### MBC5 -/

/-- V-M5-5, V-M5-6, V-M5-12, V-M5-13, R141: the register writes. -/
theorem test_mbc5_writes :
    let s := withRegs (.mbc5 ⟨false, 0x1AA#9, 0#4⟩) (loaded 0x1B#8 0x02#8 0x04#8)
    regs (next (exec (.mbc5WrRombLo 0x2FFF#16 0x05#8) s)) = some (.mbc5 ⟨false, 0x105#9, 0#4⟩) ∧
    regs (next (exec (.mbc5WrRombHi 0x3000#16 0xFE#8) s)) = some (.mbc5 ⟨false, 0x0AA#9, 0#4⟩) ∧
    regs (next (exec (.mbc5WrRamb 0x4000#16 0x1F#8) s)) = some (.mbc5 ⟨false, 0x1AA#9, 0xF#4⟩) ∧
    regs (next (exec (.mbc5WrRamen 0x1FFF#16 0x0A#8) s)) = some (.mbc5 ⟨true, 0x1AA#9, 0#4⟩) ∧
    next (exec (.mbc5WrIgnored 0x6000#16 0x01#8) s) = { s with response := some .ok } := by
  decide +kernel

/-- V-M5-2, V-M5-3, V-M5-4, V-M5-14: the ROM bank, and reads of both windows. -/
theorem test_mbc5_rom :
    let s := fun b => withRegs (.mbc5 ⟨false, b, 0#4⟩) (loaded 0x1E#8 0x08#8 0x03#8)
    romBank (s 0#9) = some 0 ∧ romBank (s 0x100#9) = some 64 ∧ romBank (s 0x1FF#9) = some 31 ∧
    romBank (withRegs (.mbc5 ⟨false, 9#9, 0#4⟩) (loaded 0x1B#8 0x02#8 0x04#8)) = some 1 ∧
    outcome (exec (.mbc5RdRomx 0x4147#16) (s 96#9)) = some (.data 0x1E#8) ∧
    outcome (exec (.mbc5RdRom0 0x0148#16) (s 96#9)) = some (.data 0x08#8) := by
  decide +kernel

/-- V-M5-8, V-M5-10, V-M5-11, W5: RAM writes and reads. -/
theorem test_mbc5_ram :
    let s := fun en b t rc qc => withRegs (.mbc5 ⟨en, 1#9, b⟩) (loaded t rc qc)
    ramByte (next (exec (.mbc5WrRam 0xA001#16 0x77#8) (s true 0xA#4 0x1E#8 0x08#8 0x03#8))) 0x4001 = some 0x77#8 ∧
    ramByte (next (exec (.mbc5WrRam 0xA000#16 0x31#8) (s true 0xF#4 0x1E#8 0x08#8 0x03#8))) 0x6000 = some 0x31#8 ∧
    ramByte (next (exec (.mbc5WrRam 0xA000#16 0x44#8) (s true 0xF#4 0x1B#8 0x02#8 0x04#8))) 0x1E000 = some 0x44#8 ∧
    outcome (exec (.mbc5RdRam 0xA000#16) (s true 0xF#4 0x1B#8 0x02#8 0x04#8)) = some (.data 0x00#8) ∧
    outcome (exec (.mbc5RdRam 0xA000#16) (s false 0xF#4 0x1B#8 0x02#8 0x04#8)) = some (.data 0xFF#8) := by
  decide +kernel

/-- V-M5-8, V-M5-9: the motor. -/
theorem test_rumble :
    rumbleMotor (withRegs (.mbc5 ⟨false, 1#9, 0xA#4⟩) (loaded 0x1E#8 0x08#8 0x03#8)) = some true ∧
    rumbleMotor (withRegs (.mbc5 ⟨false, 1#9, 0x2#4⟩) (loaded 0x1E#8 0x08#8 0x03#8)) = some false ∧
    rumbleMotor (withRegs (.mbc5 ⟨false, 1#9, 0xA#4⟩) (loaded 0x1B#8 0x02#8 0x04#8)) = none := by
  decide +kernel

/-! ### The other agents, pseudo-operations, the step -/

/-- R52, R20: the host's RAM access ignores the latch, and an MBC2 cell takes four bits. -/
theorem test_host_agent :
    ramByte (next (serve (.hostWriteRam 0x1FFF 0x9E#8) (loaded 0x03#8 0x00#8 0x02#8))) 0x1FFF = some 0x9E#8 ∧
    ramByte (next (serve (.hostWriteRam 0x1FF 0x9E#8) (loaded 0x06#8 0x00#8 0x00#8))) 0x1FF = some 0x0E#8 ∧
    outcome (serve (.hostReadRam 0x2000) (loaded 0x03#8 0x00#8 0x02#8)) = some .hostAbsent ∧
    outcome (serve .hostReadRtc (mbc3 0x10#8 false 1#7 0x00#8 0xFF#8 (some clock))) = some (.hostRtc clock.rtc) ∧
    outcome (serve .hostReadRtc (mbc3 0x13#8 false 1#7 0x00#8 0xFF#8 none)) = some .hostAbsent := by
  decide +kernel

/-- R69: the expansions of SELROM 0x65, SELRAM 0xB and SELRTC 4. -/
theorem test_pseudo :
    selRom 0x165#9 .mbc1 = some [.wr 0x2000#16 0x05#8, .wr 0x4000#16 0x03#8] ∧
    selRom 0x165#9 .mbc2 = some [.wr 0x0100#16 0x05#8] ∧ selRom 0x165#9 .mbc3 = some [.wr 0x2000#16 0x65#8] ∧
    selRom 0x165#9 .mbc5 = some [.wr 0x2000#16 0x65#8, .wr 0x3000#16 0x01#8] ∧
    selRam 0xB#4 .mbc1 = some [.wr 0x6000#16 0x01#8, .wr 0x4000#16 0x03#8] ∧
    selRam 0xB#4 .mbc3 = some [.wr 0x4000#16 0x03#8] ∧ selRam 0xB#4 .mbc5 = some [.wr 0x4000#16 0x0B#8] ∧
    selRtc 4 .mbc3 = some [.wr 0x4000#16 0x0C#8] := by
  decide

/-- R162, R57: no step for a transaction without a cartridge; no run of another variant's operation. -/
theorem test_stops :
    faultOf (step { bare with inputs := [.bus (.rd 0x0000#16)] }) = some .noCartridge ∧
    refusalOf (exec (.mbc1WrMode 0x6000#16 0x01#8) (loaded 0x1B#8 0x02#8 0x04#8)) = some .wrongVariant := by
  decide +kernel

/-- From reset, a table word's operation is what the next step runs (log 8, log 20). -/
theorem test_fetch_word :
    outcome (step (State.reset.withFetchWord 24 0x0C000)) = some (.data 0x00#8) ∧
    regs (next (step (State.reset.withFetchWord 24 0x13000))) = some (.mbc5 ⟨false, 0x001#9, 0#4⟩) ∧
    outcome (step (State.reset.withFetchWord 24 0x00149)) = some (.data 0x02#8) := by
  decide +kernel

/-- A power cycle: the new INIT_WRAM, no cartridge. -/
theorem test_power_cycle :
    next (serve (.powerCycle [0x77#8]) { loaded 0x03#8 0x00#8 0x02#8 with wram := [(0, 0x55#8)] })
      = { bare with params := { params with initWram := [0x77#8] } } := by
  decide +kernel

/-! ### Witnesses: for each statement, a concrete state and operands that meet its hypotheses together

Where a statement has several clauses, one witness for each, at the ends of its range. -/

/-- The loaded cartridge, to name it in a witness. -/
def cartridge (s : State) : Cartridge :=
  s.cart.getD { cfg := { header := headerOf [] .romOnly 2 0, ctype := .romOnly, romBanks := 2, ramBanks := 0
                         image := [], lenient := false }
                regs := .romOnly, ram := [] }

/-- The operation answers a next state. -/
def answers (r : Result) : Bool :=
  match r with
  | .next _ => true
  | .fault _ => false
  | .refused _ => false

theorem eq_next {r : Result} (h : answers r = true) : r = .next (next r) := by
  cases r with
  | next u => rfl
  | fault f => cases h
  | refused e => cases h

/-- A state with a loaded cartridge that is sound. -/
def ready (s : State) : Prop := s.sound = true ∧ s.cart = some (cartridge s)

/-- MBC1 with 4 RAM banks, MBC2, MBC3 with and without a timer, MBC5 with rumble, each with its latch as given. -/
def mbc1On (en : Bool) (mode : BitVec 1) : State := withRegs (.mbc1 ⟨en, 0#5, 3#2, mode⟩) (loaded 0x03#8 0x06#8 0x03#8)
def mbc2On (en : Bool) (romb : BitVec 4) : State := withRegs (.mbc2 ⟨en, romb⟩) (loaded 0x06#8 0x03#8 0x00#8)
def mbc3On (en : Bool) (sel prev : Byte) : State := mbc3 0x10#8 en 0#7 sel prev (some clock)
def mbc3Plain (en : Bool) (sel : Byte) : State := mbc3 0x13#8 en 0#7 sel 0xFF#8 none
def mbc5On (en : Bool) (ramb : BitVec 4) : State := withRegs (.mbc5 ⟨en, 0x1FF#9, ramb⟩) (loaded 0x1E#8 0x08#8 0x03#8)
def romOnly : State := loaded 0x00#8 0x00#8 0x00#8

/-- The registers those states hold. -/
theorem witness_registers :
    (cartridge (mbc1On true 1#1)).regs = .mbc1 ⟨true, 0#5, 3#2, 1#1⟩ ∧
    (cartridge (mbc1On false 0#1)).regs = .mbc1 ⟨false, 0#5, 3#2, 0#1⟩ ∧
    (cartridge (mbc2On true 0#4)).regs = .mbc2 ⟨true, 0#4⟩ ∧ (cartridge (mbc2On false 15#4)).regs = .mbc2 ⟨false, 15#4⟩ ∧
    (cartridge (mbc3On true 7#8 0#8)).regs = .mbc3 ⟨true, 0#7, 7#8, 0#8, some clock⟩ ∧
    (cartridge (mbc3Plain false 13#8)).regs = .mbc3 ⟨false, 0#7, 13#8, 0xFF#8, none⟩ ∧
    (cartridge (mbc5On true 15#4)).regs = .mbc5 ⟨true, 0x1FF#9, 15#4⟩ ∧ (cartridge romOnly).regs = .romOnly := by
  decide +kernel

/-- Those states are sound, with a cartridge. -/
theorem witness_ready :
    ready (mbc1On true 1#1) ∧ ready (mbc1On false 0#1) ∧ ready (mbc2On true 0#4) ∧ ready (mbc2On false 15#4) ∧
    ready (mbc3On true 7#8 0#8) ∧ ready (mbc3Plain false 13#8) ∧ ready (mbc5On true 15#4) ∧ ready (mbc5On false 0#4) ∧
    ready romOnly := by
  unfold ready
  decide +kernel

theorem witness_DecodeOfEncodeIsTheOperation :
    ((Instr.mbc1WrBank1 0x2000#16 0xE3#8).wellFormed = true ∧ (Instr.mbc1WrBank1 0x2000#16 0xE3#8).transaction.isSome = true ∧
      (Instr.mbc1WrBank1 0x2000#16 0xE3#8).belongs .mbc1 = true) ∧
    (Instr.asRdWram 0xDFFF#16).wellFormed = true ∧ (Instr.asRdWram 0xDFFF#16).transaction.isSome = true ∧
      (Instr.asRdWram 0xDFFF#16).belongs .mbc5 = true := by
  decide

theorem witness_AcceptedBytesAreTheEncoding :
    decode .mbc5 [0xFF#8, 0x3F#8, 0x01#8, 0x01#8, 0x99#8] = .ok (.mbc5WrRombHi 0x3FFF#16 0x01#8) [0x99#8] ∧
    decode .mbc2 [0x00#8, 0x00#8, 0x00#8] = .ok (.mbc2RdRom0 0x0000#16) [] := by
  decide

theorem witness_StepRunsTheDecodedOperation :
    (let s := { mbc1On true 1#1 with inputs := [.bus (.rd 0x4000#16), .tick] }
     s.inputs = .bus (.rd 0x4000#16) :: [.tick] ∧ s.cart = some (cartridge s) ∧
       decode (cartridge s).cfg.ctype.variant (Transaction.rd 0x4000#16).bytes = .ok (.mbc1RdRomx 0x4000#16) []) ∧
    ({ bare with inputs := [.load [] none] } : State).inputs = .load [] none :: [] ∧
    ({ bare with inputs := [.tick] } : State).inputs = .tick :: [] := by
  decide +kernel

theorem witness_BusIsStuckWithoutCartridge :
    (let s := { bare with inputs := [.bus (.wr 0xC000#16 0x01#8)] }
     s.cart = none ∧ s.inputs = .bus (.wr 0xC000#16 0x01#8) :: []) ∧
    bare.cart = none ∧ (Instr.asRdWram 0xC000#16).transaction.isSome = true := by
  decide

theorem witness_OtherVariantsOperationIsRefused :
    (mbc5On true 15#4).cart = some (cartridge (mbc5On true 15#4)) ∧
    (Instr.mbc1WrMode 0x6000#16 0x01#8).variant = some .mbc1 ∧
    (Instr.mbc1WrMode 0x6000#16 0x01#8).transaction.isSome = true ∧
    (cartridge (mbc5On true 15#4)).regs.variant ≠ .mbc1 := by
  decide +kernel

theorem witness_StepConsumesInputsInOrder :
    let s := { mbc3On true 7#8 0#8 with inputs := [.tick, .bus (.rd 0x0000#16)] }
    s.inputs = .tick :: [.bus (.rd 0x0000#16)] ∧ step s = .next (next (step s)) :=
  ⟨rfl, eq_next (by decide +kernel)⟩

theorem witness_LoadReportsTheFirstError :
    let code := fun (bytes : List Byte) (o : Nat) => bytes.getD o 0#8
    let types := [0x00#8, 0x01#8, 0x02#8, 0x03#8, 0x05#8, 0x06#8, 0x0F#8, 0x10#8, 0x11#8, 0x12#8, 0x13#8, 0x19#8, 0x1A#8,
      0x1B#8, 0x1C#8, 0x1D#8, 0x1E#8]
    let roms := [0x00#8, 0x01#8, 0x02#8, 0x03#8, 0x04#8, 0x05#8, 0x06#8, 0x07#8, 0x08#8, 0x52#8, 0x53#8, 0x54#8]
    let rams := [0x00#8, 0x01#8, 0x02#8, 0x03#8, 0x04#8, 0x05#8]
    let b2 := header 0x04#8 0x09#8 0x06#8
    let b3 := header 0x1E#8 0x09#8 0x06#8
    let b4 := header 0x1E#8 0x54#8 0x06#8
    let b5 := badLogo (header 0x1E#8 0x54#8 0x05#8)
    ((header 0x00#8 0x00#8 0x00#8).take 0x14F).length < 0x150 ∧
    (0x150 ≤ b2.length ∧ code b2 0x147 ∉ types) ∧
    (0x150 ≤ b3.length ∧ code b3 0x147 ∈ types ∧ code b3 0x148 ∉ roms) ∧
    (0x150 ≤ b4.length ∧ code b4 0x147 ∈ types ∧ code b4 0x148 ∈ roms ∧ code b4 0x149 ∉ rams) ∧
    (0x150 ≤ b5.length ∧ code b5 0x147 ∈ types ∧ code b5 0x148 ∈ roms ∧ code b5 0x149 ∈ rams ∧
      (none : Option Bool).getD bare.params.checkLogo = true ∧ (b5.drop 0x104).take 48 ≠ logoRef) := by
  decide +kernel

/-- The state a load of MBC2 RAM, and one of MBC1 RAM, starts from; byte 1 is the last byte that INIT_CART_RAM gives. -/
def supplied : State := { bare with params := { params with initCartRam := [0x3C#8, 0xA5#8] } }

theorem witness_LoadReplacesTheCartridge :
    let b := header 0x06#8 0x54#8 0x00#8
    let b' := header 0x03#8 0x00#8 0x02#8
    (0x150 ≤ b.length ∧ resolve (b.getD 0x147 0#8) (b.getD 0x148 0#8) = some (.mbc2 0x54#8 true) ∧
      romBanks (b.getD 0x148 0#8) = some 96 ∧ ramBanks (b.getD 0x149 0#8) = some 0 ∧
      (none.getD supplied.params.checkLogo = true → (b.drop 0x104).take 48 = logoRef) ∧
      1 < (cartridge (next (exec (.load b none) supplied))).cfg.ramSize ∧ 1 < supplied.params.initCartRam.length) ∧
    (0x150 ≤ b'.length ∧ resolve (b'.getD 0x147 0#8) (b'.getD 0x148 0#8) = some (.mbc1 0x00#8 true true) ∧
      romBanks (b'.getD 0x148 0#8) = some 2 ∧ ramBanks (b'.getD 0x149 0#8) = some 1 ∧
      ((some false).getD supplied.params.checkLogo = true → (b'.drop 0x104).take 48 = logoRef) ∧
      1 < (cartridge (next (exec (.load b' none) supplied))).cfg.ramSize) := by
  decide +kernel

/-- A load of each variant completes as Loaded: for the statements on what a load leaves. -/
theorem witness_Loads (b : List Byte) (h : b = header 0x00#8 0x00#8 0x00#8 ∨ b = header 0x03#8 0x54#8 0x05#8 ∨
      b = header 0x06#8 0x03#8 0x00#8 ∨ b = header 0x10#8 0x05#8 0x03#8 ∨ b = header 0x13#8 0x05#8 0x03#8 ∨
      b = header 0x1E#8 0x08#8 0x03#8) :
    exec (.load b none) bare = .next (next (exec (.load b none) bare)) ∧
    (next (exec (.load b none) bare)).response = some .loaded ∧
    (next (exec (.load b none) bare)).cart = some (cartridge (next (exec (.load b none) bare))) ∧ 0x150 ≤ b.length := by
  rcases h with rfl | rfl | rfl | rfl | rfl | rfl <;> exact ⟨eq_next (by decide +kernel), by decide +kernel⟩

/-- LoadedHeaderFields: a title shorter than 16, with the byte after it. -/
theorem witness_LoadedHeaderFields :
    let b := header 0x00#8 0x00#8 0x00#8
    let c := cartridge (next (exec (.load b none) bare))
    c.cfg.header.title.length = 4 ∧ b[0x134 + c.cfg.header.title.length]? = some 0x00#8 := by
  decide +kernel

/-- LoadedTypeIsTheTables: a code outside the table. -/
theorem witness_LoadedTypeIsTheTables :
    let b := header 0x04#8 0x00#8 0x00#8
    0x150 ≤ b.length ∧ exec (.load b none) bare = .next (next (exec (.load b none) bare)) ∧ b.getD 0x147 0#8 = 0x04#8 :=
  ⟨by decide +kernel, eq_next (by decide +kernel), by decide +kernel⟩

/-- LoadResetsTheRegisters: each variant's premise, on the loads of `witness_Loads`. -/
theorem witness_LoadResetsTheRegisters :
    (cartridge (loaded 0x00#8 0x00#8 0x00#8)).cfg.ctype.variant = .romOnly ∧
    (cartridge (loaded 0x03#8 0x54#8 0x05#8)).cfg.ctype.variant = .mbc1 ∧
    (cartridge (loaded 0x06#8 0x03#8 0x00#8)).cfg.ctype.variant = .mbc2 ∧
    (cartridge (loaded 0x10#8 0x05#8 0x03#8)).cfg.ctype.variant = .mbc3 ∧
    (cartridge (loaded 0x1E#8 0x08#8 0x03#8)).cfg.ctype.variant = .mbc5 := by
  decide +kernel

/-- The ends of every address range that a statement names. -/
theorem witness_ranges :
    (0x0000#16 : Addr).toNat ≤ 0x3FFF ∧ (0x3FFF#16 : Addr).toNat ≤ 0x3FFF ∧
    [0x4000#16, 0x7FFF#16].all (fun a => Addr.within a 0x4000 0x7FFF) = true ∧
    [0x8000#16, 0x9FFF#16].all (fun a => Addr.within a 0x8000 0x9FFF) = true ∧
    [0xA000#16, 0xBFFF#16].all (fun a => Addr.within a 0xA000 0xBFFF) = true ∧
    [0xC000#16, 0xDFFF#16].all (fun a => Addr.within a 0xC000 0xDFFF) = true ∧
    [0xE000#16, 0xFFFF#16].all (fun a => Addr.within a 0xE000 0xFFFF) = true ∧
    [0x0000#16, 0x1FFF#16].all (fun a => Addr.within a 0x0000 0x1FFF) = true ∧
    [0x2000#16, 0x3FFF#16].all (fun a => Addr.within a 0x2000 0x3FFF) = true ∧
    [0x2000#16, 0x2FFF#16].all (fun a => Addr.within a 0x2000 0x2FFF) = true ∧
    [0x3000#16, 0x3FFF#16].all (fun a => Addr.within a 0x3000 0x3FFF) = true ∧
    [0x4000#16, 0x5FFF#16].all (fun a => Addr.within a 0x4000 0x5FFF) = true ∧
    [0x6000#16, 0x7FFF#16].all (fun a => Addr.within a 0x6000 0x7FFF) = true ∧
    [0x0000#16, 0x3EFF#16].all (fun a => Addr.within a 0x0000 0x3FFF && !a.getLsbD 8) = true ∧
    [0x0100#16, 0x3FFF#16].all (fun a => Addr.within a 0x0000 0x3FFF && a.getLsbD 8) = true := by
  decide

theorem witness_PowerOnState : 0 < [0x77#8].length := by decide

theorem witness_WramAccess :
    ready romOnly ∧ 0xC000 ≤ (0xC000#16 : Addr).toNat ∧ (0xDFFF#16 : Addr).toNat ≤ 0xDFFF :=
  ⟨witness_ready.2.2.2.2.2.2.2.2, by decide⟩

theorem witness_UnmappedAccessResult :
    romOnly.cart = some (cartridge romOnly) ∧ 0x8000 ≤ (0x8000#16 : Addr).toNat ∧ (0x9FFF#16 : Addr).toNat ≤ 0x9FFF ∧
    0xE000 ≤ (0xE000#16 : Addr).toNat := by
  decide +kernel

/-- AddressingErrorOnlyWhenUnmapped, AddressingErrorIsNotRemembered: a read and a write that end so. -/
theorem witness_AddressingErrors :
    (serveBus (.rd 0x9FFF#16) romOnly = .next (next (serveBus (.rd 0x9FFF#16) romOnly)) ∧
      (next (serveBus (.rd 0x9FFF#16) romOnly)).response = some (.addrErr 0x9FFF#16 .read)) ∧
    (serveBus (.wr 0xE000#16 0x12#8) romOnly = .next (next (serveBus (.wr 0xE000#16 0x12#8) romOnly)) ∧
      (next (serveBus (.wr 0xE000#16 0x12#8) romOnly)).response = some (.addrErr 0xE000#16 .write)) :=
  ⟨⟨eq_next (by decide +kernel), by decide +kernel⟩, eq_next (by decide +kernel), by decide +kernel⟩

theorem witness_EveryOperationCompletes : ready (mbc1On true 1#1) := witness_ready.1

theorem witness_ReadsHaveNoSideEffect :
    serveBus (.rd 0xA000#16) (mbc3On true 8#8 0#8) = .next (next (serveBus (.rd 0xA000#16) (mbc3On true 8#8 0#8))) :=
  eq_next (by decide +kernel)

/-- The latch write that copies the clock, on a sound state. -/
theorem witness_RepeatingATransactionChangesNothing :
    let s := mbc3On true 7#8 0#8
    s.sound = true ∧ serveBus (.wr 0x6000#16 0x01#8) s = .next (next (serveBus (.wr 0x6000#16 0x01#8) s)) :=
  ⟨witness_ready.2.2.2.2.1.1, eq_next (by decide +kernel)⟩

theorem witness_TransactionsKeepTheConfiguration :
    let s := mbc5On true 15#4
    s.cart = some (cartridge s) ∧ serveBus (.wr 0x2000#16 0x01#8) s = .next (next (serveBus (.wr 0x2000#16 0x01#8) s)) :=
  ⟨by decide +kernel, eq_next (by decide +kernel)⟩

/-- One transaction that changes each of the three: internal RAM, cartridge RAM, the registers. -/
theorem witness_StorageSpacesDoNotAlias :
    let s := mbc1On true 1#1
    let u := fun t => next (serveBus t s)
    s.cart = some (cartridge s) ∧
    (serveBus (.wr 0xDFFF#16 0x01#8) s = .next (u (.wr 0xDFFF#16 0x01#8)) ∧
      (u (.wr 0xDFFF#16 0x01#8)).cart = some (cartridge (u (.wr 0xDFFF#16 0x01#8))) ∧
      (u (.wr 0xDFFF#16 0x01#8)).wram ≠ s.wram) ∧
    (serveBus (.wr 0xBFFF#16 0x01#8) s = .next (u (.wr 0xBFFF#16 0x01#8)) ∧
      (u (.wr 0xBFFF#16 0x01#8)).cart = some (cartridge (u (.wr 0xBFFF#16 0x01#8))) ∧
      (cartridge (u (.wr 0xBFFF#16 0x01#8))).ram ≠ (cartridge s).ram) ∧
    (serveBus (.wr 0x7FFF#16 0x00#8) s = .next (u (.wr 0x7FFF#16 0x00#8)) ∧
      (u (.wr 0x7FFF#16 0x00#8)).cart = some (cartridge (u (.wr 0x7FFF#16 0x00#8))) ∧
      (cartridge (u (.wr 0x7FFF#16 0x00#8))).regs.setLive clock.rtc ≠ (cartridge s).regs.setLive clock.rtc) :=
  ⟨by decide +kernel, ⟨eq_next (by decide +kernel), by decide +kernel⟩, ⟨eq_next (by decide +kernel), by decide +kernel⟩,
    eq_next (by decide +kernel), by decide +kernel⟩

/-- A register write, and a load, that change the registers. -/
theorem witness_BankRegistersChangeOnlyByWriteOrLoad :
    let s := mbc1On true 1#1
    let u := next (serve (.bus (.wr 0x7FFF#16 0x00#8)) s)
    let w := next (serve (.load (header 0x06#8 0x03#8 0x00#8) none) s)
    s.cart = some (cartridge s) ∧
    (serve (.bus (.wr 0x7FFF#16 0x00#8)) s = .next u ∧ u.cart = some (cartridge u) ∧
      (cartridge u).regs.setLive clock.rtc ≠ (cartridge s).regs.setLive clock.rtc) ∧
    (serve (.load (header 0x06#8 0x03#8 0x00#8) none) s = .next w ∧ w.cart = some (cartridge w) ∧
      (cartridge w).regs.setLive clock.rtc ≠ (cartridge s).regs.setLive clock.rtc) :=
  ⟨by decide +kernel, ⟨eq_next (by decide +kernel), by decide +kernel⟩, eq_next (by decide +kernel), by decide +kernel⟩

/-- The last byte of an MBC1's four banks, and the last cell of an MBC2. -/
theorem witness_HostSaveAgentAccess :
    ready (mbc1On false 0#1) ∧ 0x7FFF < (cartridge (mbc1On false 0#1)).cfg.ramSize ∧
    ready (mbc2On false 15#4) ∧ 511 < (cartridge (mbc2On false 15#4)).cfg.ramSize :=
  ⟨witness_ready.2.1, by decide +kernel, witness_ready.2.2.2.1, by decide +kernel⟩

/-- HostClockAccess, RtcTickResult, and the clock clauses of Mbc3WindowRead and Mbc3WindowWrite: an MBC3 with a timer, for
each `sel` from 0x08 to 0x0C. -/
theorem witness_Mbc3Clock :
    [0x08#8, 0x09#8, 0x0A#8, 0x0B#8, 0x0C#8].all (fun sel =>
      let s := mbc3On true sel 0#8
      s.cart == some (cartridge s) && (cartridge s).regs == .mbc3 ⟨true, 0#7, sel, 0#8, some clock⟩ &&
        (cartridge s).cfg.ctype.hasTimer && Nat.ble 8 sel.toNat && Nat.ble sel.toNat 12) = true := by
  decide +kernel

/-- RtcTickResult: a halted clock, and one in each stage. -/
theorem witness_RtcTickResult :
    (⟨10, 0, 0, 0, 0, 1, 0⟩ : Rtc).HALT = 1#1 ∧ (⟨5, 0, 0, 0, 0, 0, 0⟩ : Rtc).HALT = 0#1 ∧
    (⟨5, 0, 0, 0, 0, 0, 0⟩ : Rtc).S.toNat ≠ 59 ∧ (⟨59, 0, 0, 0, 0, 0, 0⟩ : Rtc).S.toNat = 59 ∧
    (⟨59, 59, 0, 0, 0, 0, 0⟩ : Rtc).M.toNat = 59 ∧ (⟨59, 59, 23, 0, 0, 0, 0⟩ : Rtc).H.toNat = 23 ∧
    256 * (⟨59, 59, 23, 0xFF, 1, 0, 0⟩ : Rtc).DH0.toNat + (⟨59, 59, 23, 0xFF, 1, 0, 0⟩ : Rtc).DL.toNat = 511 := by
  decide

theorem witness_RtcTickCountsSeconds :
    let f : Rtc := ⟨59, 59, 23, 0xFF, 1, 0, 0⟩
    f.S.toNat < 60 ∧ f.M.toNat < 60 ∧ f.H.toNat < 24 ∧ f.HALT = 0#1 ∧ rtcSeconds f + 1 = 512 * 86400 := by
  decide

theorem witness_NoTickWithoutTimer :
    (∀ c, bare.cart = some c → c.cfg.ctype.hasTimer = false) ∧
    ∀ c, (mbc3Plain false 13#8).cart = some c → c.cfg.ctype.hasTimer = false := by
  refine ⟨fun c h => (by cases h), fun c h => ?_⟩
  rw [← Option.some.inj (witness_ready.2.2.2.2.2.1.2.symm.trans h)]
  decide +kernel

/-- A copying latch write, and a load with another INIT_RTC. -/
theorem witness_LatchedCopyChangesOnlyByLatch :
    let s := { mbc3On false 8#8 0#8 with params := { params with initRtc := clock.rtc } }
    let latchIt : Input := .bus (.wr 0x6000#16 0x01#8)
    let loadIt : Input := .load (header 0x10#8 0x05#8 0x03#8) none
    (s.cart = some (cartridge s) ∧ (cartridge s).regs = .mbc3 ⟨false, 0#7, 8#8, 0#8, some clock⟩) ∧
    (serve latchIt s = .next (next (serve latchIt s)) ∧
      (next (serve latchIt s)).cart = some (cartridge (next (serve latchIt s))) ∧
      (cartridge (next (serve latchIt s))).regs = .mbc3 ⟨false, 0#7, 8#8, 1#8, some ⟨clock.rtc, clock.rtc⟩⟩) ∧
    (serve loadIt s = .next (next (serve loadIt s)) ∧
      (next (serve loadIt s)).cart = some (cartridge (next (serve loadIt s))) ∧
      (cartridge (next (serve loadIt s))).regs = .mbc3 ⟨false, 1#7, 0#8, 0xFF#8, some ⟨clock.rtc, clock.rtc⟩⟩) ∧
    clock.rtc ≠ clock.rtcl :=
  ⟨by decide +kernel, ⟨eq_next (by decide +kernel), by decide +kernel⟩, ⟨eq_next (by decide +kernel), by decide +kernel⟩,
    by decide⟩

/-- RomOnlyReads, RomOnlyWritesAreNoOps, RomOnlyInvariance. -/
theorem witness_RomOnly :
    ready romOnly ∧ (cartridge romOnly).regs = .romOnly ∧ (cartridge romOnly).cfg.ctype = .romOnly ∧
    [0x0000#16, 0x3FFF#16, 0x4000#16, 0x7FFF#16, 0xA000#16, 0xBFFF#16].all cartAddress = true :=
  ⟨witness_ready.2.2.2.2.2.2.2.2, by decide +kernel⟩

/-- Mbc1RamAccess: accessible, and not, in each of the three ways. -/
theorem witness_Mbc1RamAccess :
    let s := mbc1On true 1#1
    let noRam := withRegs (.mbc1 ⟨true, 1#5, 0#2, 0#1⟩) (loaded 0x01#8 0x00#8 0x03#8)
    let noBank := withRegs (.mbc1 ⟨true, 1#5, 0#2, 0#1⟩) (loaded 0x03#8 0x00#8 0x00#8)
    (s.sound = true ∧ (cartridge s).cfg.ctype.hasRam = true ∧ 1 ≤ (cartridge s).cfg.ramBanks) ∧
    (noRam.sound = true ∧ noRam.cart = some (cartridge noRam) ∧ (cartridge noRam).regs = .mbc1 ⟨true, 1#5, 0#2, 0#1⟩ ∧
      (cartridge noRam).cfg.ctype.hasRam = false) ∧
    (noBank.sound = true ∧ noBank.cart = some (cartridge noBank) ∧
      (cartridge noBank).regs = .mbc1 ⟨true, 1#5, 0#2, 0#1⟩ ∧ (cartridge noBank).cfg.ramBanks = 0) := by
  decide +kernel

/-- The RAM clauses of Mbc3WindowRead and Mbc3WindowWrite: `sel` 0 and 7, usable RAM. -/
theorem witness_Mbc3WindowRam :
    let s := mbc3On true 7#8 0#8
    let s' := mbc3On true 0#8 0#8
    (s.sound = true ∧ s.cart = some (cartridge s) ∧ (cartridge s).cfg.ctype.hasRam = true ∧ 1 ≤ (cartridge s).cfg.ramBanks ∧
      (7#8 : Byte).toNat ≤ 7) ∧
    (s'.sound = true ∧ s'.cart = some (cartridge s') ∧ (cartridge s').regs = .mbc3 ⟨true, 0#7, 0#8, 0#8, some clock⟩) := by
  decide +kernel

/-- The last clauses of Mbc3WindowRead and Mbc3WindowWrite: each of the four ways to reach nothing. -/
theorem witness_Mbc3WindowOpen :
    let noRam := mbc3 0x11#8 true 0#7 7#8 0xFF#8 none
    ((mbc3On false 8#8 0#8).cart = some (cartridge (mbc3On false 8#8 0#8)) ∧
      (cartridge (mbc3On false 8#8 0#8)).regs = .mbc3 ⟨false, 0#7, 8#8, 0#8, some clock⟩ ∧
      (cartridge (mbc3On false 8#8 0#8)).cfg.ctype.variant = .mbc3) ∧
    ((cartridge (mbc3On true 13#8 0#8)).regs = .mbc3 ⟨true, 0#7, 13#8, 0#8, some clock⟩ ∧ 12 < (13#8 : Byte).toNat) ∧
    ((cartridge (mbc3Plain true 8#8)).regs = .mbc3 ⟨true, 0#7, 8#8, 0xFF#8, none⟩ ∧ 7 < (8#8 : Byte).toNat ∧
      (cartridge (mbc3Plain true 8#8)).cfg.ctype.hasTimer = false) ∧
    (noRam.cart = some (cartridge noRam) ∧ (cartridge noRam).regs = .mbc3 ⟨true, 0#7, 7#8, 0xFF#8, none⟩ ∧
      (7#8 : Byte).toNat ≤ 7 ∧ (cartridge noRam).cfg.ctype.hasRam = false) := by
  decide +kernel

/-- Mbc5RamAccess: accessible with rumble and without it, and not accessible. -/
theorem witness_Mbc5RamAccess :
    let s := mbc5On true 15#4
    let plain := withRegs (.mbc5 ⟨true, 1#9, 15#4⟩) (loaded 0x1B#8 0x02#8 0x04#8)
    let noRam := withRegs (.mbc5 ⟨true, 1#9, 0#4⟩) (loaded 0x19#8 0x02#8 0x04#8)
    ((cartridge s).cfg.ctype.hasRumble = true ∧ (cartridge s).cfg.ctype.hasRam = true ∧ 1 ≤ (cartridge s).cfg.ramBanks) ∧
    (plain.sound = true ∧ plain.cart = some (cartridge plain) ∧ (cartridge plain).cfg.ctype.hasRumble = false ∧
      (cartridge plain).cfg.ctype.hasRam = true ∧ 1 ≤ (cartridge plain).cfg.ramBanks) ∧
    (noRam.sound = true ∧ noRam.cart = some (cartridge noRam) ∧ (cartridge noRam).cfg.ctype.hasRam = false) := by
  decide +kernel

theorem witness_RumbleMotorFollowsRamb :
    let s := mbc5On true 0#4
    let plain := withRegs (.mbc5 ⟨true, 1#9, 15#4⟩) (loaded 0x1B#8 0x02#8 0x04#8)
    (s.cart = some (cartridge s) ∧ (cartridge s).regs = .mbc5 ⟨true, 0x1FF#9, 0#4⟩ ∧
      (cartridge s).cfg.ctype.hasRumble = true) ∧
    (plain.cart = some (cartridge plain) ∧ (cartridge plain).regs = .mbc5 ⟨true, 1#9, 15#4⟩ ∧
      (cartridge plain).cfg.ctype.hasRumble = false) := by
  decide +kernel

theorem witness_StepKeepsTheStateSound :
    let s := { mbc1On true 1#1 with inputs := [.bus (.wr 0xBFFF#16 0x42#8)] }
    s.sound = true ∧ step s = .next (next (step s)) :=
  ⟨by decide +kernel, eq_next (by decide +kernel)⟩

/-- StepStopsOnlyWhereThereIsNoStep: a sound state in each of its three cases. -/
theorem witness_StepStopsOnlyWhereThereIsNoStep :
    ({ mbc1On true 1#1 with inputs := [.bus (.rd 0xBFFF#16)] } : State).sound = true ∧
    ({ State.reset with inputs := [.bus (.rd 0x0000#16)] } : State).sound = true ∧
    ({ mbc3Plain false 13#8 with inputs := [.tick] } : State).sound = true := by
  decide +kernel

/-- BanksStayBelowTheirCounts: usable RAM of MBC1, MBC3 and MBC5. -/
theorem witness_BanksStayBelowTheirCounts :
    (cartridge (mbc1On true 1#1)).cfg.ramUsable = true ∧ (cartridge (mbc3On true 7#8 0#8)).cfg.ramUsable = true ∧
    (cartridge (mbc5On true 15#4)).cfg.ramUsable = true := by
  decide +kernel

/-- DisabledRamIsOpenBus: a clear latch in every variant. -/
theorem witness_DisabledRamIsOpenBus :
    [mbc1On false 0#1, mbc2On false 15#4, mbc3On false 8#8 0#8, mbc3Plain false 0#8, mbc5On false 0#4, romOnly].all
      (fun s => s.sound && s.cart == some (cartridge s) && !(cartridge s).regs.ramEnabled) = true := by
  decide +kernel

/-- SelRomSelectsTheBank: each variant that has the pseudo-operation, at the ends of `n`. -/
theorem witness_SelRomSelectsTheBank :
    [mbc1On false 0#1, mbc2On false 15#4, mbc3On false 8#8 0#8, mbc5On false 0#4].all (fun s =>
      s.sound && s.cart == some (cartridge s) && (selRom 0#9 (cartridge s).cfg.ctype.variant).isSome
        && (selRom 511#9 (cartridge s).cfg.ctype.variant).isSome) = true ∧
    ∀ r, (cartridge (mbc1On false 0#1)).regs = .mbc1 r → r.mode = 0#1 := by
  refine ⟨by decide +kernel, fun r h => ?_⟩
  rw [witness_registers.2.1] at h
  cases h
  rfl

/-- SelRamAndSelRtcSelectTheTarget: each variant that has the pseudo-operations, at the ends of `n`. -/
theorem witness_SelRamAndSelRtcSelectTheTarget :
    [mbc1On false 0#1, mbc3On false 8#8 0#8, mbc5On false 0#4].all (fun s =>
      s.sound && s.cart == some (cartridge s) && (selRam 0#4 (cartridge s).cfg.ctype.variant).isSome
        && (selRam 15#4 (cartridge s).cfg.ctype.variant).isSome) = true ∧
    (selRtc 0 (cartridge (mbc3On false 8#8 0#8)).cfg.ctype.variant).isSome = true ∧
    (selRtc 4 (cartridge (mbc3On false 8#8 0#8)).cfg.ctype.variant).isSome = true := by
  decide +kernel

theorem witness_LatchCopiesTheLiveClock :
    ready (mbc3On true 7#8 0#8) ∧ (cartridge (mbc3On true 7#8 0#8)).regs = .mbc3 ⟨true, 0#7, 7#8, 0#8, some clock⟩ ∧
    latch (cartridge (mbc3On true 7#8 0#8)).cfg.ctype.variant = some [.wr 0x6000#16 0x00#8, .wr 0x6000#16 0x01#8] :=
  ⟨witness_ready.2.2.2.2.1, by decide +kernel⟩

theorem witness_RamOnAndRamOff :
    [mbc1On false 0#1, mbc2On true 0#4, mbc3Plain false 13#8, mbc5On true 15#4].all (fun s =>
      s.sound && s.cart == some (cartridge s) && (ramOn (cartridge s).cfg.ctype.variant).isSome
        && (ramOff (cartridge s).cfg.ctype.variant).isSome) = true := by
  decide +kernel

end Sys2Proof.Tests
end

section
/-! Every bus transaction is some well-formed operation of the loaded variant, and on a sound cartridge each such
operation completes with an outcome of 00_scope R9. -/

namespace Sys2Proof

theorem Addr.within_iff {a : Addr} {lo hi : Nat} : Addr.within a lo hi = true ↔ lo ≤ a.toNat ∧ a.toNat ≤ hi := by
  simp only [Addr.within, Bool.and_eq_true, Nat.ble_eq]

/-- `i` is a well-formed operation of the variant, issued by `t`. -/
structure Instr.Serves (i : Instr) (vr : Variant) (t : Transaction) : Prop where
  wellFormed : i.wellFormed = true
  belongs : i.belongs vr = true
  transaction : i.transaction = some t

/-- The address map of 20_memory R38. -/
theorem Addr.window_cases (a : Addr) :
    Addr.within a 0x0000 0x3FFF = true ∨ Addr.within a 0x4000 0x7FFF = true ∨ Addr.within a 0x8000 0x9FFF = true ∨
    Addr.within a 0xA000 0xBFFF = true ∨ Addr.within a 0xC000 0xDFFF = true ∨ Addr.within a 0xE000 0xFFFF = true := by
  have := a.isLt
  simp only [Addr.within_iff]
  omega

theorem Addr.lower_window_halves {a : Addr} (h : Addr.within a 0x0000 0x3FFF = true) :
    Addr.within a 0x0000 0x1FFF = true ∨ Addr.within a 0x2000 0x3FFF = true := by
  simp only [Addr.within_iff] at *
  omega

theorem Addr.upper_window_halves {a : Addr} (h : Addr.within a 0x4000 0x7FFF = true) :
    Addr.within a 0x4000 0x5FFF = true ∨ Addr.within a 0x6000 0x7FFF = true := by
  simp only [Addr.within_iff] at *
  omega

theorem Addr.rom_of_lower_window {a : Addr} (h : Addr.within a 0x0000 0x3FFF = true) :
    Addr.within a 0x0000 0x7FFF = true := by
  simp only [Addr.within_iff] at *
  omega

theorem Addr.rom_of_upper_window {a : Addr} (h : Addr.within a 0x4000 0x7FFF = true) :
    Addr.within a 0x0000 0x7FFF = true := by
  simp only [Addr.within_iff] at *
  omega

/-- The two ranges of the MBC5 ROM bank register, `romb[7:0]` and `romb[8]` (46_mbc5 R142, R143). -/
theorem Addr.mbc5_romb_halves {a : Addr} (h : Addr.within a 0x2000 0x3FFF = true) :
    Addr.within a 0x2000 0x2FFF = true ∨ Addr.within a 0x3000 0x3FFF = true := by
  simp only [Addr.within_iff] at *
  omega

theorem exists_serves_rd (vr : Variant) (a : Addr) : ∃ i : Instr, i.Serves vr (.rd a) := by
  obtain h | h | h | h | h | h := Addr.window_cases a
  · cases vr with
    | romOnly => exact ⟨.romRdRom0 a, h, rfl, rfl⟩
    | mbc1 => exact ⟨.mbc1RdRom0 a, h, rfl, rfl⟩
    | mbc2 => exact ⟨.mbc2RdRom0 a, h, rfl, rfl⟩
    | mbc3 => exact ⟨.mbc3RdRom0 a, h, rfl, rfl⟩
    | mbc5 => exact ⟨.mbc5RdRom0 a, h, rfl, rfl⟩
  · cases vr with
    | romOnly => exact ⟨.romRdRomx a, h, rfl, rfl⟩
    | mbc1 => exact ⟨.mbc1RdRomx a, h, rfl, rfl⟩
    | mbc2 => exact ⟨.mbc2RdRomx a, h, rfl, rfl⟩
    | mbc3 => exact ⟨.mbc3RdRomx a, h, rfl, rfl⟩
    | mbc5 => exact ⟨.mbc5RdRomx a, h, rfl, rfl⟩
  · exact ⟨.asRdUnmapped8000 a, h, rfl, rfl⟩
  · cases vr with
    | romOnly => exact ⟨.romRdRam a, h, rfl, rfl⟩
    | mbc1 => exact ⟨.mbc1RdRam a, h, rfl, rfl⟩
    | mbc2 => exact ⟨.mbc2RdRam a, h, rfl, rfl⟩
    | mbc3 => exact ⟨.mbc3RdRam a, h, rfl, rfl⟩
    | mbc5 => exact ⟨.mbc5RdRam a, h, rfl, rfl⟩
  · exact ⟨.asRdWram a, h, rfl, rfl⟩
  · exact ⟨.asRdUnmappedE000 a, h, rfl, rfl⟩

/-- The register writes of the lower ROM window. -/
theorem exists_serves_wr_lower (vr : Variant) {a : Addr} (v : Byte) (h : Addr.within a 0x0000 0x3FFF = true) :
    ∃ i : Instr, i.Serves vr (.wr a v) := by
  have halves := Addr.lower_window_halves h
  cases vr with
  | romOnly => exact ⟨.romWrRom a v, Addr.rom_of_lower_window h, rfl, rfl⟩
  | mbc1 =>
    obtain h | h := halves
    · exact ⟨.mbc1WrRamen a v, h, rfl, rfl⟩
    · exact ⟨.mbc1WrBank1 a v, h, rfl, rfl⟩
  | mbc2 =>
    cases h8 : a.getLsbD 8
    · exact ⟨.mbc2WrRamen a v, by simp only [Instr.wellFormed, h, h8]; rfl, rfl, rfl⟩
    · exact ⟨.mbc2WrRomb a v, by simp only [Instr.wellFormed, h, h8]; rfl, rfl, rfl⟩
  | mbc3 =>
    obtain h | h := halves
    · exact ⟨.mbc3WrRamen a v, h, rfl, rfl⟩
    · exact ⟨.mbc3WrRomb a v, h, rfl, rfl⟩
  | mbc5 =>
    obtain h | h := halves
    · exact ⟨.mbc5WrRamen a v, h, rfl, rfl⟩
    · obtain h | h := Addr.mbc5_romb_halves h
      · exact ⟨.mbc5WrRombLo a v, h, rfl, rfl⟩
      · exact ⟨.mbc5WrRombHi a v, h, rfl, rfl⟩

/-- The register writes of the upper ROM window. -/
theorem exists_serves_wr_upper (vr : Variant) {a : Addr} (v : Byte) (h : Addr.within a 0x4000 0x7FFF = true) :
    ∃ i : Instr, i.Serves vr (.wr a v) := by
  have halves := Addr.upper_window_halves h
  cases vr with
  | romOnly => exact ⟨.romWrRom a v, Addr.rom_of_upper_window h, rfl, rfl⟩
  | mbc1 =>
    obtain h | h := halves
    · exact ⟨.mbc1WrBank2 a v, h, rfl, rfl⟩
    · exact ⟨.mbc1WrMode a v, h, rfl, rfl⟩
  | mbc2 => exact ⟨.mbc2WrIgnored a v, h, rfl, rfl⟩
  | mbc3 =>
    obtain h | h := halves
    · exact ⟨.mbc3WrSel a v, h, rfl, rfl⟩
    · exact ⟨.mbc3WrLatch a v, h, rfl, rfl⟩
  | mbc5 =>
    obtain h | h := halves
    · exact ⟨.mbc5WrRamb a v, h, rfl, rfl⟩
    · exact ⟨.mbc5WrIgnored a v, h, rfl, rfl⟩

theorem exists_serves_wr (vr : Variant) (a : Addr) (v : Byte) : ∃ i : Instr, i.Serves vr (.wr a v) := by
  obtain h | h | h | h | h | h := Addr.window_cases a
  · exact exists_serves_wr_lower vr v h
  · exact exists_serves_wr_upper vr v h
  · exact ⟨.asWrUnmapped8000 a v, h, rfl, rfl⟩
  · cases vr with
    | romOnly => exact ⟨.romWrRam a v, h, rfl, rfl⟩
    | mbc1 => exact ⟨.mbc1WrRam a v, h, rfl, rfl⟩
    | mbc2 => exact ⟨.mbc2WrRam a v, h, rfl, rfl⟩
    | mbc3 => exact ⟨.mbc3WrRam a v, h, rfl, rfl⟩
    | mbc5 => exact ⟨.mbc5WrRam a v, h, rfl, rfl⟩
  · exact ⟨.asWrWram a v, h, rfl, rfl⟩
  · exact ⟨.asWrUnmappedE000 a v, h, rfl, rfl⟩

/-- Every transaction is a well-formed operation of whichever variant is loaded (30_encoding R70). -/
theorem exists_serves (vr : Variant) (t : Transaction) : ∃ i : Instr, i.Serves vr t := by
  cases t with
  | rd a => exact exists_serves_rd vr a
  | wr a v => exact exists_serves_wr vr a v

namespace Machine

/-- The outcomes 00_scope R9 allows a transaction. -/
inductive MayEnd : Transaction → Response → Prop where
  | data (a : Addr) (v : Byte) : MayEnd (.rd a) (.data v)
  | readError (a : Addr) : MayEnd (.rd a) (.addrErr a .read)
  | ok (a : Addr) (v : Byte) : MayEnd (.wr a v) .ok
  | writeError (a : Addr) (v : Byte) : MayEnd (.wr a v) (.addrErr a .write)

theorem mayEnd_rd {a : Addr} {r : Response} (h : MayEnd (.rd a) r) :
    (∃ v, r = .data v) ∨ r = .addrErr a .read := by
  cases h with
  | data _ v => exact .inl ⟨v, rfl⟩
  | readError => exact .inr rfl

theorem mayEnd_wr {a : Addr} {v : Byte} {r : Response} (h : MayEnd (.wr a v) r) :
    r = .ok ∨ r = .addrErr a .write := by
  cases h with
  | ok => exact .inl rfl
  | writeError => exact .inr rfl

/-- The result is a next state whose outcome is one the transaction may end with. -/
def Completes (t : Transaction) (res : Result) : Prop :=
  ∃ u r, res = .next u ∧ u.response = some r ∧ MayEnd t r

section completes
variable {s : State} {c : Cartridge} {t : Transaction}

/-- The last operation of every meaning: `respond`, `done`, `writeRegs` and `writeRam` are all an `answer`. -/
theorem completes_answer {r : Response} (h : MayEnd t r) : Completes t (answer s r) := ⟨_, r, rfl, rfl, h⟩

theorem completes_withCart {k : Cartridge → Result} (hc : s.cart = some c) (h : Completes t (k c)) :
    Completes t (withCart s k) := by
  rwa [withCart_eq hc]

theorem completes_onRomOnly {k : Cartridge → Result} (hc : s.cart = some c) (hv : c.regs.variant = .romOnly)
    (h : Completes t (k c)) : Completes t (onRomOnly s k) := by
  cases hr : c.regs with
  | romOnly => rwa [onRomOnly_eq hc hr]
  | mbc1 | mbc2 | mbc3 | mbc5 =>
    rw [hr] at hv
    cases hv

theorem completes_onMbc1 {k : Cartridge → Mbc1Regs → Result} (hc : s.cart = some c) (hv : c.regs.variant = .mbc1)
    (h : ∀ r, Completes t (k c r)) : Completes t (onMbc1 s k) := by
  cases hr : c.regs with
  | mbc1 r =>
    rw [onMbc1_eq hc hr]
    exact h r
  | romOnly | mbc2 | mbc3 | mbc5 =>
    rw [hr] at hv
    cases hv

theorem completes_onMbc2 {k : Cartridge → Mbc2Regs → Result} (hc : s.cart = some c) (hv : c.regs.variant = .mbc2)
    (h : ∀ r, Completes t (k c r)) : Completes t (onMbc2 s k) := by
  cases hr : c.regs with
  | mbc2 r =>
    rw [onMbc2_eq hc hr]
    exact h r
  | romOnly | mbc1 | mbc3 | mbc5 =>
    rw [hr] at hv
    cases hv

theorem completes_onMbc3 {k : Cartridge → Mbc3Regs → Result} (hc : s.cart = some c) (hv : c.regs.variant = .mbc3)
    (h : ∀ r, Completes t (k c r)) : Completes t (onMbc3 s k) := by
  cases hr : c.regs with
  | mbc3 r =>
    rw [onMbc3_eq hc hr]
    exact h r
  | romOnly | mbc1 | mbc2 | mbc5 =>
    rw [hr] at hv
    cases hv

theorem completes_onMbc5 {k : Cartridge → Mbc5Regs → Result} (hc : s.cart = some c) (hv : c.regs.variant = .mbc5)
    (h : ∀ r, Completes t (k c r)) : Completes t (onMbc5 s k) := by
  cases hr : c.regs with
  | mbc5 r =>
    rw [onMbc5_eq hc hr]
    exact h r
  | romOnly | mbc1 | mbc2 | mbc3 =>
    rw [hr] at hv
    cases hv

theorem completes_readUnmapped {a : Addr} (hc : s.cart = some c) : Completes (.rd a) (readUnmapped a s) := by
  refine completes_withCart hc (completes_answer ?_)
  split
  · exact .data ..
  · exact .readError ..

theorem completes_writeUnmapped {a : Addr} {v : Byte} (hc : s.cart = some c) :
    Completes (.wr a v) (writeUnmapped a s) := by
  refine completes_withCart hc (completes_answer ?_)
  split
  · exact .ok ..
  · exact .writeError ..

/-- Every bus operation of the variant whose registers are loaded completes. -/
theorem exec_completes {i : Instr} (hc : s.cart = some c) (hb : i.belongs c.regs.variant = true)
    (ht : i.transaction = some t) : Completes t (exec i s) := by
  cases i with
  | asRdWram a => cases ht; exact completes_withCart hc (completes_answer (.data ..))
  | asWrWram a v => cases ht; exact completes_withCart hc (completes_answer (.ok ..))
  | asRdUnmapped8000 a | asRdUnmappedE000 a => cases ht; exact completes_readUnmapped hc
  | asWrUnmapped8000 a v | asWrUnmappedE000 a v => cases ht; exact completes_writeUnmapped hc
  | romRdRom0 a | romRdRomx a | romRdRam a =>
    cases ht
    exact completes_onRomOnly hc (eq_of_beq hb).symm (completes_answer (.data ..))
  | romWrRam a v | romWrRom a v =>
    cases ht
    exact completes_onRomOnly hc (eq_of_beq hb).symm (completes_answer (.ok ..))
  | mbc1RdRom0 a | mbc1RdRomx a =>
    cases ht
    exact completes_onMbc1 hc (eq_of_beq hb).symm fun r => completes_answer (.data ..)
  | mbc1RdRam a =>
    cases ht
    refine completes_onMbc1 hc (eq_of_beq hb).symm fun r => ?_
    split <;> exact completes_answer (.data ..)
  | mbc1WrRam a v =>
    cases ht
    refine completes_onMbc1 hc (eq_of_beq hb).symm fun r => ?_
    split <;> exact completes_answer (.ok ..)
  | mbc1WrRamen a v | mbc1WrBank1 a v | mbc1WrBank2 a v | mbc1WrMode a v =>
    cases ht
    exact completes_onMbc1 hc (eq_of_beq hb).symm fun r => completes_answer (.ok ..)
  | mbc2RdRom0 a | mbc2RdRomx a =>
    cases ht
    exact completes_onMbc2 hc (eq_of_beq hb).symm fun r => completes_answer (.data ..)
  | mbc2RdRam a =>
    cases ht
    refine completes_onMbc2 hc (eq_of_beq hb).symm fun r => ?_
    split <;> exact completes_answer (.data ..)
  | mbc2WrRam a v =>
    cases ht
    refine completes_onMbc2 hc (eq_of_beq hb).symm fun r => ?_
    split <;> exact completes_answer (.ok ..)
  | mbc2WrRamen a v | mbc2WrRomb a v | mbc2WrIgnored a v =>
    cases ht
    exact completes_onMbc2 hc (eq_of_beq hb).symm fun r => completes_answer (.ok ..)
  | mbc3RdRom0 a | mbc3RdRomx a =>
    cases ht
    exact completes_onMbc3 hc (eq_of_beq hb).symm fun r => completes_answer (.data ..)
  | mbc3RdRam a =>
    cases ht
    refine completes_onMbc3 hc (eq_of_beq hb).symm fun r => ?_
    split <;> exact completes_answer (.data ..)
  | mbc3WrRam a v =>
    cases ht
    refine completes_onMbc3 hc (eq_of_beq hb).symm fun r => ?_
    split <;> exact completes_answer (.ok ..)
  | mbc3WrRamen a v | mbc3WrRomb a v | mbc3WrSel a v =>
    cases ht
    exact completes_onMbc3 hc (eq_of_beq hb).symm fun r => completes_answer (.ok ..)
  | mbc3WrLatch a v =>
    cases ht
    refine completes_onMbc3 hc (eq_of_beq hb).symm fun r => ?_
    split <;> exact completes_answer (.ok ..)
  | mbc5RdRom0 a | mbc5RdRomx a =>
    cases ht
    exact completes_onMbc5 hc (eq_of_beq hb).symm fun r => completes_answer (.data ..)
  | mbc5RdRam a =>
    cases ht
    refine completes_onMbc5 hc (eq_of_beq hb).symm fun r => ?_
    split <;> exact completes_answer (.data ..)
  | mbc5WrRam a v =>
    cases ht
    refine completes_onMbc5 hc (eq_of_beq hb).symm fun r => ?_
    split <;> exact completes_answer (.ok ..)
  | mbc5WrRamen a v | mbc5WrRombLo a v | mbc5WrRombHi a v | mbc5WrRamb a v | mbc5WrIgnored a v =>
    cases ht
    exact completes_onMbc5 hc (eq_of_beq hb).symm fun r => completes_answer (.ok ..)
  | load | mbc3RtcTick => cases ht

/-- On a sound state with a cartridge every transaction completes: it is some operation of the loaded variant, and the
registers are that variant's. -/
theorem serveBus_completes (hs : s.sound = true) (hc : s.cart = some c) (t : Transaction) :
    Completes t (serveBus t s) := by
  obtain ⟨i, hi⟩ := exists_serves c.cfg.ctype.variant t
  rw [serveBus_eq hc hi.wellFormed hi.belongs hi.transaction]
  have hv : c.regs.variant = c.cfg.ctype.variant := fit_variant (sound_fit hs hc)
  exact exec_completes hc (hv ▸ hi.belongs) hi.transaction

end completes

/-- A load completes in every state, whatever the image and the check. -/
theorem execLoad_completes (bytes : List Byte) (checkLogo : Option Bool) (s : State) :
    ∃ u, execLoad bytes checkLogo s = .next u ∧
      (u.response = some .loaded ∨ ∃ e, u.response = some (.loadErr e)) := by
  unfold execLoad
  split
  next => exact ⟨_, rfl, .inl rfl⟩
  next e _ => exact ⟨_, rfl, .inr ⟨e, rfl⟩⟩

/-- Settles O20: a transaction runs an operation of the loaded variant, which ends in an `answer`; a load ends in one
of the two results of `loadImage`. -/
theorem everyOperationCompletes : Obligations.EveryOperationCompletes := by
  unfold Obligations.EveryOperationCompletes
  refine ⟨fun s c t hs hc => ?_, fun s bytes checkLogo => execLoad_completes bytes checkLogo s⟩
  obtain ⟨u, r, hu, hr, hend⟩ := serveBus_completes hs hc t
  refine ⟨u, hu, ?_⟩
  cases t with
  | rd a =>
    obtain ⟨v, rfl⟩ | rfl := mayEnd_rd hend
    · exact .inl ⟨v, hr⟩
    · exact .inr hr
  | wr a v =>
    obtain rfl | rfl := mayEnd_wr hend
    · exact .inl hr
    · exact .inr hr

end Machine

end Sys2Proof
end

section
/-! What a successful load leaves as the loaded cartridge, and the registers it starts with, per variant. -/

namespace Sys2Proof.Machine

/-- A load succeeds exactly through the checks of 40_load R84, and then builds the cartridge of R86. -/
theorem loadImage_loaded {p : Params} {bytes : List Byte} {checkLogo : Bool} {c : Cartridge}
    (h : loadImage p bytes checkLogo = .loaded c) :
    ∃ ct rb qb, Config.headerSize ≤ bytes.length ∧
      resolve (imageByte bytes 0x0147) (imageByte bytes 0x0148) = some ct ∧
      romBanks (imageByte bytes 0x0148) = some rb ∧ ramBanks (imageByte bytes 0x0149) = some qb ∧
      (checkLogo = true → logoOf bytes = logoRef) ∧ c = freshCartridge p bytes ct rb qb := by
  unfold loadImage at h
  split at h
  · cases h
  next hlen =>
    split at h
    · cases h
    next ct hct =>
      split at h
      · cases h
      next rb hrb =>
        split at h
        · cases h
        next qb hqb =>
          split at h
          · cases h
          next hlogo =>
            cases h
            exact ⟨ct, rb, qb, Nat.le_of_not_lt hlen, hct, hrb, hqb, by simpa using hlogo, rfl⟩

/-- A load that ends as Loaded has built a cartridge; only `cart` and the outcome change (40_load R86, R87). -/
theorem execLoad_loaded {s u : State} {bytes : List Byte} {checkLogo : Option Bool}
    (h : execLoad bytes checkLogo s = .next u) (hr : u.response = some .loaded) :
    ∃ c, loadImage s.params bytes (checkLogo.getD s.params.checkLogo) = .loaded c ∧
      u = { s.withCartridge c with response := some .loaded } := by
  unfold execLoad at h
  split at h
  next c hl =>
    cases h
    exact ⟨c, hl, rfl⟩
  next e _ =>
    cases h
    cases hr

/-- What a load that ends as Loaded leaves as `cart`. -/
theorem execLoad_cart {s u : State} {bytes : List Byte} {checkLogo : Option Bool}
    (h : execLoad bytes checkLogo s = .next u) (hr : u.response = some .loaded) :
    ∃ ct rb qb, u.cart = some (freshCartridge s.params bytes ct rb qb) := by
  obtain ⟨c, hl, rfl⟩ := execLoad_loaded h hr
  obtain ⟨ct, rb, qb, -, -, -, -, -, rfl⟩ := loadImage_loaded hl
  exact ⟨ct, rb, qb, rfl⟩

section resetRegs
variable {ct : ControllerType} (f : Rtc)

theorem resetRegs_romOnly (h : ct.variant = .romOnly) : resetRegs f ct = .romOnly := by
  cases ct with
  | romOnly => rfl
  | mbc1 | mbc2 | mbc3 | mbc5 => cases h

theorem resetRegs_mbc1 (h : ct.variant = .mbc1) : resetRegs f ct = .mbc1 ⟨false, 0x01#5, 0x0#2, 0#1⟩ := by
  cases ct with
  | mbc1 => rfl
  | romOnly | mbc2 | mbc3 | mbc5 => cases h

theorem resetRegs_mbc2 (h : ct.variant = .mbc2) : resetRegs f ct = .mbc2 ⟨false, 0x1#4⟩ := by
  cases ct with
  | mbc2 => rfl
  | romOnly | mbc1 | mbc3 | mbc5 => cases h

/-- With a timer the live clock is INIT_RTC and the latched copy equals it; without one there is no clock (R25). -/
theorem resetRegs_mbc3 (h : ct.variant = .mbc3) :
    resetRegs f ct = .mbc3 ⟨false, 0x01#7, 0x00#8, 0xFF#8, if ct.hasTimer then some ⟨f, f⟩ else none⟩ := by
  cases ct with
  | mbc3 => rfl
  | romOnly | mbc1 | mbc2 | mbc5 => cases h

theorem resetRegs_mbc5 (h : ct.variant = .mbc5) : resetRegs f ct = .mbc5 ⟨false, 0x001#9, 0x0#4⟩ := by
  cases ct with
  | mbc5 => rfl
  | romOnly | mbc1 | mbc2 | mbc3 => cases h

end resetRegs

/-- Settles O14: a load that succeeds leaves the cartridge `freshCartridge` builds, whose registers are `resetRegs` of its
type. -/
theorem loadResetsTheRegisters : Obligations.LoadResetsTheRegisters := by
  unfold Obligations.LoadResetsTheRegisters
  intro s u bytes checkLogo h hr
  obtain ⟨ct, rb, qb, hcart⟩ := execLoad_cart h hr
  exact ⟨_, hcart, resetRegs_romOnly _, resetRegs_mbc1 _, resetRegs_mbc2 _, resetRegs_mbc3 _, resetRegs_mbc5 _⟩

end Sys2Proof.Machine
end

section
/-! What one bus transaction can do: its effects are those of `Effect` without the load, each from its own region of the
address map. -/

namespace Sys2Proof

theorem Addr.le_of_within_rom {a : Addr} {lo hi : Nat} (h : Addr.within a lo hi = true) (hhi : hi ≤ 0x7FFF) :
    a.toNat ≤ 0x7FFF :=
  (Addr.within_iff.1 h).2.trans hhi

namespace Machine

/-- What the transaction `t` does to `wram` and `cart`, and from which region. -/
inductive BusEffect (t : Transaction) (s u : State) : Prop where
  /-- nothing -/
  | same (hw : u.wram = s.wram) (hc : u.cart = s.cart)
  /-- one byte of internal RAM is written -/
  | wram (a : Addr) (v : Byte) (ht : t = .wr a v) (ha : Addr.within a 0xC000 0xDFFF = true)
      (hw : u.wram = (wramWrite s (wramOffset a) v).wram) (hc : u.cart = s.cart)
  /-- the registers are written through the ROM windows -/
  | regs (a : Addr) (v : Byte) (c : Cartridge) (rs : Regs) (ht : t = .wr a v) (ha : a.toNat ≤ 0x7FFF)
      (hs : s.cart = some c) (hc : u.cart = some { c with regs := rs }) (hw : u.wram = s.wram)
  /-- one byte of cartridge RAM is written through the RAM window -/
  | ram (a : Addr) (v : Byte) (c : Cartridge) (o : Nat) (x : Byte) (ht : t = .wr a v)
      (ha : Addr.within a 0xA000 0xBFFF = true) (hs : s.cart = some c) (hc : u.cart = some (cartRamWrite c o x))
      (hw : u.wram = s.wram)
  /-- the live clock is written through the RAM window -/
  | clock (a : Addr) (v : Byte) (c : Cartridge) (r : Mbc3Regs) (k : Clock) (f : Rtc) (ht : t = .wr a v)
      (ha : Addr.within a 0xA000 0xBFFF = true) (hs : s.cart = some c) (hr : c.regs = .mbc3 r)
      (hk : r.clock = some k)
      (hc : u.cart = some { c with regs := .mbc3 { r with clock := some { k with rtc := f } } }) (hw : u.wram = s.wram)

section busEffect
variable {s u : State} {c : Cartridge} {t : Transaction} {a : Addr} {v : Byte}

theorem busEffect_answer {r : Response} (h : answer s r = .next u) : BusEffect t s u := by
  cases h
  exact .same rfl rfl

theorem busEffect_writeRegs {rs : Regs} (hc : s.cart = some c) (ha : a.toNat ≤ 0x7FFF)
    (h : writeRegs s c rs = .next u) : BusEffect (.wr a v) s u := by
  cases h
  exact .regs a v c rs rfl ha hc rfl rfl

theorem busEffect_writeRam {o : Nat} {x : Byte} (hc : s.cart = some c) (ha : Addr.within a 0xA000 0xBFFF = true)
    (h : writeRam s c o x = .next u) : BusEffect (.wr a v) s u := by
  cases h
  exact .ram a v c o x rfl ha hc rfl rfl

theorem busEffect_readUnmapped (h : readUnmapped a s = .next u) : BusEffect t s u := by
  obtain ⟨c, -, h⟩ := withCart_next h
  exact busEffect_answer h

theorem busEffect_writeUnmapped (h : writeUnmapped a s = .next u) : BusEffect t s u := by
  obtain ⟨c, -, h⟩ := withCart_next h
  exact busEffect_answer h

theorem busEffect_execMbc3WrRam (ha : Addr.within a 0xA000 0xBFFF = true)
    (h : execMbc3WrRam a v s = .next u) : BusEffect (.wr a v) s u := by
  obtain ⟨c, r, hc, hr, h⟩ := onMbc3_next h
  split at h
  next => exact busEffect_writeRam hc ha h
  next reg k htar =>
    obtain ⟨-, -, hk⟩ := mbc3Target_rtc htar
    cases h
    exact .clock a v c r k _ rfl ha hc hr (liveClock_some hk) rfl rfl
  next => exact busEffect_answer h

/-- Everything a well-formed bus operation can do. -/
theorem exec_busEffect {i : Instr} (hw : i.wellFormed = true) (ht : i.transaction = some t)
    (h : exec i s = .next u) : BusEffect t s u := by
  cases i with
  | asRdWram a =>
    obtain ⟨c, -, h⟩ := withCart_next h
    exact busEffect_answer h
  | asWrWram a v =>
    cases ht
    obtain ⟨c, -, h⟩ := withCart_next h
    cases h
    exact .wram a v rfl hw rfl rfl
  | asRdUnmapped8000 a | asRdUnmappedE000 a => exact busEffect_readUnmapped h
  | asWrUnmapped8000 a v | asWrUnmappedE000 a v => exact busEffect_writeUnmapped h
  | romRdRom0 a | romRdRomx a | romRdRam a | romWrRam a v | romWrRom a v =>
    obtain ⟨c, -, -, h⟩ := onRomOnly_next h
    exact busEffect_answer h
  | mbc1RdRom0 a | mbc1RdRomx a =>
    obtain ⟨c, r, -, -, h⟩ := onMbc1_next h
    exact busEffect_answer h
  | mbc1RdRam a =>
    obtain ⟨c, r, -, -, h⟩ := onMbc1_next h
    split at h <;> exact busEffect_answer h
  | mbc1WrRam a v =>
    cases ht
    obtain ⟨c, r, hc, -, h⟩ := onMbc1_next h
    split at h
    · exact busEffect_writeRam hc hw h
    · exact busEffect_answer h
  | mbc1WrRamen a v | mbc1WrBank1 a v | mbc1WrBank2 a v | mbc1WrMode a v =>
    cases ht
    obtain ⟨c, r, hc, -, h⟩ := onMbc1_next h
    exact busEffect_writeRegs hc (Addr.le_of_within_rom hw (by decide)) h
  | mbc2RdRom0 a | mbc2RdRomx a | mbc2WrIgnored a v =>
    obtain ⟨c, r, -, -, h⟩ := onMbc2_next h
    exact busEffect_answer h
  | mbc2RdRam a =>
    obtain ⟨c, r, -, -, h⟩ := onMbc2_next h
    split at h <;> exact busEffect_answer h
  | mbc2WrRam a v =>
    cases ht
    obtain ⟨c, r, hc, -, h⟩ := onMbc2_next h
    split at h
    · exact busEffect_writeRam hc hw h
    · exact busEffect_answer h
  | mbc2WrRamen a v | mbc2WrRomb a v =>
    cases ht
    obtain ⟨c, r, hc, -, h⟩ := onMbc2_next h
    have ha : Addr.within a 0x0000 0x3FFF = true := (Bool.and_eq_true_iff.1 hw).1
    exact busEffect_writeRegs hc (Addr.le_of_within_rom ha (by decide)) h
  | mbc3RdRom0 a | mbc3RdRomx a =>
    obtain ⟨c, r, -, -, h⟩ := onMbc3_next h
    exact busEffect_answer h
  | mbc3RdRam a =>
    obtain ⟨c, r, -, -, h⟩ := onMbc3_next h
    split at h <;> exact busEffect_answer h
  | mbc3WrRam a v =>
    cases ht
    exact busEffect_execMbc3WrRam hw h
  | mbc3WrRamen a v | mbc3WrRomb a v | mbc3WrSel a v =>
    cases ht
    obtain ⟨c, r, hc, -, h⟩ := onMbc3_next h
    exact busEffect_writeRegs hc (Addr.le_of_within_rom hw (by decide)) h
  | mbc3WrLatch a v =>
    cases ht
    obtain ⟨c, r, hc, -, h⟩ := onMbc3_next h
    split at h <;> exact busEffect_writeRegs hc (Addr.le_of_within_rom hw (by decide)) h
  | mbc5RdRom0 a | mbc5RdRomx a | mbc5WrIgnored a v =>
    obtain ⟨c, r, -, -, h⟩ := onMbc5_next h
    exact busEffect_answer h
  | mbc5RdRam a =>
    obtain ⟨c, r, -, -, h⟩ := onMbc5_next h
    split at h <;> exact busEffect_answer h
  | mbc5WrRam a v =>
    cases ht
    obtain ⟨c, r, hc, -, h⟩ := onMbc5_next h
    split at h
    · exact busEffect_writeRam hc hw h
    · exact busEffect_answer h
  | mbc5WrRamen a v | mbc5WrRombLo a v | mbc5WrRombHi a v | mbc5WrRamb a v =>
    cases ht
    obtain ⟨c, r, hc, -, h⟩ := onMbc5_next h
    exact busEffect_writeRegs hc (Addr.le_of_within_rom hw (by decide)) h
  | load | mbc3RtcTick => cases ht

/-- Everything a bus transaction can do: it is some well-formed operation of the loaded variant. -/
theorem serveBus_busEffect (h : serveBus t s = .next u) : BusEffect t s u := by
  obtain ⟨c, -, hc, -, -⟩ := serveBus_next h
  obtain ⟨i, hi⟩ := exists_serves c.cfg.ctype.variant t
  rw [serveBus_eq hc hi.wellFormed hi.belongs hi.transaction] at h
  exact exec_busEffect hi.wellFormed hi.transaction h

/-- A bus effect keeps the cartridge loaded and its configuration, the image included. -/
theorem BusEffect.keeps_cfg (h : BusEffect t s u) (hc : s.cart = some c) :
    ∃ c', u.cart = some c' ∧ c'.cfg = c.cfg := by
  cases h with
  | same _ hu | wram _ _ _ _ _ hu => exact ⟨c, hu.trans hc, rfl⟩
  | regs _ _ c₀ _ _ _ hs hu | ram _ _ c₀ _ _ _ _ hs hu | clock _ _ c₀ _ _ _ _ _ hs _ _ hu =>
    obtain rfl : c₀ = c := Option.some.inj (hs.symm.trans hc)
    exact ⟨_, hu, rfl⟩

end busEffect

/-- Settles O24: no effect of a bus transaction reaches `cfg`. -/
theorem transactionsKeepTheConfiguration : Obligations.TransactionsKeepTheConfiguration := by
  unfold Obligations.TransactionsKeepTheConfiguration
  intro s u c t hc h
  exact (serveBus_busEffect h).keeps_cfg hc

end Machine

end Sys2Proof
end

section
/-! What a read transaction leaves unchanged: the effects of a bus transaction that a read can have, and the frame of the
operation it runs. -/

namespace Sys2Proof.Machine

variable {s u : State}

/-- Whatever a transaction does, the parameters and the pending inputs stay. -/
theorem serveBus_does {t : Transaction} (h : serveBus t s = .next u) : Does s u := by
  obtain ⟨c, i, -, -, hexec⟩ := serveBus_next h
  exact exec_does hexec

/-- Every effect on storage or registers is a write's. -/
theorem BusEffect.rd_keeps_storage {a : Addr} (h : BusEffect (.rd a) s u) : u.wram = s.wram ∧ u.cart = s.cart := by
  cases h with
  | same hw hc => exact ⟨hw, hc⟩
  | wram _ _ ht | regs _ _ _ _ ht | ram _ _ _ _ _ ht | clock _ _ _ _ _ _ ht => cases ht

/-- Only the outcome can differ between two states that agree on everything else. -/
theorem State.eq_with_response (hw : u.wram = s.wram) (hc : u.cart = s.cart) (hp : u.params = s.params)
    (hi : u.inputs = s.inputs) : u = { s with response := u.response } := by
  rw [← hw, ← hc, ← hp, ← hi]

/-- Settles O21: a read has none of the writing effects of `BusEffect`, and no operation touches the parameters or the
pending inputs. -/
theorem readsHaveNoSideEffect : Obligations.ReadsHaveNoSideEffect := by
  unfold Obligations.ReadsHaveNoSideEffect
  intro s u a h
  obtain ⟨hw, hc⟩ := (serveBus_busEffect h).rd_keeps_storage
  obtain ⟨hi, hp, -⟩ := serveBus_does h
  exact State.eq_with_response hw hc hp hi

end Sys2Proof.Machine
end

section
/-! The code tables of a load as lists (40_load R78 to R80): each code function of the model is the lookup in its
table. -/

namespace Sys2Proof.Machine

/-- The type codes and their controller types, with the ROM-size code as `rom_size_class` (40_load R78). -/
def typeTable (romCode : Byte) : List (Byte × ControllerType) :=
  [ (0x00#8, .romOnly)
  , (0x01#8, .mbc1 romCode false false), (0x02#8, .mbc1 romCode true false), (0x03#8, .mbc1 romCode true true)
  , (0x05#8, .mbc2 romCode false), (0x06#8, .mbc2 romCode true)
  , (0x0F#8, .mbc3 romCode false true true), (0x10#8, .mbc3 romCode true true true)
  , (0x11#8, .mbc3 romCode false false false), (0x12#8, .mbc3 romCode true false false)
  , (0x13#8, .mbc3 romCode true true false)
  , (0x19#8, .mbc5 romCode false false false), (0x1A#8, .mbc5 romCode true false false)
  , (0x1B#8, .mbc5 romCode true true false), (0x1C#8, .mbc5 romCode false false true)
  , (0x1D#8, .mbc5 romCode true false true), (0x1E#8, .mbc5 romCode true true true) ]

/-- The ROM-size codes and their bank counts, capped at 96 (40_load R79). -/
def romTable : List (Byte × Nat) :=
  [ (0x00#8, 2), (0x01#8, 4), (0x02#8, 8), (0x03#8, 16), (0x04#8, 32), (0x05#8, 64), (0x06#8, 96), (0x07#8, 96)
  , (0x08#8, 96), (0x52#8, 72), (0x53#8, 80), (0x54#8, 96) ]

/-- The RAM-size codes and their bank counts (40_load R80). -/
def ramTable : List (Byte × Nat) :=
  [ (0x00#8, 0), (0x01#8, 1), (0x02#8, 1), (0x03#8, 4), (0x04#8, 16), (0x05#8, 8) ]

section lookup
variable {α : Type} {k : Byte} {v : α} {l : List (Byte × α)}

theorem lookup_cons_eq_ite (k' : Byte) : ((k', v) :: l).lookup k = if k = k' then some v else l.lookup k := by
  rw [List.lookup_cons]
  split
  next h => rw [if_pos (beq_iff_eq.1 h)]
  next h => rw [if_neg (beq_eq_false_iff_ne.1 h)]

theorem mem_of_lookup (h : l.lookup k = some v) : (k, v) ∈ l := by
  obtain ⟨l₁, l₂, rfl, -⟩ := List.lookup_eq_some_iff.1 h
  simp

theorem exists_lookup_of_mem_keys (h : k ∈ l.map Prod.fst) : ∃ v, l.lookup k = some v := by
  obtain ⟨p, hp, rfl⟩ := List.mem_map.1 h
  exact Option.isSome_iff_exists.1 (List.lookup_isSome_iff.2 ⟨p, hp, beq_self_eq_true _⟩)

theorem lookup_of_notMem_keys (h : k ∉ l.map Prod.fst) : l.lookup k = none := by
  refine List.lookup_eq_none_iff.2 fun p hp => bne_iff_ne.2 ?_
  rintro rfl
  exact h (List.mem_map_of_mem hp)

end lookup

theorem resolve_eq_lookup (t romCode : Byte) : resolve t romCode = (typeTable romCode).lookup t := by
  simp only [resolve, typeTable, lookup_cons_eq_ite, List.lookup_nil]

theorem romBanks_eq_lookup (code : Byte) : romBanks code = romTable.lookup code := by
  simp only [romBanks, romBankTable, romTable, lookup_cons_eq_ite, List.lookup_nil, apply_ite (Option.map _),
    Option.map_some, Option.map_none]
  rfl

theorem ramBanks_eq_lookup (code : Byte) : ramBanks code = ramTable.lookup code := by
  simp only [ramBanks, ramBankTable, ramTable, lookup_cons_eq_ite, List.lookup_nil, apply_ite (Option.map _),
    Option.map_some, Option.map_none]
  rfl

/-- Inside an image the byte read is the image's own, whatever is read past the end. -/
theorem imageByte_eq_getD {bytes : List Byte} {o : Nat} (h : o < bytes.length) :
    imageByte bytes o = bytes.getD o 0#8 := by
  rw [imageByte, List.getD_eq_getElem _ _ h, List.getD_eq_getElem _ _ h]

/-- The two code bytes and the type byte of an image that passed the length check (40_load R73). -/
theorem codeBytes_eq_getD {bytes : List Byte} (h : Config.headerSize ≤ bytes.length) :
    imageByte bytes 0x147 = bytes.getD 0x147 0#8 ∧ imageByte bytes 0x148 = bytes.getD 0x148 0#8 ∧
      imageByte bytes 0x149 = bytes.getD 0x149 0#8 :=
  ⟨imageByte_eq_getD (Nat.lt_of_lt_of_le (by decide) h), imageByte_eq_getD (Nat.lt_of_lt_of_le (by decide) h),
    imageByte_eq_getD (Nat.lt_of_lt_of_le (by decide) h)⟩

end Sys2Proof.Machine
end

section
/-! What a load comes to, check by check in the order of 40_load R84, and the obligations on its outcome. -/

namespace Sys2Proof.Machine

/-! ### The results of the checks -/

section loadImage
variable {p : Params} {bytes : List Byte} {checkLogo : Bool} {ct : ControllerType} {rb qb : Nat}

theorem loadImage_tooShort (hlen : bytes.length < Config.headerSize) :
    loadImage p bytes checkLogo = .failed (.headerTooShort Config.headerSize bytes.length) :=
  if_pos hlen

/-- The type error is only ever reported where the type code does not resolve. -/
theorem resolve_of_loadImage_badType {t : Byte}
    (h : loadImage p bytes checkLogo = .failed (.unsupportedControllerType t)) :
    resolve (imageByte bytes 0x147) (imageByte bytes 0x148) = none := by
  unfold loadImage at h
  split at h
  · cases h
  split at h
  next ht => exact ht
  split at h
  · cases h
  split at h
  · cases h
  split at h <;> cases h

variable (hlen : Config.headerSize ≤ bytes.length)
include hlen

theorem loadImage_badType (ht : resolve (bytes.getD 0x147 0#8) (bytes.getD 0x148 0#8) = none) :
    loadImage p bytes checkLogo = .failed (.unsupportedControllerType (bytes.getD 0x147 0#8)) := by
  simp only [loadImage, Nat.not_lt.2 hlen, if_false, codeBytes_eq_getD hlen, ht]

variable (ht : resolve (bytes.getD 0x147 0#8) (bytes.getD 0x148 0#8) = some ct)
include ht

theorem loadImage_badRomCode (hr : romBanks (bytes.getD 0x148 0#8) = none) :
    loadImage p bytes checkLogo = .failed (.unsupportedRomSizeCode (bytes.getD 0x148 0#8)) := by
  simp only [loadImage, Nat.not_lt.2 hlen, if_false, codeBytes_eq_getD hlen, ht, hr]

variable (hr : romBanks (bytes.getD 0x148 0#8) = some rb)
include hr

theorem loadImage_badRamCode (hq : ramBanks (bytes.getD 0x149 0#8) = none) :
    loadImage p bytes checkLogo = .failed (.unsupportedRamSizeCode (bytes.getD 0x149 0#8)) := by
  simp only [loadImage, Nat.not_lt.2 hlen, if_false, codeBytes_eq_getD hlen, ht, hr, hq]

variable (hq : ramBanks (bytes.getD 0x149 0#8) = some qb)
include hq

/-- Past the length and the codes only the logo check is left (40_load R81 to R83). -/
theorem loadImage_goodCodes :
    loadImage p bytes checkLogo =
      if checkLogo && logoOf bytes != logoRef then .failed .logoMismatch
      else .loaded (freshCartridge p bytes ct rb qb) := by
  simp only [loadImage, Nat.not_lt.2 hlen, if_false, codeBytes_eq_getD hlen, ht, hr, hq]

theorem loadImage_badLogo (hcheck : checkLogo = true) (hlogo : logoOf bytes ≠ logoRef) :
    loadImage p bytes checkLogo = .failed .logoMismatch := by
  simp [loadImage_goodCodes hlen ht hr hq, hcheck, hlogo]

theorem loadImage_of_checks (hlogo : checkLogo = true → logoOf bytes = logoRef) :
    loadImage p bytes checkLogo = .loaded (freshCartridge p bytes ct rb qb) := by
  rw [loadImage_goodCodes hlen ht hr hq, if_neg]
  simpa using hlogo

end loadImage

section execLoad
variable {s u : State} {bytes : List Byte} {checkLogo : Option Bool}

/-- A load whose checks fail reports the error and changes nothing (40_load R85). -/
theorem execLoad_of_failed {e : LoadError}
    (h : loadImage s.params bytes (checkLogo.getD s.params.checkLogo) = .failed e) :
    execLoad bytes checkLogo s = .next { s with response := some (.loadErr e) } := by
  rw [execLoad, h]
  rfl

/-- A load whose checks pass replaces `cart` and nothing else (40_load R86). -/
theorem execLoad_of_loaded {c : Cartridge}
    (h : loadImage s.params bytes (checkLogo.getD s.params.checkLogo) = .loaded c) :
    execLoad bytes checkLogo s = .next { s with cart := some c, response := some .loaded } := by
  rw [execLoad, h]
  rfl

/-- The error a load reports is the one its checks give. -/
theorem loadImage_of_execLoad_loadErr {e : LoadError} (h : execLoad bytes checkLogo s = .next u)
    (hr : u.response = some (.loadErr e)) :
    loadImage s.params bytes (checkLogo.getD s.params.checkLogo) = .failed e := by
  unfold execLoad at h
  split at h
  next =>
    cases h
    cases hr
  next he =>
    cases h
    cases hr
    exact he

/-- The codes of a load that ends as Loaded are in the three tables, with the values of its cartridge. -/
theorem execLoad_loaded_tables (h : execLoad bytes checkLogo s = .next u) (hr : u.response = some .loaded) :
    ∃ c, u.cart = some c ∧ (bytes.getD 0x147 0#8, c.cfg.ctype) ∈ typeTable (bytes.getD 0x148 0#8) ∧
      (bytes.getD 0x148 0#8, c.cfg.romBanks) ∈ romTable ∧ (bytes.getD 0x149 0#8, c.cfg.ramBanks) ∈ ramTable := by
  obtain ⟨c, hl, rfl⟩ := execLoad_loaded h hr
  obtain ⟨ct, rb, qb, hlen, hct, hrb, hqb, -, rfl⟩ := loadImage_loaded hl
  obtain ⟨h147, h148, h149⟩ := codeBytes_eq_getD hlen
  rw [h147, h148, resolve_eq_lookup] at hct
  rw [h148, romBanks_eq_lookup] at hrb
  rw [h149, ramBanks_eq_lookup] at hqb
  exact ⟨_, rfl, mem_of_lookup hct, mem_of_lookup hrb, mem_of_lookup hqb⟩

end execLoad

/-! ### The first error -/

/-- Settles O9: each list of codes is the keys of its table, so the lookups up to the failing check are known and with
them the result of the checks. -/
theorem loadReportsTheFirstError : Obligations.LoadReportsTheFirstError := by
  unfold Obligations.LoadReportsTheFirstError
  intro s bytes checkLogo fails t rc qc typeCodes romCodes ramCodes
  have resolves (ht : t ∈ typeCodes) : ∃ ct, resolve t rc = some ct :=
    resolve_eq_lookup t rc ▸ exists_lookup_of_mem_keys ht
  have romCounts (hr : rc ∈ romCodes) : ∃ rb, romBanks rc = some rb :=
    romBanks_eq_lookup rc ▸ exists_lookup_of_mem_keys hr
  have ramCounts (hq : qc ∈ ramCodes) : ∃ qb, ramBanks qc = some qb :=
    ramBanks_eq_lookup qc ▸ exists_lookup_of_mem_keys hq
  refine ⟨fun hlen => execLoad_of_failed (loadImage_tooShort hlen), fun hlen ht => ?_, fun hlen ht hr => ?_,
    fun hlen ht hr hq => ?_, fun hlen ht hr hq hcheck hlogo => ?_⟩
  · have ht' : resolve t rc = none := (resolve_eq_lookup t rc).trans (lookup_of_notMem_keys ht)
    exact execLoad_of_failed (loadImage_badType hlen ht')
  · obtain ⟨ct, hct⟩ := resolves ht
    have hr' : romBanks rc = none := (romBanks_eq_lookup rc).trans (lookup_of_notMem_keys hr)
    exact execLoad_of_failed (loadImage_badRomCode hlen hct hr')
  · obtain ⟨ct, hct⟩ := resolves ht
    obtain ⟨rb, hrb⟩ := romCounts hr
    have hq' : ramBanks qc = none := (ramBanks_eq_lookup qc).trans (lookup_of_notMem_keys hq)
    exact execLoad_of_failed (loadImage_badRamCode hlen hct hrb hq')
  · obtain ⟨ct, hct⟩ := resolves ht
    obtain ⟨rb, hrb⟩ := romCounts hr
    obtain ⟨qb, hqb⟩ := ramCounts hq
    exact execLoad_of_failed (loadImage_badLogo hlen hct hrb hqb hcheck hlogo)

/-! ### The table values of a loaded cartridge -/

/-- Settles O13: both counts are looked up in their tables. -/
theorem loadedBankCountsAreTheTables : Obligations.LoadedBankCountsAreTheTables := by
  unfold Obligations.LoadedBankCountsAreTheTables
  intro s u bytes checkLogo h hr
  obtain ⟨c, hc, -, hrom, hram⟩ := execLoad_loaded_tables h hr
  exact ⟨c, hc, hrom, hram⟩

/-- Settles O12: the type is looked up in its table; a code of the table resolves, where the type error needs one that
does not, and a code outside it fails the type check. -/
theorem loadedTypeIsTheTables : Obligations.LoadedTypeIsTheTables := by
  unfold Obligations.LoadedTypeIsTheTables
  intro s u bytes checkLogo t rc table hlen h
  refine ⟨fun c hr hc => ?_, fun ct hmem hr => ?_, fun hnone => ?_⟩
  · obtain ⟨c', hc', htype, -⟩ := execLoad_loaded_tables h hr
    obtain rfl : c' = c := Option.some.inj (hc'.symm.trans hc)
    exact htype
  · have hfail := resolve_of_loadImage_badType (loadImage_of_execLoad_loadErr h hr)
    obtain ⟨ht, hrc, -⟩ := codeBytes_eq_getD hlen
    rw [ht, hrc, resolve_eq_lookup] at hfail
    obtain ⟨ct', hct'⟩ := exists_lookup_of_mem_keys (List.mem_map_of_mem (f := Prod.fst) hmem)
    cases hfail.symm.trans hct'
  · have hkeys : t ∉ (typeTable rc).map Prod.fst := fun hmem => by
      obtain ⟨⟨_, ct⟩, hp, rfl⟩ := List.mem_map.1 hmem
      exact hnone ct hp
    have ht : resolve t rc = none := (resolve_eq_lookup t rc).trans (lookup_of_notMem_keys hkeys)
    cases h.symm.trans (execLoad_of_failed (loadImage_badType hlen ht))
    rfl

end Sys2Proof.Machine
end

section
/-! The cartridge a successful load builds: the size and the contents of its RAM. -/

namespace Sys2Proof.Machine

theorem ramSize_eq (ct : ControllerType) (qb : Nat) :
    ramSize ct qb = if ct.variant = .mbc2 then 512 else if ct.hasRam = true ∧ 1 ≤ qb then qb * 0x2000 else 0 := by
  cases ct with
  | mbc2 => rfl
  | romOnly | mbc1 | mbc3 | mbc5 =>
    simp only [ramSize, ramUsable, ControllerType.variant, Bool.and_eq_true, Nat.ble_eq, reduceCtorEq, if_false]
    rfl

theorem initCell_eq (ct : ControllerType) (b : Byte) :
    initCell ct b = if ct.variant = .mbc2 then b &&& 0x0F#8 else b := by
  cases ct <;> rfl

/-- Within its size the buffer of a fresh cartridge holds what each cell takes of INIT_CART_RAM (10_state R19, R20). -/
theorem cartRamRead_freshCartridge {p : Params} {bytes : List Byte} {ct : ControllerType} {rb qb o : Nat}
    (ho : o < ramSize ct qb) (hs : o < p.initCartRam.length) :
    cartRamRead (freshCartridge p bytes ct rb qb) o = initCell ct (p.initCartRam.getD o 0#8) := by
  have hread := Memory.read_ofBytesFrom 0 o ((p.initCartRam.take (ramSize ct qb)).map (initCell ct))
  rw [Nat.zero_add] at hread
  refine hread.trans ?_
  simp [List.getD_eq_getElem?_getD, List.getElem?_take_of_lt ho, List.getElem?_eq_getElem hs]

/-- Settles O10: with every check passed the load builds `freshCartridge`, whose configuration and registers are the
required ones by definition. -/
theorem loadReplacesTheCartridge : Obligations.LoadReplacesTheCartridge := by
  unfold Obligations.LoadReplacesTheCartridge
  intro s bytes checkLogo ct rb qb hlen hct hrb hqb hlogo
  refine ⟨freshCartridge s.params bytes ct rb qb,
    execLoad_of_loaded (loadImage_of_checks hlen hct hrb hqb hlogo), rfl, rfl, rfl, rfl, rfl, rfl, rfl, rfl, rfl,
    ramSize_eq ct qb, fun o ho hs => ?_⟩
  exact (cartRamRead_freshCartridge ho hs).trans (initCell_eq ct _)

end Sys2Proof.Machine
end

section
/-! The accesses the AddressSpace serves itself (41_address_space R92 to R95): what each one answers, under every
variant. -/

namespace Sys2Proof.Machine

variable {s : State} {c : Cartridge} {a : Addr} {v : Byte}

/-- For an address of internal RAM its low 13 bits are `a - 0xC000` (R92, R93). -/
theorem wramOffset_eq (ha : Addr.within a 0xC000 0xDFFF = true) : wramOffset a = a.toNat - 0xC000 := by
  rw [Addr.within_iff] at ha
  simp only [wramOffset, BitVec.toNat_setWidth]
  omega

theorem wramRead_write_same (hs : s.sound = true) (o : Nat) : wramRead (wramWrite s o v) o = v :=
  Memory.read_write_same (sound_wram hs).1

theorem wramRead_write_other (hs : s.sound = true) {o p : Nat} (hp : p ≠ o) :
    wramRead (wramWrite s o v) p = wramRead s p :=
  Memory.read_write_other (sound_wram hs).1 hp

/-- Settles O17: the rows of internal RAM serve every variant, and the write is a `wramWrite` at `a - 0xC000`, whose
reads are those of the storage on a sound state. -/
theorem wramAccess : Obligations.WramAccess := by
  unfold Obligations.WramAccess
  intro s c a v hs hc hlo hhi
  have ha : Addr.within a 0xC000 0xDFFF = true := Addr.within_iff.2 ⟨hlo, hhi⟩
  rw [← wramOffset_eq ha]
  refine ⟨fun vr => ⟨?_, ?_⟩, withCart_eq hc, (wramWrite s (wramOffset a) v).wram, withCart_eq hc,
    wramRead_write_same hs _, fun o ho => wramRead_write_other hs ho⟩
  · exact decodeTransaction_of_wellFormed (i := .asRdWram a) ha rfl rfl
  · exact decodeTransaction_of_wellFormed (i := .asWrWram a v) ha rfl rfl

/-- A read of an unmapped address of a loaded cartridge (R94). -/
theorem readUnmapped_eq (hc : s.cart = some c) : readUnmapped a s =
    .next { s with response := some (if c.cfg.lenient then .data 0xFF#8 else .addrErr a .read) } :=
  withCart_eq hc

/-- A write of an unmapped address of a loaded cartridge (R95). -/
theorem writeUnmapped_eq (hc : s.cart = some c) : writeUnmapped a s =
    .next { s with response := some (if c.cfg.lenient then .ok else .addrErr a .write) } :=
  withCart_eq hc

/-- Settles O18: both unmapped ranges have rows that serve every variant, and their operations share one meaning per
access kind. -/
theorem unmappedAccessResult : Obligations.UnmappedAccessResult := by
  unfold Obligations.UnmappedAccessResult
  intro s c a v hc read write
  refine ⟨fun hlo hhi => ?_, fun hlo => ?_⟩
  · have ha : Addr.within a 0x8000 0x9FFF = true := Addr.within_iff.2 ⟨hlo, hhi⟩
    exact ⟨fun vr => ⟨decodeTransaction_of_wellFormed (i := .asRdUnmapped8000 a) ha rfl rfl,
      decodeTransaction_of_wellFormed (i := .asWrUnmapped8000 a v) ha rfl rfl⟩, readUnmapped_eq hc, writeUnmapped_eq hc⟩
  · have ha : Addr.within a 0xE000 0xFFFF = true := Addr.within_iff.2 ⟨hlo, Nat.le_of_lt_succ a.isLt⟩
    exact ⟨fun vr => ⟨decodeTransaction_of_wellFormed (i := .asRdUnmappedE000 a) ha rfl rfl,
      decodeTransaction_of_wellFormed (i := .asWrUnmappedE000 a v) ha rfl rfl⟩, readUnmapped_eq hc, writeUnmapped_eq hc⟩

end Sys2Proof.Machine
end

section
/-! The addressing error (41_address_space R96): only an unmapped access ends in one, it changes nothing, and no
operation depends on the outcome of the one before. -/

namespace Sys2Proof.Machine

/-- The operation is an access of the given kind to an unmapped address (R94, R95). -/
inductive UnmappedAccess : Instr → Addr → AccessKind → Prop where
  | rd8000 (a : Addr) : UnmappedAccess (.asRdUnmapped8000 a) a .read
  | rdE000 (a : Addr) : UnmappedAccess (.asRdUnmappedE000 a) a .read
  | wr8000 (a : Addr) (v : Byte) : UnmappedAccess (.asWrUnmapped8000 a v) a .write
  | wrE000 (a : Addr) (v : Byte) : UnmappedAccess (.asWrUnmappedE000 a v) a .write

section addrErr
variable {s u : State} {i : Instr} {a b : Addr} {k : AccessKind}

theorem readUnmapped_addrErr (h : readUnmapped b s = .next u) (hr : u.response = some (.addrErr a k)) :
    a = b ∧ k = .read := by
  obtain ⟨c, hc, -⟩ := withCart_next h
  cases h.symm.trans (readUnmapped_eq hc)
  dsimp only at hr
  split at hr
  · cases hr
  · cases hr
    exact ⟨rfl, rfl⟩

theorem writeUnmapped_addrErr (h : writeUnmapped b s = .next u) (hr : u.response = some (.addrErr a k)) :
    a = b ∧ k = .write := by
  obtain ⟨c, hc, -⟩ := withCart_next h
  cases h.symm.trans (writeUnmapped_eq hc)
  dsimp only at hr
  split at hr
  · cases hr
  · cases hr
    exact ⟨rfl, rfl⟩

/-- An operation that ends in an addressing error is an unmapped access, of the address and the kind reported: every
other one ends in a data byte, `Ok`, an outcome of a load, or none. -/
theorem exec_addrErr (h : exec i s = .next u) (hr : u.response = some (.addrErr a k)) : UnmappedAccess i a k := by
  cases i with
  | asRdUnmapped8000 b =>
    obtain ⟨rfl, rfl⟩ := readUnmapped_addrErr h hr
    exact .rd8000 a
  | asRdUnmappedE000 b =>
    obtain ⟨rfl, rfl⟩ := readUnmapped_addrErr h hr
    exact .rdE000 a
  | asWrUnmapped8000 b v =>
    obtain ⟨rfl, rfl⟩ := writeUnmapped_addrErr h hr
    exact .wr8000 a v
  | asWrUnmappedE000 b v =>
    obtain ⟨rfl, rfl⟩ := writeUnmapped_addrErr h hr
    exact .wrE000 a v
  | asRdWram | asWrWram =>
    obtain ⟨c, -, h⟩ := withCart_next h
    cases h
    cases hr
  | romRdRom0 | romRdRomx | romRdRam | romWrRam | romWrRom =>
    obtain ⟨c, -, -, h⟩ := onRomOnly_next h
    cases h
    cases hr
  | mbc1RdRom0 | mbc1RdRomx | mbc1WrRamen | mbc1WrBank1 | mbc1WrBank2 | mbc1WrMode =>
    obtain ⟨c, r, -, -, h⟩ := onMbc1_next h
    cases h
    cases hr
  | mbc1RdRam | mbc1WrRam =>
    obtain ⟨c, r, -, -, h⟩ := onMbc1_next h
    split at h <;> cases h <;> cases hr
  | mbc2RdRom0 | mbc2RdRomx | mbc2WrRamen | mbc2WrRomb | mbc2WrIgnored =>
    obtain ⟨c, r, -, -, h⟩ := onMbc2_next h
    cases h
    cases hr
  | mbc2RdRam | mbc2WrRam =>
    obtain ⟨c, r, -, -, h⟩ := onMbc2_next h
    split at h <;> cases h <;> cases hr
  | mbc3RdRom0 | mbc3RdRomx | mbc3WrRamen | mbc3WrRomb | mbc3WrSel =>
    obtain ⟨c, r, -, -, h⟩ := onMbc3_next h
    cases h
    cases hr
  | mbc3RdRam | mbc3WrRam | mbc3WrLatch =>
    obtain ⟨c, r, -, -, h⟩ := onMbc3_next h
    split at h <;> cases h <;> cases hr
  | mbc5RdRom0 | mbc5RdRomx | mbc5WrRamen | mbc5WrRombLo | mbc5WrRombHi | mbc5WrRamb | mbc5WrIgnored =>
    obtain ⟨c, r, -, -, h⟩ := onMbc5_next h
    cases h
    cases hr
  | mbc5RdRam | mbc5WrRam =>
    obtain ⟨c, r, -, -, h⟩ := onMbc5_next h
    split at h <;> cases h <;> cases hr
  | load bytes checkLogo =>
    obtain ⟨u', hu', hload⟩ := execLoad_completes bytes checkLogo s
    cases h.symm.trans hu'
    obtain hl | ⟨e, hl⟩ := hload <;> cases hr.symm.trans hl
  | mbc3RtcTick =>
    obtain ⟨c, r, k, -, -, -, rfl⟩ := execMbc3RtcTick_next h
    cases hr

/-- An unmapped access changes nothing but the outcome, whichever it is. -/
theorem UnmappedAccess.exec_frame (hi : UnmappedAccess i a k) (h : exec i s = .next u) :
    u = { s with response := u.response } := by
  cases hi with
  | rd8000 | rdE000 | wr8000 | wrE000 =>
    obtain ⟨c, -, h⟩ := withCart_next h
    cases h
    rfl

/-- A transaction that ends in an addressing error changes nothing but the outcome. -/
theorem serveBus_addrErr_frame {t : Transaction} (h : serveBus t s = .next u)
    (hr : u.response = some (.addrErr a k)) : u = { s with response := u.response } := by
  obtain ⟨c, i, -, -, hexec⟩ := serveBus_next h
  exact (exec_addrErr hexec hr).exec_frame hexec

end addrErr

/-- No operation reads the outcome of the last one, and each replaces it. -/
theorem exec_setResponse (i : Instr) (s : State) (r : Option Response) :
    exec i { s with response := r } = exec i s := by
  cases i <;> rfl

theorem serveBus_setResponse (t : Transaction) (s : State) (r : Option Response) :
    serveBus t { s with response := r } = serveBus t s := by
  simp only [serveBus, exec_setResponse]

/-- Settles O22: only an unmapped access ends in an addressing error, so only the outcome differs from the state before,
and no later transaction depends on that. -/
theorem addressingErrorIsNotRemembered : Obligations.AddressingErrorIsNotRemembered := by
  unfold Obligations.AddressingErrorIsNotRemembered
  intro s u t t' a k h hr
  have hu : u = { s with response := u.response } := serveBus_addrErr_frame h hr
  exact ⟨hu, (congrArg (serveBus t') hu).trans (serveBus_setResponse t' s u.response)⟩

end Sys2Proof.Machine
end

section
/-! The offsets of the two ROM windows in terms of the address (20_memory R39), and the RomOnly operations
(42_romonly R97 to R101). -/

namespace Sys2Proof.Machine

section romOffsets
variable {a : Addr}

/-- For an address of the lower ROM window its low 14 bits are the address itself. -/
theorem romWindowOffset_eq_of_lower (ha : Addr.within a 0x0000 0x3FFF = true) : romWindowOffset a = a.toNat := by
  rw [Addr.within_iff] at ha
  simp only [romWindowOffset, BitVec.toNat_setWidth]
  omega

/-- For an address of the upper ROM window its low 14 bits are `a - 0x4000`. -/
theorem romWindowOffset_eq_of_upper (ha : Addr.within a 0x4000 0x7FFF = true) :
    romWindowOffset a = a.toNat - 0x4000 := by
  rw [Addr.within_iff] at ha
  simp only [romWindowOffset, BitVec.toNat_setWidth]
  omega

theorem romxOffset_eq (ha : Addr.within a 0x4000 0x7FFF = true) (bank : Nat) :
    romxOffset bank a = (a.toNat - 0x4000) + bank * 0x4000 := by
  simp only [romxOffset, romWindowOffset_eq_of_upper ha, Config.romBankSize]

end romOffsets

/-- Settles O29: each row serves its range, and a read answers the image byte at the window's offset or, in the RAM
window, open bus. -/
theorem romOnlyReads : Obligations.RomOnlyReads := by
  unfold Obligations.RomOnlyReads
  intro s c a hc hr
  refine ⟨fun hhi => ?_, fun hlo hhi => ?_, fun hlo hhi => ?_⟩
  · have ha : Addr.within a 0x0000 0x3FFF = true := Addr.within_iff.2 ⟨Nat.zero_le _, hhi⟩
    rw [← romWindowOffset_eq_of_lower ha]
    exact ⟨decodeTransaction_of_wellFormed (i := .romRdRom0 a) ha rfl rfl, onRomOnly_eq hc hr⟩
  · have ha : Addr.within a 0x4000 0x7FFF = true := Addr.within_iff.2 ⟨hlo, hhi⟩
    rw [← romxOffset_eq ha 1]
    exact ⟨decodeTransaction_of_wellFormed (i := .romRdRomx a) ha rfl rfl, onRomOnly_eq hc hr⟩
  · have ha : Addr.within a 0xA000 0xBFFF = true := Addr.within_iff.2 ⟨hlo, hhi⟩
    exact ⟨decodeTransaction_of_wellFormed (i := .romRdRam a) ha rfl rfl, onRomOnly_eq hc hr⟩

/-- Settles O30: each row serves its range, and both operations only complete. -/
theorem romOnlyWritesAreNoOps : Obligations.RomOnlyWritesAreNoOps := by
  unfold Obligations.RomOnlyWritesAreNoOps
  intro s c a v hc hr
  refine ⟨fun hhi => ?_, fun hlo hhi => ?_, onRomOnly_eq hc hr, onRomOnly_eq hc hr⟩
  · have ha : Addr.within a 0x0000 0x7FFF = true := Addr.within_iff.2 ⟨Nat.zero_le _, hhi⟩
    exact decodeTransaction_of_wellFormed (i := .romWrRom a v) ha rfl rfl
  · have ha : Addr.within a 0xA000 0xBFFF = true := Addr.within_iff.2 ⟨hlo, hhi⟩
    exact decodeTransaction_of_wellFormed (i := .romWrRam a v) ha rfl rfl

end Sys2Proof.Machine
end

section
/-! Operand assembly in terms of the address and the write value (30_encoding R59 to R65), and the accesses to cartridge
RAM (20_memory R49): what the operations of every variant with a RAM window share. -/

namespace Sys2Proof.Machine

/-- For an address of the RAM window its low 13 bits are `a - 0xA000`. -/
theorem ramWindowOffset_eq {a : Addr} (ha : Addr.within a 0xA000 0xBFFF = true) :
    ramWindowOffset a = a.toNat - 0xA000 := by
  rw [Addr.within_iff] at ha
  simp only [ramWindowOffset, BitVec.toNat_setWidth]
  omega

theorem ramOffset_eq {a : Addr} (ha : Addr.within a 0xA000 0xBFFF = true) (bank : Nat) :
    ramOffset bank a = (a.toNat - 0xA000) + bank * 0x2000 := by
  simp only [ramOffset, ramWindowOffset_eq ha, Config.ramBankSize]

/-- Whether a field is used as 1 is decided on the field itself, before any modulo (20_memory R48). -/
theorem zeroAlias_toNat {n : Nat} (x : BitVec n) : zeroAlias x.toNat = if x = 0#n then 1 else x.toNat := by
  simp only [zeroAlias, BitVec.toNat_eq, BitVec.toNat_zero]

theorem one_le_zeroAlias (x : Nat) : 1 ≤ zeroAlias x := by
  unfold zeroAlias
  split <;> omega

theorem lowBits_eq_ofNat (n m : Nat) (hm : m = 2 ^ n) (v : Byte) : lowBits n v = BitVec.ofNat n (v.toNat % m) := by
  subst hm
  exact BitVec.eq_of_toNat_eq (by simp [lowBits])

theorem enableValue_eq_decide (v : Byte) : enableValue v = decide (v.toNat % 16 = 10) := by
  simp only [enableValue, lowBits, Bool.beq_eq_decide_eq, BitVec.toNat_eq, BitVec.toNat_setWidth, BitVec.toNat_ofNat,
    Nat.reducePow, Nat.reduceMod]

section ram
variable {s : State} {c : Cartridge} {o : Nat} {v : Byte}

/-- Off MBC2, RAM is accessible when the type has it, it has a bank, and the latch is set (R49 (b)). -/
theorem ramAccessible_iff {cfg : CartConfig} {ramEn : Bool} (hv : cfg.ctype.variant ≠ .mbc2) :
    ramAccessible cfg ramEn = true ↔ cfg.ctype.hasRam = true ∧ 1 ≤ cfg.ramBanks ∧ ramEn = true := by
  have husable : cfg.ramUsable = (cfg.ctype.hasRam && Nat.ble 1 cfg.ramBanks) := by
    unfold CartConfig.ramUsable ramUsable
    split
    · exact absurd ‹_› hv
    · rfl
  rw [ramAccessible, husable, Bool.and_eq_true, Bool.and_eq_true, Nat.ble_eq, and_assoc]

/-- Off MBC2, RAM that lacks one of the three conditions is not accessible. -/
theorem ramAccessible_eq_false {cfg : CartConfig} {ramEn : Bool} (hv : cfg.ctype.variant ≠ .mbc2)
    (h : cfg.ctype.hasRam = false ∨ cfg.ramBanks = 0 ∨ ramEn = false) : ramAccessible cfg ramEn = false := by
  rw [Bool.eq_false_iff, Ne, ramAccessible_iff hv]
  rintro ⟨hram, hbanks, hen⟩
  obtain h | h | h := h
  · exact Bool.eq_false_iff.1 h hram
  · omega
  · exact Bool.eq_false_iff.1 h hen

theorem cartRamRead_write_same (hs : s.sound = true) (hc : s.cart = some c) : cartRamRead (cartRamWrite c o v) o = v :=
  Memory.read_write_same (sound_ram_wf hs hc)

theorem cartRamRead_write_other (hs : s.sound = true) (hc : s.cart = some c) {p : Nat} (hp : p ≠ o) :
    cartRamRead (cartRamWrite c o v) p = cartRamRead c p :=
  Memory.read_write_other (sound_ram_wf hs hc) hp

/-- On a sound state a RAM write is a write of one byte. -/
theorem writeRam_writes_byte (hs : s.sound = true) (hc : s.cart = some c) :
    ∃ t, writeRam s c o v = .next t ∧ ramByteWritten s t c o v :=
  ⟨_, rfl, cartRamWrite c o v, rfl, rfl, rfl, cartRamRead_write_same hs hc, fun _ => cartRamRead_write_other hs hc⟩

end ram

end Sys2Proof.Machine
end

section
/-! The MBC1 operations (43_mbc1 R103 to R111). -/

namespace Sys2Proof.Machine

section mbc1
variable {s : State} {c : Cartridge} {r : Mbc1Regs} {a : Addr} {v : Byte}

/-- `bank2` stands above the 5 bits of the aliased `bank1`, so the two are added (R103). -/
theorem mbc1RomSel_eq (r : Mbc1Regs) : mbc1RomSel r =
    (if r.mode = 0#1 then 32 * r.bank2.toNat else 0) + (if r.bank1 = 0#5 then 1 else r.bank1.toNat) := by
  have hbank1 : zeroAlias r.bank1.toNat < 2 ^ 5 := by
    have := r.bank1.isLt
    unfold zeroAlias
    split <;> omega
  rw [← zeroAlias_toNat, mbc1RomSel]
  split
  · rw [← Nat.shiftLeft_add_eq_or_of_lt hbank1, Nat.shiftLeft_eq, Nat.mul_comm]
  · rw [Nat.zero_or, Nat.zero_add]

theorem one_le_mbc1RomSel (r : Mbc1Regs) : 1 ≤ mbc1RomSel r :=
  (one_le_zeroAlias _).trans Nat.right_le_or

/-- The selector has seven bits, two above five. -/
theorem mbc1RomSel_le (r : Mbc1Regs) : mbc1RomSel r ≤ 127 := by
  have hbank1 := r.bank1.isLt
  have hbank2 := r.bank2.isLt
  rw [mbc1RomSel_eq]
  split <;> split <;> omega

theorem execMbc1RdRam_accessible (hc : s.cart = some c) (hr : c.regs = .mbc1 r)
    (h : ramAccessible c.cfg r.ramEn = true) :
    execMbc1RdRam a s = respond s (cartRamRead c (ramOffset (mbc1CurRamBank c.cfg r) a)) :=
  (onMbc1_eq hc hr).trans (if_pos h)

theorem execMbc1RdRam_inaccessible (hc : s.cart = some c) (hr : c.regs = .mbc1 r)
    (h : ramAccessible c.cfg r.ramEn = false) : execMbc1RdRam a s = respond s Config.openBus :=
  (onMbc1_eq hc hr).trans (if_neg (Bool.eq_false_iff.1 h))

theorem execMbc1WrRam_accessible (hc : s.cart = some c) (hr : c.regs = .mbc1 r)
    (h : ramAccessible c.cfg r.ramEn = true) :
    execMbc1WrRam a v s = writeRam s c (ramOffset (mbc1CurRamBank c.cfg r) a) v :=
  (onMbc1_eq hc hr).trans (if_pos h)

theorem execMbc1WrRam_inaccessible (hc : s.cart = some c) (hr : c.regs = .mbc1 r)
    (h : ramAccessible c.cfg r.ramEn = false) : execMbc1WrRam a v s = done s :=
  (onMbc1_eq hc hr).trans (if_neg (Bool.eq_false_iff.1 h))

end mbc1

/-- Settles O32: the selector is a sum because its two fields do not overlap, and its range follows from their widths. -/
theorem mbc1CurrentBanks : Obligations.Mbc1CurrentBanks := by
  unfold Obligations.Mbc1CurrentBanks
  intro cfg r
  exact ⟨mbc1RomSel_eq r, one_le_mbc1RomSel r, mbc1RomSel_le r, rfl, rfl⟩

/-- Settles O33: each row serves its range, and a read answers the image byte at the window's offset, in bank 0 or in
the selected bank. -/
theorem mbc1RomReads : Obligations.Mbc1RomReads := by
  unfold Obligations.Mbc1RomReads
  intro s c r a hc hr
  refine ⟨fun hhi => ?_, fun hlo hhi => ?_⟩
  · have ha : Addr.within a 0x0000 0x3FFF = true := Addr.within_iff.2 ⟨Nat.zero_le _, hhi⟩
    rw [← romWindowOffset_eq_of_lower ha]
    exact ⟨decodeTransaction_of_wellFormed (i := .mbc1RdRom0 a) ha rfl rfl, onMbc1_eq hc hr⟩
  · have ha : Addr.within a 0x4000 0x7FFF = true := Addr.within_iff.2 ⟨hlo, hhi⟩
    rw [← mbc1RomSel_eq]
    intro sel
    rw [← romxOffset_eq ha]
    exact ⟨decodeTransaction_of_wellFormed (i := .mbc1RdRomx a) ha rfl rfl, onMbc1_eq hc hr⟩

/-- Settles O34: on a sound MBC1 the access gate is the three conditions, and behind it lies one byte at the window's
offset in the current RAM bank. -/
theorem mbc1RamAccess : Obligations.Mbc1RamAccess := by
  unfold Obligations.Mbc1RamAccess
  intro s c r a v hs hc hr hlo hhi
  have ha : Addr.within a 0xA000 0xBFFF = true := Addr.within_iff.2 ⟨hlo, hhi⟩
  have hv : c.cfg.ctype.variant ≠ .mbc2 := by
    rw [← fit_variant (sound_fit hs hc), hr]
    nofun
  rw [← ramOffset_eq ha]
  refine ⟨decodeTransaction_of_wellFormed (i := .mbc1RdRam a) ha rfl rfl,
    decodeTransaction_of_wellFormed (i := .mbc1WrRam a v) ha rfl rfl, fun hram hbanks hen => ?_, fun h => ?_⟩
  · have hacc := (ramAccessible_iff hv).2 ⟨hram, hbanks, hen⟩
    obtain ⟨t, ht, hw⟩ := writeRam_writes_byte (o := ramOffset (mbc1CurRamBank c.cfg r) a) (v := v) hs hc
    exact ⟨execMbc1RdRam_accessible hc hr hacc, t, (execMbc1WrRam_accessible hc hr hacc).trans ht, hw⟩
  · have hacc := ramAccessible_eq_false hv h
    exact ⟨execMbc1RdRam_inaccessible hc hr hacc, execMbc1WrRam_inaccessible hc hr hacc⟩

/-- Settles O35: each row serves its range, and its operation stores the field of the value in its one register. -/
theorem mbc1RegisterWrites : Obligations.Mbc1RegisterWrites := by
  unfold Obligations.Mbc1RegisterWrites
  intro s c r a v hc hr wrote
  rw [← enableValue_eq_decide, ← lowBits_eq_ofNat 5 32 rfl, ← lowBits_eq_ofNat 2 4 rfl, ← lowBits_eq_ofNat 1 2 rfl]
  refine ⟨fun hhi => ?_, fun hlo hhi => ?_, fun hlo hhi => ?_, fun hlo hhi => ?_⟩
  · have ha : Addr.within a 0x0000 0x1FFF = true := Addr.within_iff.2 ⟨Nat.zero_le _, hhi⟩
    exact ⟨decodeTransaction_of_wellFormed (i := .mbc1WrRamen a v) ha rfl rfl, onMbc1_eq hc hr⟩
  · have ha : Addr.within a 0x2000 0x3FFF = true := Addr.within_iff.2 ⟨hlo, hhi⟩
    exact ⟨decodeTransaction_of_wellFormed (i := .mbc1WrBank1 a v) ha rfl rfl, onMbc1_eq hc hr⟩
  · have ha : Addr.within a 0x4000 0x5FFF = true := Addr.within_iff.2 ⟨hlo, hhi⟩
    exact ⟨decodeTransaction_of_wellFormed (i := .mbc1WrBank2 a v) ha rfl rfl, onMbc1_eq hc hr⟩
  · have ha : Addr.within a 0x6000 0x7FFF = true := Addr.within_iff.2 ⟨hlo, hhi⟩
    exact ⟨decodeTransaction_of_wellFormed (i := .mbc1WrMode a v) ha rfl rfl, onMbc1_eq hc hr⟩

end Sys2Proof.Machine
end

section
/-! The MBC2 operations and its 4-bit cells (44_mbc2 R112 to R120). -/

namespace Sys2Proof.Machine

/-- A byte of storage is a listed one or its base, so what holds of both kinds holds of it. -/
theorem Memory.read_of_all {base : Nat → Byte} {m : Memory} {o : Nat} {p : Byte → Bool}
    (h : m.all (fun e => p e.2) = true) (hbase : p (base o) = true) : p (m.read base o) = true := by
  induction m with
  | nil => exact hbase
  | cons e rest ih =>
    rw [List.all_cons, Bool.and_eq_true] at h
    obtain ⟨he, hrest⟩ := h
    rw [read]
    split
    · exact he
    · exact ih hrest

/-- The lowest nine bits are those of `a - 0xA000`, as `0xA000` is a multiple of `0x200` (R112). -/
theorem mbc2Cell_eq {a : Addr} (ha : Addr.within a 0xA000 0xBFFF = true) :
    mbc2Cell a = (a.toNat - 0xA000) % 0x200 := by
  rw [Addr.within_iff] at ha
  simp only [mbc2Cell, BitVec.toNat_setWidth]
  omega

theorem lowNibble_eq_ofNat (v : Byte) : lowNibble v = BitVec.ofNat 8 (v.toNat % 16) := by
  apply BitVec.eq_of_toNat_eq
  have hand : (lowNibble v).toNat = v.toNat % 16 := Nat.and_two_pow_sub_one_eq_mod v.toNat 4
  rw [hand, BitVec.toNat_ofNat]
  omega

/-- Over a 4-bit cell the 1s of the high nibble are an addend (R116). -/
theorem nibbleRead_toNat {cell : Byte} (h : cell.toNat ≤ 0x0F) : (nibbleRead cell).toNat = 0xF0 + cell.toNat := by
  have hcell : cell.toNat < 2 ^ 4 := by omega
  exact (Nat.shiftLeft_add_eq_or_of_lt hcell 0x0F).symm

section mbc2
variable {s : State} {c : Cartridge} {r : Mbc2Regs} {a : Addr} {v : Byte}

/-- On a sound MBC2 every cell holds four bits (10_state R20). -/
theorem cartRamRead_le_of_mbc2 (hs : s.sound = true) (hc : s.cart = some c) (hr : c.regs = .mbc2 r) (o : Nat) :
    (cartRamRead c o).toNat ≤ 0x0F := by
  have hv : c.cfg.ctype.variant = .mbc2 := by
    rw [← fit_variant (sound_fit hs hc), hr]
    rfl
  have hram := sound_ram hs hc
  simp only [Cartridge.ramSound, hv, bne_self_eq_false, Bool.false_or, Bool.and_eq_true] at hram
  obtain ⟨-, hcells⟩ := hram
  exact Nat.le_of_ble_eq_true
    (Memory.read_of_all (p := fun b => Nat.ble b.toNat 0x0F) (base := unlistedRam) (o := o) hcells rfl)

theorem execMbc2RdRam_enabled (hc : s.cart = some c) (hr : c.regs = .mbc2 r) (h : r.ramEn = true) :
    execMbc2RdRam a s = respond s (nibbleRead (cartRamRead c (mbc2Cell a))) :=
  (onMbc2_eq hc hr).trans (if_pos h)

theorem execMbc2RdRam_disabled (hc : s.cart = some c) (hr : c.regs = .mbc2 r) (h : r.ramEn = false) :
    execMbc2RdRam a s = respond s Config.openBus :=
  (onMbc2_eq hc hr).trans (if_neg (Bool.eq_false_iff.1 h))

theorem execMbc2WrRam_enabled (hc : s.cart = some c) (hr : c.regs = .mbc2 r) (h : r.ramEn = true) :
    execMbc2WrRam a v s = writeRam s c (mbc2Cell a) (lowNibble v) :=
  (onMbc2_eq hc hr).trans (if_pos h)

theorem execMbc2WrRam_disabled (hc : s.cart = some c) (hr : c.regs = .mbc2 r) (h : r.ramEn = false) :
    execMbc2WrRam a v s = done s :=
  (onMbc2_eq hc hr).trans (if_neg (Bool.eq_false_iff.1 h))

/-- Address bit 8 clear tells the RAM-enable latch (R118). -/
theorem wellFormed_mbc2WrRamen (ha : Addr.within a 0x0000 0x3FFF = true) (h8 : a.getLsbD 8 = false) :
    (Instr.mbc2WrRamen a v).wellFormed = true := by
  simp only [Instr.wellFormed, ha, h8, Bool.not_false, Bool.and_self]

/-- Address bit 8 set tells the ROM bank register (R119). -/
theorem wellFormed_mbc2WrRomb (ha : Addr.within a 0x0000 0x3FFF = true) (h8 : a.getLsbD 8 = true) :
    (Instr.mbc2WrRomb a v).wellFormed = true := by
  simp only [Instr.wellFormed, ha, h8, Bool.and_self]

end mbc2

/-- Settles O36: each row serves its range, and a read answers the image byte at the window's offset, in bank 0 or in
the bank of the aliased register. -/
theorem mbc2RomReads : Obligations.Mbc2RomReads := by
  unfold Obligations.Mbc2RomReads
  intro s c r a hc hr
  refine ⟨fun hhi => ?_, fun hlo hhi => ?_⟩
  · have ha : Addr.within a 0x0000 0x3FFF = true := Addr.within_iff.2 ⟨Nat.zero_le _, hhi⟩
    rw [← romWindowOffset_eq_of_lower ha]
    exact ⟨decodeTransaction_of_wellFormed (i := .mbc2RdRom0 a) ha rfl rfl, onMbc2_eq hc hr⟩
  · have ha : Addr.within a 0x4000 0x7FFF = true := Addr.within_iff.2 ⟨hlo, hhi⟩
    rw [← zeroAlias_toNat]
    intro bank
    rw [← romxOffset_eq ha]
    exact ⟨decodeTransaction_of_wellFormed (i := .mbc2RdRomx a) ha rfl rfl, onMbc2_eq hc hr⟩

/-- Settles O37: the latch is the only gate, and behind it lies a cell of four bits, as the state is sound. -/
theorem mbc2RamAccess : Obligations.Mbc2RamAccess := by
  unfold Obligations.Mbc2RamAccess
  intro s c r a v hs hc hr hlo hhi
  have ha : Addr.within a 0xA000 0xBFFF = true := Addr.within_iff.2 ⟨hlo, hhi⟩
  rw [← mbc2Cell_eq ha, ← lowNibble_eq_ofNat]
  refine ⟨decodeTransaction_of_wellFormed (i := .mbc2RdRam a) ha rfl rfl,
    decodeTransaction_of_wellFormed (i := .mbc2WrRam a v) ha rfl rfl, fun hen => ⟨?_, ?_⟩, fun hdis => ?_⟩
  · exact ⟨_, execMbc2RdRam_enabled hc hr hen, nibbleRead_toNat (cartRamRead_le_of_mbc2 hs hc hr _)⟩
  · obtain ⟨t, ht, hw⟩ := writeRam_writes_byte (o := mbc2Cell a) (v := lowNibble v) hs hc
    exact ⟨t, (execMbc2WrRam_enabled hc hr hen).trans ht, hw⟩
  · exact ⟨execMbc2RdRam_disabled hc hr hdis, execMbc2WrRam_disabled hc hr hdis⟩

/-- Settles O38: below 0x4000 address bit 8 picks the row, whose operation stores the field of the value in its one
register; from there on a write only completes. -/
theorem mbc2RegisterWrites : Obligations.Mbc2RegisterWrites := by
  unfold Obligations.Mbc2RegisterWrites
  intro s c r a v hc hr wrote
  rw [← enableValue_eq_decide, ← lowBits_eq_ofNat 4 16 rfl]
  refine ⟨fun hhi h8 => ?_, fun hhi h8 => ?_, fun hlo hhi => ?_⟩
  · have ha : Addr.within a 0x0000 0x3FFF = true := Addr.within_iff.2 ⟨Nat.zero_le _, hhi⟩
    exact ⟨decodeTransaction_of_wellFormed (wellFormed_mbc2WrRamen ha h8) rfl rfl, onMbc2_eq hc hr⟩
  · have ha : Addr.within a 0x0000 0x3FFF = true := Addr.within_iff.2 ⟨Nat.zero_le _, hhi⟩
    exact ⟨decodeTransaction_of_wellFormed (wellFormed_mbc2WrRomb ha h8) rfl rfl, onMbc2_eq hc hr⟩
  · have ha : Addr.within a 0x4000 0x7FFF = true := Addr.within_iff.2 ⟨hlo, hhi⟩
    exact ⟨decodeTransaction_of_wellFormed (i := .mbc2WrIgnored a v) ha rfl rfl, onMbc2_eq hc hr⟩

end Sys2Proof.Machine
end

section
/-! The MBC3 operations, the target of its RAM window and its latch sequencer (45_mbc3 R121 to R131). -/

namespace Sys2Proof.Machine

/-- Off MBC2, RAM is usable when the type has it and it has a bank (10_state R16). -/
theorem ramUsable_iff {cfg : CartConfig} (hv : cfg.ctype.variant ≠ .mbc2) :
    cfg.ramUsable = true ↔ cfg.ctype.hasRam = true ∧ 1 ≤ cfg.ramBanks := by
  simpa only [ramAccessible, Bool.and_true, and_true] using ramAccessible_iff (ramEn := true) hv

/-! ### The RTC registers as bytes -/

theorem rtcRegOf_eq_none_iff {sel : Byte} : rtcRegOf sel = none ↔ sel.toNat < 8 ∨ 12 < sel.toNat := by
  simp only [rtcRegOf, BitVec.toNat_eq, BitVec.toNat_ofNat, Nat.reducePow, Nat.reduceMod]
  split_ifs <;> simp only [false_iff, true_iff] <;> omega

theorem sel_range_of_rtcRegOf {sel : Byte} {reg : RtcReg} (h : rtcRegOf sel = some reg) :
    8 ≤ sel.toNat ∧ sel.toNat ≤ 12 := by
  have hne := mt rtcRegOf_eq_none_iff.2 (by rw [h]; nofun)
  omega

theorem exists_rtcRegOf {sel : Byte} (hlo : 8 ≤ sel.toNat) (hhi : sel.toNat ≤ 12) : ∃ reg, rtcRegOf sel = some reg := by
  have hne := mt (rtcRegOf_eq_none_iff (sel := sel)).1 (by omega)
  exact Option.ne_none_iff_exists'.1 hne

/-- The fields of the DH byte do not overlap, so it is their sum (R123). -/
theorem dhByte_toNat (f : Rtc) : (dhByte f).toNat = 128 * f.DC.toNat + 64 * f.HALT.toNat + f.DH0.toNat := by
  have hlow : (0b00000#5 ++ f.DH0).toNat = f.DH0.toNat := by
    rw [BitVec.toNat_append]
    exact Nat.zero_or _
  have hhigh : (f.DC ++ f.HALT).toNat = 2 * f.DC.toNat + f.HALT.toNat := by
    rw [BitVec.toNat_append, ← Nat.shiftLeft_add_eq_or_of_lt f.HALT.isLt, Nat.shiftLeft_eq, Nat.mul_comm]
  rw [dhByte, BitVec.toNat_append, ← Nat.shiftLeft_add_eq_or_of_lt (BitVec.isLt _), Nat.shiftLeft_eq, hlow, hhigh]
  omega

/-- A write of DH takes bits 0, 6 and 7 of the value (R127). -/
theorem writeDh_eq (f : Rtc) (v : Byte) : writeDh f v =
    { f with DH0 := BitVec.ofNat 1 (v.toNat % 2), HALT := BitVec.ofNat 1 (v.toNat / 64 % 2),
             DC := BitVec.ofNat 1 (v.toNat / 128) } := by
  have hbit (i : Nat) : bitField i v = BitVec.ofNat 1 (v.toNat / 2 ^ i) :=
    congrArg (BitVec.ofNat 1) (Nat.shiftRight_eq_div_pow _ _)
  have hmod (n : Nat) : BitVec.ofNat 1 (n % 2) = BitVec.ofNat 1 n := BitVec.eq_of_toNat_eq (Nat.mod_mod n 2)
  simp only [writeDh, hbit, hmod, Nat.reducePow, Nat.div_one]

section mbc3
variable {s : State} {c : Cartridge} {r : Mbc3Regs} {a : Addr} {v : Byte} {b : Nat} {reg : RtcReg} {k : Clock}

theorem variant_ne_mbc2_of_mbc3 (hs : s.sound = true) (hc : s.cart = some c) (hr : c.regs = .mbc3 r) :
    c.cfg.ctype.variant ≠ .mbc2 := by
  rw [← fit_variant (sound_fit hs hc), hr]
  nofun

/-! ### What the RAM window reaches -/

theorem liveClock_eq_of_timer (ht : c.cfg.ctype.hasTimer = true) : liveClock c r = r.clock := if_pos ht

theorem liveClock_hasTimer (h : liveClock c r = some k) : c.cfg.ctype.hasTimer = true := by
  by_contra ht
  rw [liveClock, if_neg ht] at h
  cases h

theorem mbc3Target_eq_ram (hen : r.ramEn = true) (hsel : r.sel.toNat ≤ 7) (hu : c.cfg.ramUsable = true) :
    mbc3Target c r = .ram (mbc3CurRamBank c.cfg r) := by
  have hble : Nat.ble r.sel.toNat 7 = true := Nat.ble_eq_true_of_le hsel
  simp only [mbc3Target, hen, hble, hu, Bool.not_true, Bool.false_eq_true, if_false, Bool.and_self, if_true]

theorem mbc3Target_eq_rtc (hen : r.ramEn = true) (hreg : rtcRegOf r.sel = some reg) (hk : liveClock c r = some k) :
    mbc3Target c r = .rtc reg k := by
  have hble : Nat.ble r.sel.toNat 7 = false := by
    have hsel := sel_range_of_rtcRegOf hreg
    rw [Bool.eq_false_iff, Ne, Nat.ble_eq]
    omega
  simp only [mbc3Target, hen, hble, hreg, hk, Bool.not_true, Bool.false_and, Bool.false_eq_true, if_false]

/-- A clear latch, a select value past the RTC's, a select value past RAM's without a timer, or a select value of RAM
that is not usable: the window reaches nothing (R122). -/
theorem mbc3Target_eq_open (hv : c.cfg.ctype.variant ≠ .mbc2)
    (h : r.ramEn = false ∨ 12 < r.sel.toNat ∨ (7 < r.sel.toNat ∧ c.cfg.ctype.hasTimer = false) ∨
      (r.sel.toNat ≤ 7 ∧ (c.cfg.ctype.hasRam = false ∨ c.cfg.ramBanks = 0))) : mbc3Target c r = .open := by
  match ht : mbc3Target c r with
  | .open => rfl
  | .ram b =>
    obtain ⟨hen, hsel, hu, -⟩ := mbc3Target_ram ht
    obtain ⟨hram, hbanks⟩ := (ramUsable_iff hv).1 hu
    simp only [hen, hram, Bool.true_eq_false, false_or] at h
    omega
  | .rtc reg k =>
    obtain ⟨hen, hreg, hk⟩ := mbc3Target_rtc ht
    have hsel := sel_range_of_rtcRegOf hreg
    simp only [hen, liveClock_hasTimer hk, Bool.true_eq_false, and_false, false_or] at h
    omega

/-! ### The window operations by target -/

theorem execMbc3RdRam_ram (hc : s.cart = some c) (hr : c.regs = .mbc3 r) (ht : mbc3Target c r = .ram b) :
    execMbc3RdRam a s = respond s (cartRamRead c (ramOffset b a)) :=
  (onMbc3_eq hc hr).trans (by rw [ht])

theorem execMbc3RdRam_rtc (hc : s.cart = some c) (hr : c.regs = .mbc3 r) (ht : mbc3Target c r = .rtc reg k) :
    execMbc3RdRam a s = respond s (rtcByte k.rtcl reg) :=
  (onMbc3_eq hc hr).trans (by rw [ht])

theorem execMbc3RdRam_open (hc : s.cart = some c) (hr : c.regs = .mbc3 r) (ht : mbc3Target c r = .open) :
    execMbc3RdRam a s = respond s Config.openBus :=
  (onMbc3_eq hc hr).trans (by rw [ht])

theorem execMbc3WrRam_ram (hc : s.cart = some c) (hr : c.regs = .mbc3 r) (ht : mbc3Target c r = .ram b) :
    execMbc3WrRam a v s = writeRam s c (ramOffset b a) v :=
  (onMbc3_eq hc hr).trans (by rw [ht])

theorem execMbc3WrRam_rtc (hc : s.cart = some c) (hr : c.regs = .mbc3 r) (ht : mbc3Target c r = .rtc reg k) :
    execMbc3WrRam a v s = writeRegs s c (.mbc3 { r with clock := some { k with rtc := rtcWrite k.rtc v reg } }) :=
  (onMbc3_eq hc hr).trans (by rw [ht])

theorem execMbc3WrRam_open (hc : s.cart = some c) (hr : c.regs = .mbc3 r) (ht : mbc3Target c r = .open) :
    execMbc3WrRam a v s = done s :=
  (onMbc3_eq hc hr).trans (by rw [ht])

/-! ### The latch sequencer -/

/-- Where the live clock is the registers' own, a latch-range write is one register write, with a timer or without one
(R131). -/
theorem execMbc3WrLatch_eq (hc : s.cart = some c) (hr : c.regs = .mbc3 r) (hk : liveClock c r = r.clock) :
    execMbc3WrLatch a v s = writeRegs s c
      (.mbc3 { r with clock := r.clock.map (latchedClock r.latchPrev v), latchPrev := v }) := by
  refine (onMbc3_eq hc hr).trans ?_
  rw [hk]
  cases hclock : r.clock <;> rfl

/-- Only the completed sequence changes a clock, and then its latched copy alone (R131). -/
theorem map_latchedClock (prev v : Byte) (clock : Option Clock) : clock.map (latchedClock prev v) =
    if prev = 0x00#8 ∧ v = 0x01#8 then clock.map (fun k => { rtc := k.rtc, rtcl := k.rtc }) else clock := by
  unfold latchedClock
  split
  · rfl
  · exact Option.map_id'

end mbc3

/-- Settles O39: each row serves its range, and a read answers the image byte at the window's offset, in bank 0 or in
the bank of the aliased register. -/
theorem mbc3RomReads : Obligations.Mbc3RomReads := by
  unfold Obligations.Mbc3RomReads
  intro s c r a hc hr
  refine ⟨fun hhi => ?_, fun hlo hhi => ?_⟩
  · have ha : Addr.within a 0x0000 0x3FFF = true := Addr.within_iff.2 ⟨Nat.zero_le _, hhi⟩
    rw [← romWindowOffset_eq_of_lower ha]
    exact ⟨decodeTransaction_of_wellFormed (i := .mbc3RdRom0 a) ha rfl rfl, onMbc3_eq hc hr⟩
  · have ha : Addr.within a 0x4000 0x7FFF = true := Addr.within_iff.2 ⟨hlo, hhi⟩
    rw [← zeroAlias_toNat]
    intro bank
    rw [← romxOffset_eq ha]
    exact ⟨decodeTransaction_of_wellFormed (i := .mbc3RdRomx a) ha rfl rfl, onMbc3_eq hc hr⟩

/-- Settles O40: the conditions of each case fix the window's target, and the read answers that target's byte. -/
theorem mbc3WindowRead : Obligations.Mbc3WindowRead := by
  unfold Obligations.Mbc3WindowRead
  intro s c r a hs hc hr hlo hhi gives
  have ha : Addr.within a 0xA000 0xBFFF = true := Addr.within_iff.2 ⟨hlo, hhi⟩
  have hv := variant_ne_mbc2_of_mbc3 hs hc hr
  rw [← ramOffset_eq ha]
  refine ⟨decodeTransaction_of_wellFormed (i := .mbc3RdRam a) ha rfl rfl, fun hen hsel hram hbanks => ?_,
    fun k hen htimer hk hsello hselhi => ?_, fun h => execMbc3RdRam_open hc hr (mbc3Target_eq_open hv h)⟩
  · exact execMbc3RdRam_ram hc hr (mbc3Target_eq_ram hen hsel ((ramUsable_iff hv).2 ⟨hram, hbanks⟩))
  · obtain ⟨reg, hreg⟩ := exists_rtcRegOf hsello hselhi
    have htarget := mbc3Target_eq_rtc hen hreg ((liveClock_eq_of_timer htimer).trans hk)
    have hbyte {reg' : RtcReg} (h : rtcRegOf r.sel = some reg') : rtcByte k.rtcl reg = rtcByte k.rtcl reg' :=
      congrArg _ (Option.some.inj (hreg.symm.trans h))
    refine ⟨rtcByte k.rtcl reg, execMbc3RdRam_rtc hc hr htarget, fun hsel => ?_, fun hsel => ?_, fun hsel => ?_,
      fun hsel => ?_, fun hsel => ?_⟩
    · rw [hbyte (reg' := .S) (congrArg rtcRegOf hsel)]
      exact BitVec.toNat_setWidth_of_le (by decide)
    · rw [hbyte (reg' := .M) (congrArg rtcRegOf hsel)]
      exact BitVec.toNat_setWidth_of_le (by decide)
    · rw [hbyte (reg' := .H) (congrArg rtcRegOf hsel)]
      exact BitVec.toNat_setWidth_of_le (by decide)
    · exact hbyte (reg' := .DL) (congrArg rtcRegOf hsel)
    · rw [hbyte (reg' := .DH) (congrArg rtcRegOf hsel)]
      exact dhByte_toNat k.rtcl

/-- Settles O41: the conditions of each case fix the window's target, and the write reaches that target alone. -/
theorem mbc3WindowWrite : Obligations.Mbc3WindowWrite := by
  unfold Obligations.Mbc3WindowWrite
  intro s c r a v hs hc hr hlo hhi
  have ha : Addr.within a 0xA000 0xBFFF = true := Addr.within_iff.2 ⟨hlo, hhi⟩
  have hv := variant_ne_mbc2_of_mbc3 hs hc hr
  rw [← ramOffset_eq ha]
  refine ⟨decodeTransaction_of_wellFormed (i := .mbc3WrRam a v) ha rfl rfl, fun hen hsel hram hbanks => ?_,
    ?_, fun h => execMbc3WrRam_open hc hr (mbc3Target_eq_open hv h)⟩
  · have htarget := mbc3Target_eq_ram hen hsel ((ramUsable_iff hv).2 ⟨hram, hbanks⟩)
    obtain ⟨t, ht, hw⟩ := writeRam_writes_byte (o := ramOffset (mbc3CurRamBank c.cfg r) a) (v := v) hs hc
    exact ⟨t, (execMbc3WrRam_ram hc hr htarget).trans ht, hw⟩
  · intro k hen htimer hk wrote
    have hwrites {reg : RtcReg} (hreg : rtcRegOf r.sel = some reg) :
        execMbc3WrRam a v s = wrote (rtcWrite k.rtc v reg) :=
      execMbc3WrRam_rtc hc hr (mbc3Target_eq_rtc hen hreg ((liveClock_eq_of_timer htimer).trans hk))
    rw [← lowBits_eq_ofNat 6 64 rfl, ← lowBits_eq_ofNat 5 32 rfl]
    exact ⟨fun hsel => hwrites (reg := .S) (congrArg rtcRegOf hsel),
      fun hsel => hwrites (reg := .M) (congrArg rtcRegOf hsel),
      fun hsel => hwrites (reg := .H) (congrArg rtcRegOf hsel),
      fun hsel => hwrites (reg := .DL) (congrArg rtcRegOf hsel),
      fun hsel => (hwrites (reg := .DH) (congrArg rtcRegOf hsel)).trans (congrArg wrote (writeDh_eq k.rtc v))⟩

/-- Settles O42: each row serves its range, and its operation stores the field of the value in its one register. -/
theorem mbc3RegisterWrites : Obligations.Mbc3RegisterWrites := by
  unfold Obligations.Mbc3RegisterWrites
  intro s c r a v hc hr wrote
  rw [← enableValue_eq_decide, ← lowBits_eq_ofNat 7 128 rfl]
  refine ⟨fun hhi => ?_, fun hlo hhi => ?_, fun hlo hhi => ?_⟩
  · have ha : Addr.within a 0x0000 0x1FFF = true := Addr.within_iff.2 ⟨Nat.zero_le _, hhi⟩
    exact ⟨decodeTransaction_of_wellFormed (i := .mbc3WrRamen a v) ha rfl rfl, onMbc3_eq hc hr⟩
  · have ha : Addr.within a 0x2000 0x3FFF = true := Addr.within_iff.2 ⟨hlo, hhi⟩
    exact ⟨decodeTransaction_of_wellFormed (i := .mbc3WrRomb a v) ha rfl rfl, onMbc3_eq hc hr⟩
  · have ha : Addr.within a 0x4000 0x5FFF = true := Addr.within_iff.2 ⟨hlo, hhi⟩
    exact ⟨decodeTransaction_of_wellFormed (i := .mbc3WrSel a v) ha rfl rfl, onMbc3_eq hc hr⟩

/-- Settles O43: on a sound state the clock is there exactly with a timer, so the write stores the value beside what the
sequence makes of the clock. -/
theorem mbc3LatchWrite : Obligations.Mbc3LatchWrite := by
  unfold Obligations.Mbc3LatchWrite
  intro s c r a v hs hc hr hlo hhi
  have ha : Addr.within a 0x6000 0x7FFF = true := Addr.within_iff.2 ⟨hlo, hhi⟩
  rw [← map_latchedClock]
  exact ⟨decodeTransaction_of_wellFormed (i := .mbc3WrLatch a v) ha rfl rfl,
    execMbc3WrLatch_eq (a := a) hc hr (fit_liveClock hr (sound_fit hs hc))⟩

end Sys2Proof.Machine
end

section
/-! The MBC5 operations and the rumble output (46_mbc5 R135 to R145). -/

namespace Sys2Proof.Machine

/-! ### The fields of a written register -/

/-- The two parts of a word do not overlap, so it is their sum. -/
theorem append_eq_ofNat {m n : Nat} (x : BitVec m) (y : BitVec n) :
    x ++ y = BitVec.ofNat (m + n) (x.toNat * 2 ^ n + y.toNat) := by
  rw [← Nat.shiftLeft_eq, Nat.shiftLeft_add_eq_or_of_lt y.isLt, ← BitVec.toNat_append, BitVec.ofNat_toNat,
    BitVec.setWidth_eq]

/-- A write of the low half keeps bit 8 (R142). -/
theorem romb_writeLow (romb : BitVec 9) (v : Byte) :
    romb.extractLsb' 8 1 ++ v = BitVec.ofNat 9 (romb.toNat / 256 * 256 + v.toNat) := by
  have hhigh : (romb.extractLsb' 8 1).toNat = romb.toNat / 256 := by
    have := romb.isLt
    rw [BitVec.extractLsb'_toNat, Nat.shiftRight_eq_div_pow]
    omega
  rw [append_eq_ofNat, hhigh]
  rfl

/-- A write of bit 8 keeps the low half (R143). -/
theorem romb_writeHigh (romb : BitVec 9) (v : Byte) :
    bitField 0 v ++ romb.setWidth 8 = BitVec.ofNat 9 (v.toNat % 2 * 256 + romb.toNat % 256) := by
  have hbit : (bitField 0 v).toNat = v.toNat % 2 := BitVec.extractLsb'_toNat 0 1 v
  rw [append_eq_ofNat, hbit, BitVec.toNat_setWidth]
  rfl

theorem getLsbD_eq_decide_div_mod {n : Nat} (x : BitVec n) (i : Nat) :
    x.getLsbD i = decide (x.toNat / 2 ^ i % 2 = 1) :=
  Nat.testBit_eq_decide_div_mod_eq

/-- The top bit of a 4-bit register is its quotient. -/
theorem ramb_getLsbD_three (ramb : BitVec 4) : ramb.getLsbD 3 = decide (ramb.toNat / 8 = 1) := by
  have hmod : ramb.toNat / 2 ^ 3 % 2 = ramb.toNat / 8 := Nat.mod_eq_of_lt (Nat.div_lt_of_lt_mul ramb.isLt)
  rw [getLsbD_eq_decide_div_mod, hmod]

/-- The four low bits of a value hold its bit 3 (R144). -/
theorem lowBits_getLsbD_three (v : Byte) : (lowBits 4 v).getLsbD 3 = decide (v.toNat / 8 % 2 = 1) := by
  rw [lowBits, BitVec.getLsbD_setWidth, getLsbD_eq_decide_div_mod]
  rfl

/-- With rumble the RAM bank is selected by three of the four bits (R135). -/
theorem mbc5RamSel_eq (ct : ControllerType) (r : Mbc5Regs) :
    mbc5RamSel ct r = if ct.hasRumble then r.ramb.toNat % 8 else r.ramb.toNat := by
  rw [mbc5RamSel, BitVec.toNat_setWidth]

section mbc5
variable {s : State} {c : Cartridge} {r : Mbc5Regs} {a : Addr} {v : Byte}

theorem execMbc5RdRam_accessible (hc : s.cart = some c) (hr : c.regs = .mbc5 r)
    (h : ramAccessible c.cfg r.ramEn = true) :
    execMbc5RdRam a s = respond s (cartRamRead c (ramOffset (mbc5CurRamBank c.cfg r) a)) :=
  (onMbc5_eq hc hr).trans (if_pos h)

theorem execMbc5RdRam_inaccessible (hc : s.cart = some c) (hr : c.regs = .mbc5 r)
    (h : ramAccessible c.cfg r.ramEn = false) : execMbc5RdRam a s = respond s Config.openBus :=
  (onMbc5_eq hc hr).trans (if_neg (Bool.eq_false_iff.1 h))

theorem execMbc5WrRam_accessible (hc : s.cart = some c) (hr : c.regs = .mbc5 r)
    (h : ramAccessible c.cfg r.ramEn = true) :
    execMbc5WrRam a v s = writeRam s c (ramOffset (mbc5CurRamBank c.cfg r) a) v :=
  (onMbc5_eq hc hr).trans (if_pos h)

theorem execMbc5WrRam_inaccessible (hc : s.cart = some c) (hr : c.regs = .mbc5 r)
    (h : ramAccessible c.cfg r.ramEn = false) : execMbc5WrRam a v s = done s :=
  (onMbc5_eq hc hr).trans (if_neg (Bool.eq_false_iff.1 h))

/-- The motor output of a loaded MBC5 (R136). -/
theorem rumbleMotor_eq (hc : s.cart = some c) (hr : c.regs = .mbc5 r) :
    rumbleMotor s = if c.cfg.ctype.hasRumble then some (r.ramb.getLsbD 3) else none := by
  simp only [rumbleMotor, hc, hr]

/-- A write of `ramb` leaves the cartridge with the new register and the same type (R144). -/
theorem execMbc5WrRamb_cart (a : Addr) (v : Byte) (hc : s.cart = some c) (hr : c.regs = .mbc5 r) :
    ∃ t, execMbc5WrRamb a v s = .next t ∧ t.cart = some { c with regs := .mbc5 { r with ramb := lowBits 4 v } } :=
  ⟨_, onMbc5_eq hc hr, rfl⟩

end mbc5

/-- Settles O48: each row serves its range, and a read answers the image byte at the window's offset, in bank 0 or in
the bank of the register as it stands. -/
theorem mbc5RomReads : Obligations.Mbc5RomReads := by
  unfold Obligations.Mbc5RomReads
  intro s c r a hc hr
  refine ⟨fun hhi => ?_, fun hlo hhi => ?_⟩
  · have ha : Addr.within a 0x0000 0x3FFF = true := Addr.within_iff.2 ⟨Nat.zero_le _, hhi⟩
    rw [← romWindowOffset_eq_of_lower ha]
    exact ⟨decodeTransaction_of_wellFormed (i := .mbc5RdRom0 a) ha rfl rfl, onMbc5_eq hc hr⟩
  · have ha : Addr.within a 0x4000 0x7FFF = true := Addr.within_iff.2 ⟨hlo, hhi⟩
    intro bank
    rw [← romxOffset_eq ha]
    exact ⟨decodeTransaction_of_wellFormed (i := .mbc5RdRomx a) ha rfl rfl, onMbc5_eq hc hr⟩

/-- Settles O49: on a sound MBC5 the access gate is the three conditions, and behind it lies one byte at the window's
offset in the current RAM bank. -/
theorem mbc5RamAccess : Obligations.Mbc5RamAccess := by
  unfold Obligations.Mbc5RamAccess
  intro s c r a v hs hc hr hlo hhi
  have ha : Addr.within a 0xA000 0xBFFF = true := Addr.within_iff.2 ⟨hlo, hhi⟩
  have hv : c.cfg.ctype.variant ≠ .mbc2 := by
    rw [← fit_variant (sound_fit hs hc), hr]
    nofun
  rw [← mbc5RamSel_eq]
  intro sel
  rw [← ramOffset_eq ha]
  refine ⟨decodeTransaction_of_wellFormed (i := .mbc5RdRam a) ha rfl rfl,
    decodeTransaction_of_wellFormed (i := .mbc5WrRam a v) ha rfl rfl, fun hram hbanks hen => ?_, fun h => ?_⟩
  · have hacc := (ramAccessible_iff hv).2 ⟨hram, hbanks, hen⟩
    obtain ⟨t, ht, hw⟩ := writeRam_writes_byte (o := ramOffset (mbc5CurRamBank c.cfg r) a) (v := v) hs hc
    exact ⟨execMbc5RdRam_accessible hc hr hacc, t, (execMbc5WrRam_accessible hc hr hacc).trans ht, hw⟩
  · have hacc := ramAccessible_eq_false hv h
    exact ⟨execMbc5RdRam_inaccessible hc hr hacc, execMbc5WrRam_inaccessible hc hr hacc⟩

/-- Settles O50: each row serves its range, and its operation stores the field of the value in its one register, either
half of `romb` beside the other; from 0x6000 on a write only completes. -/
theorem mbc5RegisterWrites : Obligations.Mbc5RegisterWrites := by
  unfold Obligations.Mbc5RegisterWrites
  intro s c r a v hc hr wrote
  rw [← enableValue_eq_decide, ← romb_writeLow, ← romb_writeHigh, ← lowBits_eq_ofNat 4 16 rfl]
  refine ⟨fun hhi => ?_, fun hlo hhi => ?_, fun hlo hhi => ?_, fun hlo hhi => ?_, fun hlo hhi => ?_⟩
  · have ha : Addr.within a 0x0000 0x1FFF = true := Addr.within_iff.2 ⟨Nat.zero_le _, hhi⟩
    exact ⟨decodeTransaction_of_wellFormed (i := .mbc5WrRamen a v) ha rfl rfl, onMbc5_eq hc hr⟩
  · have ha : Addr.within a 0x2000 0x2FFF = true := Addr.within_iff.2 ⟨hlo, hhi⟩
    exact ⟨decodeTransaction_of_wellFormed (i := .mbc5WrRombLo a v) ha rfl rfl, onMbc5_eq hc hr⟩
  · have ha : Addr.within a 0x3000 0x3FFF = true := Addr.within_iff.2 ⟨hlo, hhi⟩
    exact ⟨decodeTransaction_of_wellFormed (i := .mbc5WrRombHi a v) ha rfl rfl, onMbc5_eq hc hr⟩
  · have ha : Addr.within a 0x4000 0x5FFF = true := Addr.within_iff.2 ⟨hlo, hhi⟩
    exact ⟨decodeTransaction_of_wellFormed (i := .mbc5WrRamb a v) ha rfl rfl, onMbc5_eq hc hr⟩
  · have ha : Addr.within a 0x6000 0x7FFF = true := Addr.within_iff.2 ⟨hlo, hhi⟩
    exact ⟨decodeTransaction_of_wellFormed (i := .mbc5WrIgnored a v) ha rfl rfl, onMbc5_eq hc hr⟩

/-- Settles O51: the write stores the value's low four bits in `ramb` and keeps the type, and the output reads bit 3 of
`ramb` before and after. -/
theorem rumbleMotorFollowsRamb : Obligations.RumbleMotorFollowsRamb := by
  unfold Obligations.RumbleMotorFollowsRamb
  intro s c r a v hc hr
  rw [← ramb_getLsbD_three, ← lowBits_getLsbD_three]
  obtain ⟨t, ht, hcart⟩ := execMbc5WrRamb_cart a v hc hr
  have hmotor := rumbleMotor_eq hcart rfl
  exact ⟨rumbleMotor_eq hc hr, t, ht, hmotor⟩

end Sys2Proof.Machine
end

section
/-! The encodings (30_encoding): a transaction's bytes are read back, what a transaction decodes to is the operation it
issues, and the table has exactly one row for every key. -/

namespace Sys2Proof

/-! ### The bytes of a transaction (log 7) -/

theorem Addr.append_bytes (a : Addr) : a.extractLsb' 8 8 ++ a.setWidth 8 = a := by
  rw [BitVec.setWidth_eq_extractLsb' (by decide)]
  exact BitVec.extractLsb'_append_extractLsb'

theorem transactionOfBytes_bytes (t : Transaction) (rest : List Byte) :
    transactionOfBytes (t.bytes ++ rest) = .ok t rest := by
  cases t with
  | rd a => simp [Transaction.bytes, transactionOfBytes, Addr.append_bytes]
  | wr a v => simp [Transaction.bytes, transactionOfBytes, Addr.append_bytes]

theorem bytes_of_transactionOfBytes {bytes rest : List Byte} {t : Transaction}
    (h : transactionOfBytes bytes = .ok t rest) : bytes = t.bytes ++ rest := by
  have hsplit (hi lo : Byte) : (hi ++ lo : Addr).extractLsb' 8 8 = hi ∧ (hi ++ lo : Addr).setWidth 8 = lo :=
    ⟨BitVec.extractLsb'_append_eq_left, BitVec.setWidth_append_eq_right⟩
  unfold transactionOfBytes at h
  split at h
  next k0 k1 k2 tail =>
    split at h
    next hk2 =>
      cases h
      simp only [Transaction.bytes, hsplit, hk2, List.cons_append, List.nil_append]
    next =>
      split at h
      next hk2 =>
        split at h
        next =>
          cases h
          simp only [Transaction.bytes, hsplit, hk2, List.cons_append, List.nil_append]
        next => cases h
      next => cases h
  next => cases h

/-! ### Decoding bytes -/

variable {vr : Variant} {t : Transaction} {i : Instr}

theorem decode_bytes (rest : List Byte) (h : decodeTransaction vr t = some i) :
    decode vr (t.bytes ++ rest) = .ok i rest := by
  simp only [decode, transactionOfBytes_bytes, h]

theorem decode_ok {bytes rest : List Byte} (h : decode vr bytes = .ok i rest) :
    ∃ t, bytes = t.bytes ++ rest ∧ decodeTransaction vr t = some i := by
  unfold decode at h
  split at h
  next => cases h
  next t rest' ht =>
    split at h
    next i' hi =>
      cases h
      exact ⟨t, bytes_of_transactionOfBytes ht, hi⟩
    next => cases h

/-- What a transaction decodes to is the well-formed operation of the variant that it issues, as there is one. -/
theorem serves_of_decodeTransaction (h : decodeTransaction vr t = some i) : i.Serves vr t := by
  obtain ⟨j, hj⟩ := exists_serves vr t
  have hdecode := decodeTransaction_of_wellFormed hj.wellFormed hj.belongs hj.transaction
  obtain rfl : j = i := Option.some.inj (hdecode.symm.trans h)
  exact hj

theorem encode_eq_bytes (h : i.transaction = some t) : encode i = t.bytes := by
  rw [encode, h]

/-- Settles O1: the operation's transaction decodes to it, and a transaction's bytes are read back. -/
theorem decodeOfEncodeIsTheOperation : Obligations.DecodeOfEncodeIsTheOperation := by
  unfold Obligations.DecodeOfEncodeIsTheOperation
  intro i vr rest hw hbus hb
  obtain ⟨t, ht⟩ := Option.isSome_iff_exists.1 hbus
  rw [encode_eq_bytes ht]
  exact decode_bytes rest (decodeTransaction_of_wellFormed hw hb ht)

/-- Settles O2: accepted bytes are those of a transaction, and what it decodes to is the operation it issues. -/
theorem acceptedBytesAreTheEncoding : Obligations.AcceptedBytesAreTheEncoding := by
  unfold Obligations.AcceptedBytesAreTheEncoding
  intro vr bytes rest i h
  obtain ⟨t, hbytes, hi⟩ := decode_ok h
  have hserves := serves_of_decodeTransaction hi
  rw [encode_eq_bytes hserves.transaction]
  exact ⟨hserves.wellFormed, hserves.belongs, hbytes⟩

/-! ### One row for every key -/

/-- A row that hits a key is the only one: any two rows are apart (30_encoding R70). -/
theorem length_filter_hits {r : Row} {k : BitVec 17} (hr : r ∈ rows) (hk : r.hits vr k = true) :
    (rows.filter (fun r => r.hits vr k)).length = 1 := by
  have hmem : r ∈ rows.filter (fun r => r.hits vr k) := List.mem_filter.2 ⟨hr, hk⟩
  have hapart := rows_pairwise_apart.filter (fun r => r.hits vr k)
  have hhits : ∀ q ∈ rows.filter (fun r => r.hits vr k), q.hits vr k = true := fun q hq => (List.mem_filter.1 hq).2
  match hl : rows.filter (fun r => r.hits vr k) with
  | [] =>
    rw [hl] at hmem
    cases hmem
  | [q] =>
    rw [hl]
    rfl
  | q :: q' :: l =>
    rw [hl] at hapart hhits
    have hqq' : q.apart q' = true := List.rel_of_pairwise_cons hapart List.mem_cons_self
    exact (Row.not_hits_of_apart hqq' (hhits q (by simp)) (hhits q' (by simp))).elim

/-- The addresses the cartridge answers (41_address_space R89). -/
def Addr.InCart (a : Addr) : Prop := a.toNat ≤ 0x7FFF ∨ (0xA000 ≤ a.toNat ∧ a.toNat ≤ 0xBFFF)

theorem Addr.inCart_of_within {a : Addr} {lo hi : Nat} (h : Addr.within a lo hi = true)
    (hr : hi ≤ 0x7FFF ∨ (0xA000 ≤ lo ∧ hi ≤ 0xBFFF)) : a.InCart := by
  rw [Addr.within_iff] at h
  unfold Addr.InCart
  omega

theorem Addr.not_inCart_of_within {a : Addr} {lo hi : Nat} (h : Addr.within a lo hi = true)
    (hr : (0x8000 ≤ lo ∧ hi ≤ 0x9FFF) ∨ 0xC000 ≤ lo) : ¬a.InCart := by
  rw [Addr.within_iff] at h
  unfold Addr.InCart
  omega

/-- An operation of every variant is one of the AddressSpace's ranges, and an operation of one variant is one of the
cartridge's. -/
theorem Instr.Serves.variant_isSome_iff (h : i.Serves vr t) : i.variant.isSome = true ↔ t.addr.InCart := by
  obtain ⟨hw, -, ht⟩ := h
  cases i with
  | asRdWram | asWrWram | asRdUnmapped8000 | asRdUnmappedE000 | asWrUnmapped8000 | asWrUnmappedE000 =>
    cases ht
    exact iff_of_false nofun (Addr.not_inCart_of_within hw (by decide))
  | mbc2WrRamen | mbc2WrRomb =>
    cases ht
    exact iff_of_true rfl (Addr.inCart_of_within (Bool.and_eq_true_iff.1 hw).1 (by decide))
  | load | mbc3RtcTick => cases ht
  | _ =>
    cases ht
    exact iff_of_true rfl (Addr.inCart_of_within hw (by decide))

theorem Instr.Serves.variant_eq (h : i.Serves vr t) :
    i.variant = if t.addr.toNat ≤ 0x7FFF ∨ (0xA000 ≤ t.addr.toNat ∧ t.addr.toNat ≤ 0xBFFF) then some vr else none := by
  have hregion := h.variant_isSome_iff
  have hb := h.belongs
  unfold Addr.InCart at hregion
  unfold Instr.belongs at hb
  match hv : i.variant with
  | none =>
    rw [hv] at hregion
    rw [if_neg (mt hregion.2 nofun)]
  | some x =>
    rw [hv] at hregion hb
    rw [if_pos (hregion.1 rfl), eq_of_beq hb]

/-- Settles O3: the operation a transaction issues has a row, no two rows hit one key, and the operation's range says
whose row it is. -/
theorem exactlyOneRowMatchesEveryKey : Obligations.ExactlyOneRowMatchesEveryKey := by
  unfold Obligations.ExactlyOneRowMatchesEveryKey
  intro vr t
  obtain ⟨i, hi⟩ := exists_serves vr t
  have hdecode := decodeTransaction_of_wellFormed hi.wellFormed hi.belongs hi.transaction
  obtain ⟨r, hr, hk, -⟩ := decodeTransaction_some hdecode
  exact ⟨length_filter_hits hr hk, i, hdecode, hi.transaction, hi.variant_eq⟩

/-- Settles O4: the decoder runs on each sample. -/
theorem sampleTransactionsDecode : Obligations.SampleTransactionsDecode := by
  unfold Obligations.SampleTransactionsDecode
  decide

namespace Machine

theorem step_cons {s : State} {inp : Input} {rest : List Input} (h : s.inputs = inp :: rest) :
    step s = serve inp { s with inputs := rest } := by
  simp only [step, h]

/-- Settles O5: a step serves the first input; a transaction's bytes decode to what the transaction decodes to. -/
theorem stepRunsTheDecodedOperation : Obligations.StepRunsTheDecodedOperation := by
  unfold Obligations.StepRunsTheDecodedOperation
  refine ⟨fun s c t i rest hin hc hdec => ?_, fun s bytes checkLogo rest hin => step_cons hin,
    fun s rest hin => step_cons hin⟩
  obtain ⟨t', hbytes, hi⟩ := decode_ok hdec
  have ht := transactionOfBytes_bytes t' []
  rw [← hbytes, ← List.append_nil t.bytes, transactionOfBytes_bytes] at ht
  cases ht
  have hserves := serves_of_decodeTransaction hi
  exact (step_cons hin).trans (serveBus_eq hc hserves.wellFormed hserves.belongs hserves.transaction)

end Machine

end Sys2Proof
end

section
/-! What serving one pending input can do: the effects of the events and of the host's accesses, beside those of a bus
transaction and of a load (20_memory R44, R51, R52). -/

namespace Sys2Proof.Machine

variable {s u : State}

/-! ### The agents' own accesses -/

/-- What the oscillator, the host save agent, the host's supply and a power cycle do to `wram` and `cart`. -/
inductive AgentEffect (s u : State) : Prop where
  /-- nothing -/
  | same (hw : u.wram = s.wram) (hc : u.cart = s.cart) (hp : u.params.initWram = s.params.initWram)
  /-- one byte of cartridge RAM is overwritten, inside the buffer -/
  | ram (c : Cartridge) (o : Nat) (v : Byte) (hs : s.cart = some c) (ho : o < c.cfg.ramSize)
      (hc : u.cart = some (cartRamWrite c o (initCell c.cfg.ctype v))) (hw : u.wram = s.wram) (hp : u.params = s.params)
  /-- the live clock advances or is overwritten -/
  | clock (c : Cartridge) (r : Mbc3Regs) (k : Clock) (f : Rtc) (hs : s.cart = some c) (hr : c.regs = .mbc3 r)
      (hk : r.clock = some k)
      (hc : u.cart = some { c with regs := .mbc3 { r with clock := some { k with rtc := f } } })
      (hw : u.wram = s.wram) (hp : u.params = s.params)
  /-- the power-on contents, with no cartridge -/
  | powerOn (hw : u.wram = []) (hc : u.cart = none)

/-- An agent's access keeps the pending inputs, and has one of the effects above. -/
structure AgentDoes (s u : State) : Prop where
  inputs : u.inputs = s.inputs
  effect : AgentEffect s u

theorem agentDoes_answer {r : Response} (h : answer s r = .next u) : AgentDoes s u := by
  cases h
  exact ⟨rfl, .same rfl rfl rfl⟩

theorem timerOf_some {c : Cartridge} {r : Mbc3Regs} {k : Clock} (h : timerOf s = some (c, r, k)) :
    s.cart = some c ∧ c.regs = .mbc3 r ∧ liveClock c r = some k := by
  unfold timerOf at h
  split at h
  next => cases h
  next c' hc =>
    split at h
    next r' hr =>
      obtain ⟨k', hk, heq⟩ := Option.map_eq_some_iff.1 h
      cases heq
      exact ⟨hc, hr, hk⟩
    all_goals cases h

theorem timerOf_eq {c : Cartridge} {r : Mbc3Regs} (hc : s.cart = some c) (hr : c.regs = .mbc3 r) :
    timerOf s = (liveClock c r).map fun k => (c, r, k) := by
  simp only [timerOf, hc, hr]

theorem agentDoes_hostReadRam {o : Nat} (h : hostReadRam o s = .next u) : AgentDoes s u := by
  unfold hostReadRam at h
  split at h
  next => exact agentDoes_answer h
  next => split at h <;> exact agentDoes_answer h

theorem agentDoes_hostWriteRam {o : Nat} {v : Byte} (h : hostWriteRam o v s = .next u) : AgentDoes s u := by
  unfold hostWriteRam at h
  split at h
  next => exact agentDoes_answer h
  next c hc =>
    split at h
    next ho =>
      cases h
      exact ⟨rfl, .ram c o v hc ho rfl rfl rfl⟩
    next => exact agentDoes_answer h

theorem agentDoes_hostReadRtc (h : hostReadRtc s = .next u) : AgentDoes s u := by
  unfold hostReadRtc at h
  split at h <;> exact agentDoes_answer h

theorem agentDoes_hostWriteRtc {f : Rtc} (h : hostWriteRtc f s = .next u) : AgentDoes s u := by
  unfold hostWriteRtc at h
  split at h
  next => exact agentDoes_answer h
  next c r k htimer =>
    obtain ⟨hc, hr, hk⟩ := timerOf_some htimer
    cases h
    exact ⟨rfl, .clock c r k f hc hr (liveClock_some hk) rfl rfl rfl⟩

theorem agentDoes_execMbc3RtcTick (h : execMbc3RtcTick s = .next u) : AgentDoes s u := by
  obtain ⟨c, r, k, hc, hr, hk, rfl⟩ := execMbc3RtcTick_next h
  exact ⟨rfl, .clock c r k _ hc hr (liveClock_some hk) rfl rfl rfl⟩

/-- Everything one pending input can do. -/
theorem serve_next {inp : Input} (h : serve inp s = .next u) :
    (∃ t, inp = .bus t ∧ serveBus t s = .next u) ∨
    (∃ bytes checkLogo, inp = .load bytes checkLogo ∧ execLoad bytes checkLogo s = .next u) ∨ AgentDoes s u := by
  cases inp with
  | bus t => exact .inl ⟨t, rfl, h⟩
  | load bytes checkLogo => exact .inr (.inl ⟨bytes, checkLogo, rfl, h⟩)
  | supply initCartRam initRtc =>
    cases h
    exact .inr (.inr ⟨rfl, .same rfl rfl rfl⟩)
  | tick => exact .inr (.inr (agentDoes_execMbc3RtcTick h))
  | hostReadRam o => exact .inr (.inr (agentDoes_hostReadRam h))
  | hostWriteRam o v => exact .inr (.inr (agentDoes_hostWriteRam h))
  | hostReadRtc => exact .inr (.inr (agentDoes_hostReadRtc h))
  | hostWriteRtc f => exact .inr (.inr (agentDoes_hostWriteRtc h))
  | powerCycle initWram =>
    cases h
    exact .inr (.inr ⟨rfl, .powerOn rfl rfl⟩)

/-- Settles O8: no input touches those still pending. -/
theorem stepConsumesInputsInOrder : Obligations.StepConsumesInputsInOrder := by
  unfold Obligations.StepConsumesInputsInOrder
  intro s u inp rest hin h
  rw [step_cons hin] at h
  obtain ⟨t, -, h⟩ | ⟨bytes, checkLogo, -, h⟩ | h := serve_next h
  · exact (serveBus_does h).inputs
  · exact (does_execLoad h).inputs
  · exact h.inputs

end Sys2Proof.Machine
end

section
/-! The invariant (10_state section 1): each effect of an operation keeps it, a loaded cartridge has it, and so every
step keeps it. -/

namespace Sys2Proof.Machine

variable {s u : State} {c : Cartridge}

/-! ### The parts of the invariant -/

theorem Cartridge.sound_iff :
    c.sound = true ↔ c.cfg.sound = true ∧ c.regs.fit c.cfg.ctype = true ∧ c.ramSound = true := by
  simp only [Cartridge.sound, Bool.and_eq_true, and_assoc]

theorem State.sound_iff : s.sound = true ↔
    s.wram.wf (unlistedWram s.params) = true ∧ s.wram.below Config.wramSize = true ∧
      ∀ c, s.cart = some c → c.sound = true := by
  simp only [State.sound, Bool.and_eq_true, and_assoc, Option.all_eq_true]

theorem ramSound_iff : c.ramSound = true ↔
    c.ram.wf unlistedRam = true ∧ c.ram.below c.cfg.ramSize = true ∧
      (c.cfg.ctype.variant = .mbc2 → c.ram.all (fun e => Nat.ble e.2.toNat 0x0F) = true) := by
  simp only [Cartridge.ramSound, Bool.and_eq_true, and_assoc, Bool.or_eq_true, bne_iff_ne, ne_eq, imp_iff_not_or]

/-! ### Changes of a sound cartridge -/

theorem Cartridge.sound_setRegs {rs : Regs} (h : c.sound = true) (hfit : rs.fit c.cfg.ctype = true) :
    ({ c with regs := rs } : Cartridge).sound = true := by
  obtain ⟨hcfg, -, hram⟩ := Cartridge.sound_iff.1 h
  exact Cartridge.sound_iff.2 ⟨hcfg, hfit, hram⟩

theorem Cartridge.sound_ramWrite {o : Nat} {v : Byte} (h : c.sound = true) (ho : o < c.cfg.ramSize)
    (hv : c.cfg.ctype.variant = .mbc2 → v.toNat ≤ 0x0F) : (cartRamWrite c o v).sound = true := by
  obtain ⟨hcfg, hfit, hram⟩ := Cartridge.sound_iff.1 h
  obtain ⟨hwf, hbelow, hcells⟩ := ramSound_iff.1 hram
  exact Cartridge.sound_iff.2 ⟨hcfg, hfit, ramSound_iff.2 ⟨Memory.wf_write hwf, Memory.below_write hbelow ho,
    fun hm => Memory.all_write (hcells hm) (Nat.ble_eq_true_of_le (hv hm))⟩⟩

theorem initCell_le {ct : ControllerType} (v : Byte) (h : ct.variant = .mbc2) : (initCell ct v).toNat ≤ 0x0F := by
  rw [initCell_eq, if_pos h]
  exact lowNibble_le v

/-! ### A loaded cartridge -/

theorem romTable_range : ∀ p ∈ romTable, 2 ≤ p.2 ∧ p.2 ≤ Config.maxRomBanks := by decide

theorem ramTable_range : ∀ p ∈ ramTable, p.2 ≤ Config.maxRamBanks := by decide

theorem resetRegs_fit (f : Rtc) (ct : ControllerType) : (resetRegs f ct).fit ct = true := by
  cases ct with
  | mbc3 _ _ _ timer => cases timer <;> rfl
  | romOnly | mbc1 | mbc2 | mbc5 => rfl

theorem freshCartridge_ramSound (p : Params) (bytes : List Byte) (ct : ControllerType) (rb qb : Nat) :
    (freshCartridge p bytes ct rb qb).ramSound = true := by
  refine ramSound_iff.2 ⟨Memory.wfFrom_ofBytesFrom 0 _, Memory.below_ofBytesFrom 0 _ _ ?_, fun hm => ?_⟩
  · rw [Nat.zero_add, List.length_map]
    exact List.length_take_le _ _
  · refine Memory.all_ofBytesFrom 0 _ (fun b => Nat.ble b.toNat 0x0F) (List.all_eq_true.2 fun b hb => ?_)
    obtain ⟨x, -, rfl⟩ := List.mem_map.1 hb
    exact Nat.ble_eq_true_of_le (initCell_le x hm)

theorem loadImage_sound {p : Params} {bytes : List Byte} {check : Bool} (h : loadImage p bytes check = .loaded c) :
    c.sound = true := by
  obtain ⟨ct, rb, qb, hlen, -, hrb, hqb, -, rfl⟩ := loadImage_loaded h
  rw [romBanks_eq_lookup] at hrb
  rw [ramBanks_eq_lookup] at hqb
  obtain ⟨hlo, hhi⟩ := romTable_range _ (mem_of_lookup hrb)
  have hqhi := ramTable_range _ (mem_of_lookup hqb)
  refine Cartridge.sound_iff.2 ⟨?_, resetRegs_fit _ ct, freshCartridge_ramSound ..⟩
  simp only [CartConfig.sound, freshCartridge, headerOf, Bool.and_eq_true, Nat.ble_eq, beq_self_eq_true, and_true]
  exact ⟨⟨⟨hlo, hhi⟩, hqhi⟩, hlen⟩

/-! ### Every step -/

/-- The cartridge part of the invariant, where only the cartridge changes. -/
theorem State.sound_of_cart (hs : s.sound = true) (hw : u.wram = s.wram) (hp : u.params.initWram = s.params.initWram)
    (hc : ∀ c, u.cart = some c → c.sound = true) : u.sound = true := by
  obtain ⟨hwf, hbelow, -⟩ := State.sound_iff.1 hs
  have hbase : unlistedWram u.params = unlistedWram s.params := by
    funext o
    rw [unlistedWram, hp, unlistedWram]
  exact State.sound_iff.2 ⟨by rwa [hw, hbase], by rwa [hw], hc⟩

theorem State.sound_of_some (hs : s.sound = true) (hw : u.wram = s.wram)
    (hp : u.params.initWram = s.params.initWram) (hu : u.cart = some c) (hc : c.sound = true) : u.sound = true := by
  refine State.sound_of_cart hs hw hp fun c' hc' => ?_
  cases hu.symm.trans hc'
  exact hc

/-- Whatever an operation does keeps the invariant. -/
theorem Does.keeps_sound (h : Does s u) (hs : s.sound = true) : u.sound = true := by
  obtain ⟨-, hp, heffect⟩ := h
  have hp' : u.params.initWram = s.params.initWram := congrArg Params.initWram hp
  obtain ⟨hwf, hbelow, hcart⟩ := State.sound_iff.1 hs
  cases heffect with
  | same hw hc => exact State.sound_of_cart hs hw hp' fun c hu => hcart c (hc ▸ hu)
  | wram a v hw hc =>
    rw [State.sound_iff, hw, hc, hp, wramWrite_wram]
    exact ⟨Memory.wf_write hwf, Memory.below_write hbelow (wramOffset_lt a), hcart⟩
  | regs c rs hsc hc hw hfit =>
    exact State.sound_of_some hs hw hp' hc (Cartridge.sound_setRegs (hcart c hsc) (hfit (sound_fit hs hsc)))
  | ram c o v hsc hc hw hin =>
    obtain ⟨ho, hv⟩ := hin (sound_fit hs hsc)
    exact State.sound_of_some hs hw hp' hc (Cartridge.sound_ramWrite (hcart c hsc) ho hv)
  | load c bytes check hl hc hw => exact State.sound_of_some hs hw hp' hc (loadImage_sound hl)

/-- Whatever an agent does keeps the invariant. -/
theorem AgentDoes.keeps_sound (h : AgentDoes s u) (hs : s.sound = true) : u.sound = true := by
  obtain ⟨hwf, hbelow, hcart⟩ := State.sound_iff.1 hs
  cases h.effect with
  | same hw hc hp => exact State.sound_of_cart hs hw hp fun c hu => hcart c (hc ▸ hu)
  | ram c o v hsc ho hc hw hp =>
    exact State.sound_of_some hs hw (congrArg _ hp) hc (Cartridge.sound_ramWrite (hcart c hsc) ho (initCell_le v))
  | clock c r k f hsc hr hk hc hw hp =>
    have hfit := sound_fit hs hsc
    rw [hr] at hfit
    exact State.sound_of_some hs hw (congrArg _ hp) hc
      (Cartridge.sound_setRegs (hcart c hsc) (Regs.fit_mbc3 hfit (by rw [hk]; rfl)))
  | powerOn hw hc =>
    rw [State.sound_iff, hw, hc]
    exact ⟨rfl, rfl, fun c h => by cases h⟩

theorem serve_keeps_sound {inp : Input} (hs : s.sound = true) (h : serve inp s = .next u) : u.sound = true := by
  obtain ⟨t, -, h⟩ | ⟨bytes, checkLogo, -, h⟩ | h := serve_next h
  · exact (serveBus_does h).keeps_sound hs
  · exact (does_execLoad h).keeps_sound hs
  · exact h.keeps_sound hs

/-- Settles O52: an idle step changes nothing, and serving an input keeps the invariant, which does not speak of the
pending inputs. -/
theorem stepKeepsTheStateSound : Obligations.StepKeepsTheStateSound := by
  unfold Obligations.StepKeepsTheStateSound
  intro s u hs h
  match hin : s.inputs with
  | [] =>
    rw [step, hin] at h
    cases h
    exact hs
  | inp :: rest =>
    rw [step_cons hin] at h
    exact serve_keeps_sound (s := { s with inputs := rest }) hs h

/-- Settles O54: at power-on both storages are empty, and there is no cartridge. -/
theorem resetStateIsSound : Obligations.ResetStateIsSound := by
  unfold Obligations.ResetStateIsSound
  exact State.sound_iff.2 ⟨rfl, rfl, fun c h => by cases h⟩

end Sys2Proof.Machine
end

section
/-! Where the block has no step: a transaction without a cartridge, an operation of another variant and a tick without a
timer (70_reset_and_hazards R162, 30_encoding R57, 45_mbc3 R132). -/

namespace Sys2Proof.Machine

variable {s : State} {c : Cartridge}

theorem serveBus_stuck {t : Transaction} (hc : s.cart = none) : serveBus t s = .fault .noCartridge := by
  simp only [serveBus, hc]

/-- Settles O6: every bus operation asks for the cartridge first. -/
theorem busIsStuckWithoutCartridge : Obligations.BusIsStuckWithoutCartridge := by
  unfold Obligations.BusIsStuckWithoutCartridge
  refine ⟨fun s t rest hc hin => ?_, fun s i hc hbus => ?_⟩
  · exact (step_cons hin).trans (serveBus_stuck hc)
  · cases i with
    | load | mbc3RtcTick => cases hbus
    | _ => exact withCart_stuck hc

/-! ### Operations of another variant -/

section refused
variable (hc : s.cart = some c)
include hc

theorem onRomOnly_refused {k : Cartridge → Result} (hv : c.regs.variant ≠ .romOnly) :
    onRomOnly s k = .refused .wrongVariant := by
  refine (withCart_eq hc).trans ?_
  split
  next hr => exact absurd (congrArg Regs.variant hr) hv
  all_goals rfl

theorem onMbc1_refused {k : Cartridge → Mbc1Regs → Result} (hv : c.regs.variant ≠ .mbc1) :
    onMbc1 s k = .refused .wrongVariant := by
  refine (withCart_eq hc).trans ?_
  split
  next hr => exact absurd (congrArg Regs.variant hr) hv
  all_goals rfl

theorem onMbc2_refused {k : Cartridge → Mbc2Regs → Result} (hv : c.regs.variant ≠ .mbc2) :
    onMbc2 s k = .refused .wrongVariant := by
  refine (withCart_eq hc).trans ?_
  split
  next hr => exact absurd (congrArg Regs.variant hr) hv
  all_goals rfl

theorem onMbc3_refused {k : Cartridge → Mbc3Regs → Result} (hv : c.regs.variant ≠ .mbc3) :
    onMbc3 s k = .refused .wrongVariant := by
  refine (withCart_eq hc).trans ?_
  split
  next hr => exact absurd (congrArg Regs.variant hr) hv
  all_goals rfl

theorem onMbc5_refused {k : Cartridge → Mbc5Regs → Result} (hv : c.regs.variant ≠ .mbc5) :
    onMbc5 s k = .refused .wrongVariant := by
  refine (withCart_eq hc).trans ?_
  split
  next hr => exact absurd (congrArg Regs.variant hr) hv
  all_goals rfl

theorem exec_refused {i : Instr} {vr : Variant} (hi : i.variant = some vr) (hbus : i.transaction.isSome = true)
    (hv : c.regs.variant ≠ vr) : exec i s = .refused .wrongVariant := by
  cases i with
  | asRdWram | asWrWram | asRdUnmapped8000 | asRdUnmappedE000 | asWrUnmapped8000 | asWrUnmappedE000 => cases hi
  | romRdRom0 | romRdRomx | romRdRam | romWrRam | romWrRom =>
    cases hi
    exact onRomOnly_refused hc hv
  | mbc1RdRom0 | mbc1RdRomx | mbc1RdRam | mbc1WrRam | mbc1WrRamen | mbc1WrBank1 | mbc1WrBank2 | mbc1WrMode =>
    cases hi
    exact onMbc1_refused hc hv
  | mbc2RdRom0 | mbc2RdRomx | mbc2RdRam | mbc2WrRam | mbc2WrRamen | mbc2WrRomb | mbc2WrIgnored =>
    cases hi
    exact onMbc2_refused hc hv
  | mbc3RdRom0 | mbc3RdRomx | mbc3RdRam | mbc3WrRam | mbc3WrRamen | mbc3WrRomb | mbc3WrSel | mbc3WrLatch =>
    cases hi
    exact onMbc3_refused hc hv
  | mbc5RdRom0 | mbc5RdRomx | mbc5RdRam | mbc5WrRam | mbc5WrRamen | mbc5WrRombLo | mbc5WrRombHi | mbc5WrRamb
  | mbc5WrIgnored =>
    cases hi
    exact onMbc5_refused hc hv
  | load | mbc3RtcTick => cases hbus

end refused

/-- Settles O7: each variant's operations look at the registers before anything else. -/
theorem otherVariantsOperationIsRefused : Obligations.OtherVariantsOperationIsRefused := by
  unfold Obligations.OtherVariantsOperationIsRefused
  exact fun s c i vr hc hi hbus hv => exec_refused hc hi hbus hv

/-! ### The oscillator -/

theorem execMbc3RtcTick_noOscillator (h : ∀ c, s.cart = some c → c.cfg.ctype.hasTimer = false) :
    execMbc3RtcTick s = .fault .noOscillator := by
  unfold execMbc3RtcTick
  split
  next => rfl
  next c hc =>
    split
    next r hr =>
      have hk : liveClock c r = none := if_neg (Bool.eq_false_iff.1 (h c hc))
      rw [hk]
    all_goals rfl

/-- One tick of a loaded MBC3 with a timer (45_mbc3 R133). -/
theorem execMbc3RtcTick_eq {r : Mbc3Regs} {k : Clock} (hc : s.cart = some c) (hr : c.regs = .mbc3 r)
    (hk : liveClock c r = some k) : execMbc3RtcTick s = .next { s with
      cart := some { c with regs := .mbc3 { r with clock := some { k with rtc := rtcTick k.rtc } } }
      response := none } := by
  simp only [execMbc3RtcTick, hc, hr, hk]
  rfl

/-- Only an MBC3 has a timer, and on a sound one the clock is there. -/
theorem exists_clock_of_timer (hfit : c.regs.fit c.cfg.ctype = true) (ht : c.cfg.ctype.hasTimer = true) :
    ∃ r k, c.regs = .mbc3 r ∧ liveClock c r = some k := by
  have hv : c.regs.variant = .mbc3 := by
    rw [fit_variant hfit]
    cases hct : c.cfg.ctype with
    | mbc3 => rfl
    | romOnly | mbc1 | mbc2 | mbc5 =>
      rw [hct] at ht
      cases ht
  cases hr : c.regs with
  | mbc3 r =>
    rw [hr] at hfit
    simp only [Regs.fit, ht, Bool.and_eq_true, beq_iff_eq] at hfit
    obtain ⟨k, hk⟩ := Option.isSome_iff_exists.1 hfit.2
    exact ⟨r, k, rfl, (liveClock_eq_of_timer ht).trans hk⟩
  | romOnly | mbc1 | mbc2 | mbc5 =>
    rw [hr] at hv
    cases hv

/-- Settles O46: without a timer there is no live clock. -/
theorem noTickWithoutTimer : Obligations.NoTickWithoutTimer := by
  unfold Obligations.NoTickWithoutTimer
  exact fun s h => execMbc3RtcTick_noOscillator h

/-! ### Every other step completes -/

theorem hostReadRam_completes (o : Nat) (s : State) : ∃ u, hostReadRam o s = .next u := by
  unfold hostReadRam
  split
  next => exact ⟨_, rfl⟩
  next => split <;> exact ⟨_, rfl⟩

theorem hostWriteRam_completes (o : Nat) (v : Byte) (s : State) : ∃ u, hostWriteRam o v s = .next u := by
  unfold hostWriteRam
  split
  next => exact ⟨_, rfl⟩
  next => split <;> exact ⟨_, rfl⟩

theorem hostReadRtc_completes (s : State) : ∃ u, hostReadRtc s = .next u := by
  unfold hostReadRtc
  split <;> exact ⟨_, rfl⟩

theorem hostWriteRtc_completes (f : Rtc) (s : State) : ∃ u, hostWriteRtc f s = .next u := by
  unfold hostWriteRtc
  split <;> exact ⟨_, rfl⟩

/-- On a sound state a tick completes where there is a timer. -/
theorem execMbc3RtcTick_cases (hs : s.sound = true) : (∃ u, execMbc3RtcTick s = .next u) ∨
    (execMbc3RtcTick s = .fault .noOscillator ∧ ∀ c, s.cart = some c → c.cfg.ctype.hasTimer = false) := by
  by_cases h : ∀ c, s.cart = some c → c.cfg.ctype.hasTimer = false
  · exact .inr ⟨execMbc3RtcTick_noOscillator h, h⟩
  · simp only [not_forall, Bool.not_eq_false] at h
    obtain ⟨c, hc, ht⟩ := h
    obtain ⟨r, k, hr, hk⟩ := exists_clock_of_timer (sound_fit hs hc) ht
    exact .inl ⟨_, execMbc3RtcTick_eq hc hr hk⟩

/-- Settles O53: a transaction completes on a loaded cartridge, a tick with a timer, and every other input always. -/
theorem stepStopsOnlyWhereThereIsNoStep : Obligations.StepStopsOnlyWhereThereIsNoStep := by
  unfold Obligations.StepStopsOnlyWhereThereIsNoStep
  intro s hs
  match hin : s.inputs with
  | [] => exact .inl ⟨s, by rw [step, hin]⟩
  | inp :: rest =>
    rw [step_cons hin]
    have hs' : ({ s with inputs := rest } : State).sound = true := hs
    cases inp with
    | bus t =>
      obtain hc | ⟨c, hc⟩ := Option.eq_none_or_eq_some s.cart
      · exact .inr (.inl ⟨serveBus_stuck hc, hc, t, rest, rfl⟩)
      · obtain ⟨u, r, hu, -⟩ := serveBus_completes hs' hc t
        exact .inl ⟨u, hu⟩
    | load bytes checkLogo =>
      obtain ⟨u, hu, -⟩ := execLoad_completes bytes checkLogo { s with inputs := rest }
      exact .inl ⟨u, hu⟩
    | tick =>
      obtain h | ⟨hfault, hno⟩ := execMbc3RtcTick_cases hs'
      · exact .inl h
      · exact .inr (.inr ⟨hfault, ⟨rest, rfl⟩, hno⟩)
    | supply | powerCycle => exact .inl ⟨_, rfl⟩
    | hostReadRam o => exact .inl (hostReadRam_completes o _)
    | hostWriteRam o v => exact .inl (hostWriteRam_completes o v _)
    | hostReadRtc => exact .inl (hostReadRtc_completes _)
    | hostWriteRtc f => exact .inl (hostWriteRtc_completes f _)

end Sys2Proof.Machine
end

section
/-! The host save agent's accesses (20_memory R52) and the power-on state (70_reset_and_hazards R160 to R162). -/

namespace Sys2Proof.Machine

theorem hostReadRam_eq {s : State} {c : Cartridge} {o : Nat} (hc : s.cart = some c) (ho : o < c.cfg.ramSize) :
    hostReadRam o s = answer s (.hostByte (cartRamRead c o)) := by
  simp only [hostReadRam, hc, ho, if_true]

theorem hostWriteRam_eq {s : State} {c : Cartridge} {o : Nat} (v : Byte) (hc : s.cart = some c)
    (ho : o < c.cfg.ramSize) : hostWriteRam o v s =
      answer (s.withCartridge (cartRamWrite c o (initCell c.cfg.ctype v))) .hostDone := by
  simp only [hostWriteRam, hc, ho, if_true]

/-- Settles O27: inside the buffer the host's read and overwrite are those of the storage, which is canonical on a sound
state. -/
theorem hostSaveAgentAccess : Obligations.HostSaveAgentAccess := by
  unfold Obligations.HostSaveAgentAccess
  intro s c o v hs hc ho
  rw [← initCell_eq]
  exact ⟨hostReadRam_eq hc ho, cartRamWrite c o (initCell c.cfg.ctype v), hostWriteRam_eq v hc ho, rfl, rfl,
    cartRamRead_write_same hs hc, fun p hp => cartRamRead_write_other hs hc hp⟩

/-- Settles O28: with a timer the live clock is the registers' own. -/
theorem hostClockAccess : Obligations.HostClockAccess := by
  unfold Obligations.HostClockAccess
  intro s c r k f hc hr ht hk
  have htimer : timerOf s = some (c, r, k) := by
    rw [timerOf_eq hc hr, liveClock_eq_of_timer ht, hk]
    rfl
  refine ⟨?_, ?_⟩
  · simp only [serve, hostReadRtc, htimer]
    rfl
  · simp only [serve, hostWriteRtc, htimer]
    rfl

/-- Internal RAM not written since power-on reads as INIT_WRAM (10_state R18). -/
theorem wramRead_powerOn {s : State} (hw : s.wram = []) (o : Nat) : wramRead s o = unlistedWram s.params o := by
  rw [wramRead, hw]
  rfl

/-- Settles O16: power-on leaves the empty storage over INIT_WRAM, and no cartridge to serve a transaction. -/
theorem powerOnState : Obligations.PowerOnState := by
  unfold Obligations.PowerOnState
  exact ⟨rfl, wramRead_powerOn rfl, fun t => serveBus_stuck rfl,
    fun s initWram => ⟨_, rfl, rfl, fun o _ => wramRead_powerOn rfl o, rfl⟩⟩

end Sys2Proof.Machine
end

section
/-! The windows of a cartridge, in every variant (20_memory R39, R49): what a read of each of them returns, with the
RAM-enable latch clear, and that no bank reaches past the cartridge. -/

namespace Sys2Proof.Machine

variable {s : State} {c : Cartridge} {a : Addr}

theorem busRead_eq {r : Response} {u : State} (h : serveBus (.rd a) s = .next u) (hr : u.response = some r) :
    busRead s a = some r := by
  simp only [busRead, h, hr]

/-- A read that runs an operation which answers a data byte. -/
theorem busRead_of_exec {i : Instr} {v : Byte} (hc : s.cart = some c) (hi : i.Serves c.cfg.ctype.variant (.rd a))
    (h : exec i s = .next { s with response := some (.data v) }) : busRead s a = some (.data v) :=
  busRead_eq ((serveBus_eq hc hi.wellFormed hi.belongs hi.transaction).trans h) rfl

section windows
variable (hc : s.cart = some c) (hfit : c.regs.fit c.cfg.ctype = true)
include hc hfit

/-- The lower ROM window shows bank 0 in every variant. -/
theorem busRead_lowerRom (ha : Addr.within a 0x0000 0x3FFF = true) :
    busRead s a = some (.data (romByte c.cfg.image a.toNat)) := by
  have hv := fit_variant hfit
  rw [← romWindowOffset_eq_of_lower ha]
  cases hr : c.regs with
  | romOnly =>
    rw [hr] at hv
    exact busRead_of_exec (i := .romRdRom0 a) hc ⟨ha, hv ▸ rfl, rfl⟩ (onRomOnly_eq hc hr)
  | mbc1 r =>
    rw [hr] at hv
    exact busRead_of_exec (i := .mbc1RdRom0 a) hc ⟨ha, hv ▸ rfl, rfl⟩ (onMbc1_eq hc hr)
  | mbc2 r =>
    rw [hr] at hv
    exact busRead_of_exec (i := .mbc2RdRom0 a) hc ⟨ha, hv ▸ rfl, rfl⟩ (onMbc2_eq hc hr)
  | mbc3 r =>
    rw [hr] at hv
    exact busRead_of_exec (i := .mbc3RdRom0 a) hc ⟨ha, hv ▸ rfl, rfl⟩ (onMbc3_eq hc hr)
  | mbc5 r =>
    rw [hr] at hv
    exact busRead_of_exec (i := .mbc5RdRom0 a) hc ⟨ha, hv ▸ rfl, rfl⟩ (onMbc5_eq hc hr)

/-- The upper ROM window shows the current bank in every variant (10_state R28). -/
theorem busRead_upperRom (ha : Addr.within a 0x4000 0x7FFF = true) :
    busRead s a = some (.data (romByte c.cfg.image ((a.toNat - 0x4000) + curRomBank c * 0x4000))) := by
  have hv := fit_variant hfit
  rw [← romxOffset_eq ha]
  unfold curRomBank
  cases hr : c.regs with
  | romOnly =>
    rw [hr] at hv
    exact busRead_of_exec (i := .romRdRomx a) hc ⟨ha, hv ▸ rfl, rfl⟩ (onRomOnly_eq hc hr)
  | mbc1 r =>
    rw [hr] at hv
    exact busRead_of_exec (i := .mbc1RdRomx a) hc ⟨ha, hv ▸ rfl, rfl⟩ (onMbc1_eq hc hr)
  | mbc2 r =>
    rw [hr] at hv
    exact busRead_of_exec (i := .mbc2RdRomx a) hc ⟨ha, hv ▸ rfl, rfl⟩ (onMbc2_eq hc hr)
  | mbc3 r =>
    rw [hr] at hv
    exact busRead_of_exec (i := .mbc3RdRomx a) hc ⟨ha, hv ▸ rfl, rfl⟩ (onMbc3_eq hc hr)
  | mbc5 r =>
    rw [hr] at hv
    exact busRead_of_exec (i := .mbc5RdRomx a) hc ⟨ha, hv ▸ rfl, rfl⟩ (onMbc5_eq hc hr)

omit hc hfit in
theorem ramAccessible_disabled {cfg : CartConfig} {ramEn : Bool} (h : ramEn = false) :
    ramAccessible cfg ramEn = false := by
  rw [ramAccessible, h, Bool.and_false]

omit hc hfit in
theorem mbc3Target_disabled {r : Mbc3Regs} (h : r.ramEn = false) : mbc3Target c r = .open := by
  rw [mbc3Target, h]
  rfl

/-- With the latch clear a read of the RAM window is open bus (20_memory R49 (b)). -/
theorem busRead_ram_disabled (hen : c.regs.ramEnabled = false) (ha : Addr.within a 0xA000 0xBFFF = true) :
    busRead s a = some (.data Config.openBus) := by
  have hv := fit_variant hfit
  cases hr : c.regs with
  | romOnly =>
    rw [hr] at hv
    exact busRead_of_exec (i := .romRdRam a) hc ⟨ha, hv ▸ rfl, rfl⟩ (onRomOnly_eq hc hr)
  | mbc1 r =>
    rw [hr] at hv hen
    exact busRead_of_exec (i := .mbc1RdRam a) hc ⟨ha, hv ▸ rfl, rfl⟩
      (execMbc1RdRam_inaccessible hc hr (ramAccessible_disabled hen))
  | mbc2 r =>
    rw [hr] at hv hen
    exact busRead_of_exec (i := .mbc2RdRam a) hc ⟨ha, hv ▸ rfl, rfl⟩ (execMbc2RdRam_disabled hc hr hen)
  | mbc3 r =>
    rw [hr] at hv hen
    exact busRead_of_exec (i := .mbc3RdRam a) hc ⟨ha, hv ▸ rfl, rfl⟩
      (execMbc3RdRam_open hc hr (mbc3Target_disabled hen))
  | mbc5 r =>
    rw [hr] at hv hen
    exact busRead_of_exec (i := .mbc5RdRam a) hc ⟨ha, hv ▸ rfl, rfl⟩
      (execMbc5RdRam_inaccessible hc hr (ramAccessible_disabled hen))

/-- With the latch clear a write of the RAM window only completes (20_memory R49 (b)). -/
theorem serveBus_wr_ram_disabled (v : Byte) (hen : c.regs.ramEnabled = false)
    (ha : Addr.within a 0xA000 0xBFFF = true) : serveBus (.wr a v) s = done s := by
  have hv := fit_variant hfit
  cases hr : c.regs with
  | romOnly =>
    rw [hr] at hv
    exact (serveBus_eq (i := .romWrRam a v) hc ha (hv ▸ rfl) rfl).trans (onRomOnly_eq hc hr)
  | mbc1 r =>
    rw [hr] at hv hen
    exact (serveBus_eq (i := .mbc1WrRam a v) hc ha (hv ▸ rfl) rfl).trans
      (execMbc1WrRam_inaccessible hc hr (ramAccessible_disabled hen))
  | mbc2 r =>
    rw [hr] at hv hen
    exact (serveBus_eq (i := .mbc2WrRam a v) hc ha (hv ▸ rfl) rfl).trans (execMbc2WrRam_disabled hc hr hen)
  | mbc3 r =>
    rw [hr] at hv hen
    exact (serveBus_eq (i := .mbc3WrRam a v) hc ha (hv ▸ rfl) rfl).trans
      (execMbc3WrRam_open hc hr (mbc3Target_disabled hen))
  | mbc5 r =>
    rw [hr] at hv hen
    exact (serveBus_eq (i := .mbc5WrRam a v) hc ha (hv ▸ rfl) rfl).trans
      (execMbc5WrRam_inaccessible hc hr (ramAccessible_disabled hen))

end windows

/-- Settles O56: in every variant the latch is among the conditions of the RAM window's gate. -/
theorem disabledRamIsOpenBus : Obligations.DisabledRamIsOpenBus := by
  unfold Obligations.DisabledRamIsOpenBus
  intro s c a v hs hc hen hlo hhi
  have ha : Addr.within a 0xA000 0xBFFF = true := Addr.within_iff.2 ⟨hlo, hhi⟩
  have hfit := sound_fit hs hc
  exact ⟨busRead_ram_disabled hc hfit hen ha, serveBus_wr_ram_disabled hc hfit v hen ha⟩

/-! ### Bounds -/

theorem Cartridge.sound_two_le_romBanks (h : c.sound = true) : 2 ≤ c.cfg.romBanks := by
  obtain ⟨hcfg, -, -⟩ := Cartridge.sound_iff.1 h
  simp only [CartConfig.sound, Bool.and_eq_true, Nat.ble_eq] at hcfg
  obtain ⟨⟨⟨⟨⟨⟨hlo, -⟩, -⟩, -⟩, -⟩, -⟩, -⟩ := hcfg
  exact hlo

theorem curRomBank_lt (h : 2 ≤ c.cfg.romBanks) : curRomBank c < c.cfg.romBanks := by
  have hpos : 0 < c.cfg.romBanks := by omega
  unfold curRomBank
  split
  next => omega
  all_goals exact Nat.mod_lt _ hpos

/-- Off MBC2, whatever the select value, its bank is below the count and an access in it is inside the buffer. -/
theorem ramBank_in_range {cfg : CartConfig} (sel : Nat) (a : Addr) (hv : cfg.ctype.variant ≠ .mbc2)
    (hu : cfg.ramUsable = true) :
    sel % cfg.ramBanks < cfg.ramBanks ∧ ramOffset (sel % cfg.ramBanks) a < cfg.ramSize :=
  ⟨Nat.mod_lt _ (usable_size hv hu).1, window_in_ram sel a hv hu⟩

/-- Settles O55: every bank is a remainder by its count, which is positive on a sound state. -/
theorem banksStayBelowTheirCounts : Obligations.BanksStayBelowTheirCounts := by
  unfold Obligations.BanksStayBelowTheirCounts
  intro s c a hs hc
  have hv : c.regs.variant = c.cfg.ctype.variant := fit_variant (sound_fit hs hc)
  have hbanks := Cartridge.sound_two_le_romBanks (sound_cart hs hc)
  refine ⟨curRomBank_lt hbanks, fun r hr hu => ramBank_in_range _ a ?_ hu, fun r hr => ?_,
    fun r hr hu => ramBank_in_range _ a ?_ hu, fun r hr hu => ramBank_in_range _ a ?_ hu⟩
  · rw [← hv, hr]
    nofun
  · rw [hr] at hv
    rw [CartConfig.ramSize, ramSize, ← hv]
    exact mbc2Cell_lt a
  · rw [← hv, hr]
    nofun
  · rw [← hv, hr]
    nofun

end Sys2Proof.Machine
end

section
/-! A freshly loaded cartridge: its header record (40_load R73 to R77) and its windows (70_reset_and_hazards R163). -/

namespace Sys2Proof.Machine

/-! ### The header record -/

theorem imageSlice_getElem? (bytes : List Byte) (o : Nat) {n j : Nat} (h : j < n) :
    (imageSlice bytes o n)[j]? = bytes[o + j]? := by
  rw [imageSlice, List.getElem?_take_of_lt h, List.getElem?_drop]

/-- The longest start of a list on which `p` holds ends before an element on which it does not. -/
theorem false_of_getElem?_length_takeWhile {α : Type} {p : α → Bool} {l : List α} {b : α}
    (h : l[(l.takeWhile p).length]? = some b) : p b = false := by
  induction l with
  | nil => cases h
  | cons x xs ih =>
    by_cases hx : p x = true
    · rw [List.takeWhile_cons_of_pos hx, List.length_cons, List.getElem?_cons_succ] at h
      exact ih h
    · rw [List.takeWhile_cons_of_neg hx] at h
      cases h
      exact Bool.not_eq_true _ ▸ hx

theorem titleOf_length_le (bytes : List Byte) : (titleOf bytes).length ≤ 16 :=
  (List.takeWhile_prefix printable).length_le.trans (List.length_take_le _ _)

theorem titleOf_getElem? {bytes : List Byte} {j : Nat} (h : j < (titleOf bytes).length) :
    (titleOf bytes)[j]? = bytes[0x134 + j]? := by
  have hprefix := List.prefix_iff_getElem?.1 (List.takeWhile_prefix printable (l := imageSlice bytes 0x134 16)) j h
  rw [imageSlice_getElem? bytes 0x134 (h.trans_le (titleOf_length_le bytes))] at hprefix
  exact (List.getElem?_eq_getElem h).trans hprefix.symm

theorem printable_iff {b : Byte} : printable b = true ↔ 0x20 ≤ b.toNat ∧ b.toNat ≤ 0x7E := by
  simp only [printable, Bool.and_eq_true, Nat.ble_eq]

/-- Where the title is shorter than its field, the byte after it is not printable (40_load R75). -/
theorem titleOf_stops {bytes : List Byte} {b : Byte} (hlen : (titleOf bytes).length < 16)
    (h : bytes[0x134 + (titleOf bytes).length]? = some b) : b.toNat < 0x20 ∨ 0x7E < b.toNat := by
  rw [← imageSlice_getElem? bytes 0x134 hlen] at h
  have hnot := mt printable_iff.2 (Bool.eq_false_iff.1 (false_of_getElem?_length_takeWhile h))
  omega

theorem logoOf_length {bytes : List Byte} (h : Config.headerSize ≤ bytes.length) : (logoOf bytes).length = 48 := by
  rw [Config.headerSize] at h
  rw [logoOf, imageSlice, List.length_take, List.length_drop]
  omega

theorem colorModeOf_eq_colorCapable_iff (bytes : List Byte) :
    colorModeOf bytes = .colorCapable ↔ (imageByte bytes 0x143).getLsbD 7 = true := by
  unfold colorModeOf
  split <;> simp_all

theorem sgbSupportOf_eq_supported_iff (bytes : List Byte) :
    sgbSupportOf bytes = .supported ↔ imageByte bytes 0x146 = 0x03#8 := by
  unfold sgbSupportOf
  split <;> simp_all

/-- Settles O11: the record is `headerOf` of the image, whose fields are slices and bytes of an image that passed the
length check. -/
theorem loadedHeaderFields : Obligations.LoadedHeaderFields := by
  unfold Obligations.LoadedHeaderFields
  intro s u bytes checkLogo h hr
  obtain ⟨c, hl, rfl⟩ := execLoad_loaded h hr
  obtain ⟨ct, rb, qb, hlen, -, -, -, -, rfl⟩ := loadImage_loaded hl
  have h143 : imageByte bytes 0x143 = bytes.getD 0x143 0#8 := imageByte_eq_getD (Nat.lt_of_lt_of_le (by decide) hlen)
  have h146 : imageByte bytes 0x146 = bytes.getD 0x146 0#8 := imageByte_eq_getD (Nat.lt_of_lt_of_le (by decide) hlen)
  rw [← h143, ← h146]
  exact ⟨_, rfl, logoOf_length hlen, fun j hj => imageSlice_getElem? bytes 0x104 hj, titleOf_length_le bytes,
    fun j hj => titleOf_getElem? hj, fun b hb => printable_iff.1 (List.mem_takeWhile_imp hb),
    fun hshort b hb => titleOf_stops hshort hb, colorModeOf_eq_colorCapable_iff bytes,
    sgbSupportOf_eq_supported_iff bytes⟩

/-! ### The windows -/

section resetRegs
variable (f : Rtc) (ct : ControllerType)

theorem resetRegs_ramEnabled : (resetRegs f ct).ramEnabled = false := by
  cases ct <;> rfl

variable {f ct}

theorem resetRegs_mode {r : Mbc1Regs} (h : resetRegs f ct = .mbc1 r) : r.mode = 0#1 := by
  cases ct <;> cases h
  rfl

theorem resetRegs_sel {r : Mbc3Regs} (h : resetRegs f ct = .mbc3 r) : r.sel = 0x00#8 := by
  cases ct <;> cases h
  rfl

theorem resetRegs_ramb {r : Mbc5Regs} (h : resetRegs f ct = .mbc5 r) : r.ramb = 0x0#4 := by
  cases ct <;> cases h
  rfl

/-- The load values select bank 1 in every variant, which is below the count. -/
theorem curRomBank_of_resetRegs {c : Cartridge} (hr : c.regs = resetRegs f ct) (hb : 2 ≤ c.cfg.romBanks) :
    curRomBank c = 1 := by
  have hone : 1 % c.cfg.romBanks = 1 := Nat.mod_eq_of_lt hb
  rw [curRomBank, hr]
  cases ct with
  | romOnly => rfl
  | mbc1 | mbc2 | mbc3 | mbc5 => exact hone

end resetRegs

/-- With `ramb` at its load value no motor runs (46_mbc5 R136). -/
theorem rumbleMotor_ne_true {u : State} {c : Cartridge} (hc : u.cart = some c)
    (hr : ∀ r, c.regs = .mbc5 r → r.ramb = 0x0#4) : rumbleMotor u ≠ some true := by
  cases h : c.regs with
  | mbc5 r =>
    rw [rumbleMotor_eq hc h, hr r h]
    split <;> simp
  | romOnly | mbc1 | mbc2 | mbc3 =>
    simp only [rumbleMotor, hc, h]
    nofun

/-- Settles O15: a fresh cartridge is sound, its registers are the load values, and the windows of a cartridge are known
from its registers. -/
theorem windowsAfterLoad : Obligations.WindowsAfterLoad := by
  unfold Obligations.WindowsAfterLoad
  intro s u bytes checkLogo h hr
  obtain ⟨c, hl, rfl⟩ := execLoad_loaded h hr
  have hbanks := Cartridge.sound_two_le_romBanks (loadImage_sound hl)
  have hfit := (Cartridge.sound_iff.1 (loadImage_sound hl)).2.1
  obtain ⟨ct, rb, qb, -, -, -, -, -, rfl⟩ := loadImage_loaded hl
  have hbank : curRomBank (freshCartridge s.params bytes ct rb qb) = 1 := curRomBank_of_resetRegs rfl hbanks
  refine ⟨fun a hhi => ?_, fun a hlo hhi => ?_, fun a hlo hhi => ?_, ?_, ?_⟩
  · exact busRead_lowerRom rfl hfit (Addr.within_iff.2 ⟨Nat.zero_le _, hhi⟩)
  · rw [← hbank]
    exact busRead_upperRom rfl hfit (Addr.within_iff.2 ⟨hlo, hhi⟩)
  · exact busRead_ram_disabled rfl hfit (resetRegs_ramEnabled _ ct) (Addr.within_iff.2 ⟨hlo, hhi⟩)
  · exact ⟨_, rfl, hbank, fun r => resetRegs_mode, fun r => resetRegs_sel, fun r => resetRegs_ramb⟩
  · exact rumbleMotor_ne_true rfl fun r => resetRegs_ramb

end Sys2Proof.Machine
end

section
/-! Sequences of transactions, and the RomOnly cartridge, which none of them changes (42_romonly R102). -/

namespace Sys2Proof.Machine

variable {s u : State} {c : Cartridge}

theorem serveBusAll_cons {t : Transaction} {ts : List Transaction} (h : serveBus t s = .next u) :
    serveBusAll (t :: ts) s = serveBusAll ts u := by
  simp only [serveBusAll, h]

/-- No operation of a RomOnly cartridge changes it. -/
theorem exec_romOnly_keeps_cart {i : Instr} (hb : i.belongs .romOnly = true) (hbus : i.transaction.isSome = true)
    (h : exec i s = .next u) : u.cart = s.cart := by
  cases i with
  | asRdWram | asWrWram | asRdUnmapped8000 | asRdUnmappedE000 | asWrUnmapped8000 | asWrUnmappedE000 =>
    obtain ⟨c, -, h⟩ := withCart_next h
    cases h
    rfl
  | romRdRom0 | romRdRomx | romRdRam | romWrRam | romWrRom =>
    obtain ⟨c, -, -, h⟩ := onRomOnly_next h
    cases h
    rfl
  | load | mbc3RtcTick => cases hbus
  | _ => cases hb

theorem serveBus_romOnly (hs : s.sound = true) (hc : s.cart = some c) (hct : c.cfg.ctype = .romOnly)
    (t : Transaction) : ∃ u, serveBus t s = .next u ∧ u.sound = true ∧ u.cart = some c := by
  obtain ⟨u, r, hu, -⟩ := serveBus_completes hs hc t
  obtain ⟨i, hi⟩ := exists_serves c.cfg.ctype.variant t
  have hexec := (serveBus_eq hc hi.wellFormed hi.belongs hi.transaction).symm.trans hu
  have hb : i.belongs .romOnly = true := by
    have := hi.belongs
    rwa [hct] at this
  have hcart := exec_romOnly_keeps_cart hb (Option.isSome_iff_exists.2 ⟨t, hi.transaction⟩) hexec
  exact ⟨u, hu, (serveBus_does hu).keeps_sound hs, hcart.trans hc⟩

theorem serveBusAll_romOnly (ts : List Transaction) (hs : s.sound = true) (hc : s.cart = some c)
    (hct : c.cfg.ctype = .romOnly) : ∃ u, serveBusAll ts s = .next u ∧ u.cart = some c := by
  induction ts generalizing s with
  | nil => exact ⟨s, rfl, hc⟩
  | cons t ts ih =>
    obtain ⟨v, hv, hsv, hcv⟩ := serveBus_romOnly hs hc hct t
    rw [serveBusAll_cons hv]
    exact ih hsv hcv

/-- The cartridge's addresses are its three windows (20_memory R38). -/
theorem window_of_cartAddress {a : Addr} (h : cartAddress a = true) :
    Addr.within a 0x0000 0x3FFF = true ∨ Addr.within a 0x4000 0x7FFF = true ∨ Addr.within a 0xA000 0xBFFF = true := by
  simp only [Addr.within_iff]
  have hregion : regionOf a = .cart := eq_of_beq h
  unfold regionOf at hregion
  split at hregion
  next => omega
  next =>
    split at hregion
    next => omega
    next => split at hregion <;> cases hregion

/-- With the latch clear, what a cartridge reads as at its addresses depends on nothing but the cartridge. -/
theorem busRead_congr (hs : s.cart = some c) (hu : u.cart = some c) (hfit : c.regs.fit c.cfg.ctype = true)
    (hen : c.regs.ramEnabled = false) {a : Addr} (ha : cartAddress a = true) : busRead u a = busRead s a := by
  obtain ha | ha | ha := window_of_cartAddress ha
  · rw [busRead_lowerRom hu hfit ha, busRead_lowerRom hs hfit ha]
  · rw [busRead_upperRom hu hfit ha, busRead_upperRom hs hfit ha]
  · rw [busRead_ram_disabled hu hfit hen ha, busRead_ram_disabled hs hfit hen ha]

/-- Settles O31, by induction on the sequence: each transaction completes and keeps the cartridge. -/
theorem romOnlyInvariance : Obligations.RomOnlyInvariance := by
  unfold Obligations.RomOnlyInvariance
  intro s c ts hs hc hct
  obtain ⟨u, hu, hcu⟩ := serveBusAll_romOnly ts hs hc hct
  have hfit := sound_fit hs hc
  have hen : c.regs.ramEnabled = false := by
    have hv := fit_variant hfit
    rw [hct] at hv
    cases hr : c.regs with
    | romOnly => rfl
    | mbc1 | mbc2 | mbc3 | mbc5 =>
      rw [hr] at hv
      cases hv
  exact ⟨u, hu, fun a ha => busRead_congr hc hcu hfit hen ha⟩

end Sys2Proof.Machine
end

section
/-! Which transaction or event changes which storage (20_memory R36, 10_state R30), and where an addressing error comes
from (60_exceptions R148). -/

namespace Sys2Proof.Machine

variable {s u : State} {c c' : Cartridge} {t : Transaction}

/-! ### The addressing error -/

theorem regionOf_eq_unmapped {a : Addr} (h : Addr.within a 0x8000 0x9FFF = true ∨ Addr.within a 0xE000 0xFFFF = true) :
    regionOf a = .unmapped := by
  simp only [Addr.within_iff] at h
  unfold regionOf
  rw [if_neg (by omega), if_neg (by omega), if_neg (by omega)]

/-- The address of an unmapped access is one of the unmapped ranges, and its transaction is of its kind. -/
theorem UnmappedAccess.of_serves {i : Instr} {vr : Variant} {a : Addr} {k : AccessKind} (h : UnmappedAccess i a k)
    (hi : i.Serves vr t) : regionOf t.addr = .unmapped ∧ a = t.addr ∧ (k = .write ↔ ∃ v, t = .wr a v) := by
  obtain ⟨hw, -, ht⟩ := hi
  cases h with
  | rd8000 =>
    cases ht
    exact ⟨regionOf_eq_unmapped (.inl hw), rfl, iff_of_false nofun nofun⟩
  | rdE000 =>
    cases ht
    exact ⟨regionOf_eq_unmapped (.inr hw), rfl, iff_of_false nofun nofun⟩
  | wr8000 _ v =>
    cases ht
    exact ⟨regionOf_eq_unmapped (.inl hw), rfl, iff_of_true rfl ⟨v, rfl⟩⟩
  | wrE000 _ v =>
    cases ht
    exact ⟨regionOf_eq_unmapped (.inr hw), rfl, iff_of_true rfl ⟨v, rfl⟩⟩

/-- An unmapped access of a lenient cartridge does not end in an addressing error. -/
theorem UnmappedAccess.strict {i : Instr} {a : Addr} {k : AccessKind} (h : UnmappedAccess i a k)
    (hc : s.cart = some c) (hexec : exec i s = .next u) (hr : u.response = some (.addrErr a k)) :
    c.cfg.lenient = false := by
  rw [Bool.eq_false_iff]
  intro hl
  cases h with
  | rd8000 | rdE000 =>
    cases hexec.symm.trans (readUnmapped_eq hc)
    rw [hl] at hr
    cases hr
  | wr8000 | wrE000 =>
    cases hexec.symm.trans (writeUnmapped_eq hc)
    rw [hl] at hr
    cases hr

/-- Settles O19: only an unmapped access ends in an addressing error, and only on a strict cartridge. -/
theorem addressingErrorOnlyWhenUnmapped : Obligations.AddressingErrorOnlyWhenUnmapped := by
  unfold Obligations.AddressingErrorOnlyWhenUnmapped
  intro s u t a k h hr
  obtain ⟨c, i, hc, hdecode, hexec⟩ := serveBus_next h
  have haccess := exec_addrErr hexec hr
  obtain ⟨hregion, ha, hk⟩ := haccess.of_serves (serves_of_decodeTransaction hdecode)
  exact ⟨hregion, ha, hk, c, hc, haccess.strict hc hexec hr⟩

/-! ### The storage spaces -/

/-- A change of the live clock alone is set aside. -/
theorem Regs.setLive_clock {r : Mbc3Regs} {k : Clock} (hk : r.clock = some k) (f g : Rtc) :
    (Regs.mbc3 { r with clock := some { k with rtc := g } }).setLive f = (Regs.mbc3 r).setLive f := by
  simp only [Regs.setLive, hk, Option.map_some]

section storage
variable (h : BusEffect t s u) (hc : s.cart = some c) (hu : u.cart = some c')
include h hc hu

theorem BusEffect.wram_ne (hne : u.wram ≠ s.wram) :
    ∃ a v, t = .wr a v ∧ 0xC000 ≤ a.toNat ∧ a.toNat ≤ 0xDFFF ∧ c' = c := by
  cases h with
  | wram a v ht ha hw hcart =>
    obtain ⟨hlo, hhi⟩ := Addr.within_iff.1 ha
    exact ⟨a, v, ht, hlo, hhi, Option.some.inj (hu.symm.trans (hcart.trans hc))⟩
  | same hw | regs _ _ _ _ _ _ _ _ hw | ram _ _ _ _ _ _ _ _ _ hw | clock _ _ _ _ _ _ _ _ _ _ _ _ hw =>
    exact absurd hw hne

theorem BusEffect.ram_ne (hne : c'.ram ≠ c.ram) :
    ∃ a v, t = .wr a v ∧ 0xA000 ≤ a.toNat ∧ a.toNat ≤ 0xBFFF ∧ c'.regs = c.regs ∧ u.wram = s.wram := by
  cases h with
  | same hw hcart | wram _ _ _ _ hw hcart =>
    cases hu.symm.trans (hcart.trans hc)
    exact absurd rfl hne
  | ram a v c₀ o x ht ha hs hcart hw =>
    cases hs.symm.trans hc
    cases hcart.symm.trans hu
    obtain ⟨hlo, hhi⟩ := Addr.within_iff.1 ha
    exact ⟨a, v, ht, hlo, hhi, rfl, hw⟩
  | regs _ _ c₀ _ _ _ hs hcart | clock _ _ c₀ _ _ _ _ _ hs _ _ hcart =>
    cases hs.symm.trans hc
    cases hcart.symm.trans hu
    exact absurd rfl hne

theorem BusEffect.setLive_ne {f : Rtc} (hne : c'.regs.setLive f ≠ c.regs.setLive f) :
    ∃ a v, t = .wr a v ∧ a.toNat ≤ 0x7FFF ∧ c'.ram = c.ram ∧ u.wram = s.wram := by
  cases h with
  | same hw hcart | wram _ _ _ _ hw hcart =>
    cases hu.symm.trans (hcart.trans hc)
    exact absurd rfl hne
  | regs a v c₀ rs ht ha hs hcart hw =>
    cases hs.symm.trans hc
    cases hcart.symm.trans hu
    exact ⟨a, v, ht, ha, rfl, hw⟩
  | ram _ _ c₀ _ _ _ _ hs hcart =>
    cases hs.symm.trans hc
    cases hcart.symm.trans hu
    exact absurd rfl hne
  | clock _ _ c₀ r k g _ _ hs hr hk hcart =>
    cases hs.symm.trans hc
    cases hcart.symm.trans hu
    rw [hr] at hne
    exact absurd (Regs.setLive_clock hk f g) hne

end storage

/-- No agent changes the registers beside the live clock of a cartridge that stays. -/
theorem AgentEffect.setLive_eq (h : AgentEffect s u) (hc : s.cart = some c) (hu : u.cart = some c') (f : Rtc) :
    c'.regs.setLive f = c.regs.setLive f := by
  cases h with
  | same hw hcart =>
    cases hu.symm.trans (hcart.trans hc)
    rfl
  | ram c₀ _ _ hs _ hcart =>
    cases hs.symm.trans hc
    cases hcart.symm.trans hu
    rfl
  | clock c₀ r k g hs hr hk hcart =>
    cases hs.symm.trans hc
    cases hcart.symm.trans hu
    rw [hr]
    exact Regs.setLive_clock hk f g
  | powerOn _ hcart => cases hu.symm.trans hcart

/-- Settles O25: each effect of a transaction is on one storage, from that storage's region. -/
theorem storageSpacesDoNotAlias : Obligations.StorageSpacesDoNotAlias := by
  unfold Obligations.StorageSpacesDoNotAlias
  intro s u c c' t hc h hu
  have heffect := serveBus_busEffect h
  exact ⟨heffect.wram_ne hc hu, heffect.ram_ne hc hu, fun f => heffect.setLive_ne hc hu⟩

/-- Settles O26: of the inputs only a transaction and a load reach the registers beside the live clock. -/
theorem bankRegistersChangeOnlyByWriteOrLoad : Obligations.BankRegistersChangeOnlyByWriteOrLoad := by
  unfold Obligations.BankRegistersChangeOnlyByWriteOrLoad
  intro s u c c' inp f hc h hu hne
  obtain ⟨t, rfl, h⟩ | ⟨bytes, checkLogo, rfl, -⟩ | h := serve_next h
  · obtain ⟨a, v, rfl, ha, -⟩ := (serveBus_busEffect h).setLive_ne hc hu hne
    exact .inl ⟨a, v, rfl, ha⟩
  · exact .inr ⟨bytes, checkLogo, rfl⟩
  · exact absurd (h.effect.setLive_eq hc hu f) hne

end Sys2Proof.Machine
end

section
/-! Serving a transaction twice is serving it once (20_memory R46): a write repeated finds what it writes already
there. -/

namespace Sys2Proof.Machine

variable {s u : State} {c : Cartridge} {t : Transaction} {a : Addr} {v : Byte}

/-! ### Storage and registers -/

/-- Storing a byte again changes nothing: both results are canonical and read alike. -/
theorem Memory.write_write_same {base : Nat → Byte} {m : Memory} {o : Nat} {v : Byte} (h : m.wf base = true) :
    (m.write base o v).write base o v = m.write base o v := by
  have h₁ := wf_write (o := o) (v := v) h
  refine ext_of_read (wf_write (o := o) (v := v) h₁) h₁ fun p => ?_
  by_cases hp : p = o
  · subst hp
    rw [read_write_same h₁, read_write_same h]
  · exact read_write_other h₁ hp

theorem wramWrite_again (hs : s.sound = true) (o : Nat) (v : Byte) :
    wramWrite (wramWrite s o v) o v = wramWrite s o v := by
  have hwrite := Memory.write_write_same (o := o) (v := v) (sound_wram hs).1
  exact congrArg (fun m => { s with wram := m }) hwrite

theorem cartRamWrite_again (hs : s.sound = true) (hc : s.cart = some c) (o : Nat) (v : Byte) :
    cartRamWrite (cartRamWrite c o v) o v = cartRamWrite c o v := by
  have hwrite := Memory.write_write_same (o := o) (v := v) (sound_ram_wf hs hc)
  exact congrArg (fun m => { c with ram := m }) hwrite

/-- A repeated RAM write ends in the state of the first. -/
theorem writeRam_again {o : Nat} (hs : s.sound = true) (hc : s.cart = some c) (h : writeRam s c o v = .next u) :
    writeRam u (cartRamWrite c o v) o v = .next u := by
  cases h
  rw [writeRam, cartRamWrite_again hs hc]
  rfl

theorem writeRegs_cart {rs : Regs} (h : writeRegs s c rs = .next u) : u.cart = some { c with regs := rs } := by
  cases h
  rfl

/-- A repeated register write ends in the state of the first. -/
theorem writeRegs_again {rs : Regs} (h : writeRegs s c rs = .next u) :
    writeRegs u { c with regs := rs } rs = .next u := by
  cases h
  rfl

/-- The sequence is not completed by repeating its last write (45_mbc3 R131). -/
theorem map_latchedClock_again (v : Byte) (clock : Option Clock) : clock.map (latchedClock v v) = clock := by
  rw [map_latchedClock]
  refine if_neg fun h => ?_
  obtain ⟨h0, h1⟩ := h
  cases h0.symm.trans h1

theorem rtcWrite_again (f : Rtc) (v : Byte) (reg : RtcReg) : rtcWrite (rtcWrite f v reg) v reg = rtcWrite f v reg := by
  cases reg <;> rfl

/-! ### Operations -/

/-- An operation that only answers is repeated from the same state, but for the outcome. -/
theorem exec_again_of_answer {i : Instr} {r : Response} (h : exec i s = .next u) (hu : answer s r = .next u) :
    exec i u = .next u := by
  cases hu
  exact (exec_setResponse i s (some r)).trans h

theorem execMbc1WrRam_again (hs : s.sound = true) (h : execMbc1WrRam a v s = .next u) :
    execMbc1WrRam a v u = .next u := by
  obtain ⟨c, r, hc, hr, hk⟩ := onMbc1_next h
  split at hk
  next hacc =>
    have hagain := writeRam_again hs hc hk
    cases hk
    exact (execMbc1WrRam_accessible (c := cartRamWrite c _ v) rfl hr hacc).trans hagain
  next => exact exec_again_of_answer (i := .mbc1WrRam a v) h hk

theorem execMbc2WrRam_again (hs : s.sound = true) (h : execMbc2WrRam a v s = .next u) :
    execMbc2WrRam a v u = .next u := by
  obtain ⟨c, r, hc, hr, hk⟩ := onMbc2_next h
  split at hk
  next hen =>
    have hagain := writeRam_again hs hc hk
    cases hk
    exact (execMbc2WrRam_enabled (c := cartRamWrite c _ (lowNibble v)) rfl hr hen).trans hagain
  next => exact exec_again_of_answer (i := .mbc2WrRam a v) h hk

theorem execMbc5WrRam_again (hs : s.sound = true) (h : execMbc5WrRam a v s = .next u) :
    execMbc5WrRam a v u = .next u := by
  obtain ⟨c, r, hc, hr, hk⟩ := onMbc5_next h
  split at hk
  next hacc =>
    have hagain := writeRam_again hs hc hk
    cases hk
    exact (execMbc5WrRam_accessible (c := cartRamWrite c _ v) rfl hr hacc).trans hagain
  next => exact exec_again_of_answer (i := .mbc5WrRam a v) h hk

/-- A write of the live clock leaves the target of the window, and repeats the same field. -/
theorem execMbc3WrRam_again (hs : s.sound = true) (h : execMbc3WrRam a v s = .next u) :
    execMbc3WrRam a v u = .next u := by
  obtain ⟨c, r, hc, hr, hk⟩ := onMbc3_next h
  split at hk
  next b htarget =>
    have hagain := writeRam_again hs hc hk
    cases hk
    exact (execMbc3WrRam_ram (c := cartRamWrite c _ v) rfl hr htarget).trans hagain
  next reg k htarget =>
    obtain ⟨hen, hreg, hclock⟩ := mbc3Target_rtc htarget
    have htarget' := mbc3Target_eq_rtc (r := { r with clock := some { k with rtc := rtcWrite k.rtc v reg } }) hen hreg
      (liveClock_eq_of_timer (liveClock_hasTimer hclock))
    refine (execMbc3WrRam_rtc (writeRegs_cart hk) rfl htarget').trans ?_
    rw [rtcWrite_again]
    exact writeRegs_again hk
  next => exact exec_again_of_answer (i := .mbc3WrRam a v) h hk

theorem execMbc3WrLatch_again (hs : s.sound = true) (h : execMbc3WrLatch a v s = .next u) :
    execMbc3WrLatch a v u = .next u := by
  obtain ⟨c, r, hc, hr, -⟩ := onMbc3_next h
  have hlive := fit_liveClock hr (sound_fit hs hc)
  have hsound := (does_execMbc3WrLatch (a := a) h).keeps_sound hs
  have hk := (execMbc3WrLatch_eq hc hr hlive).symm.trans h
  have hcart := writeRegs_cart hk
  refine (execMbc3WrLatch_eq hcart rfl (fit_liveClock rfl (sound_fit hsound hcart))).trans ?_
  dsimp only
  rw [map_latchedClock_again]
  exact writeRegs_again hk

/-- Every write repeated ends in the state of the first. -/
theorem exec_again {i : Instr} (hs : s.sound = true) (ht : i.transaction = some (.wr a v)) (h : exec i s = .next u) :
    exec i u = .next u := by
  cases i with
  | asWrWram b w =>
    obtain ⟨c, hc, hk⟩ := withCart_next h
    cases hk
    exact (withCart_eq hc).trans
      (congrArg (fun x => done { s with wram := x.wram }) (wramWrite_again hs (wramOffset b) w))
  | asWrUnmapped8000 | asWrUnmappedE000 =>
    obtain ⟨c, -, hk⟩ := withCart_next h
    exact exec_again_of_answer h hk
  | romWrRam | romWrRom =>
    obtain ⟨c, -, -, hk⟩ := onRomOnly_next h
    exact exec_again_of_answer h hk
  | mbc1WrRam => exact execMbc1WrRam_again hs h
  | mbc1WrRamen | mbc1WrBank1 | mbc1WrBank2 | mbc1WrMode =>
    obtain ⟨c, r, -, -, hk⟩ := onMbc1_next h
    cases hk
    rfl
  | mbc2WrRam => exact execMbc2WrRam_again hs h
  | mbc2WrRamen | mbc2WrRomb =>
    obtain ⟨c, r, -, -, hk⟩ := onMbc2_next h
    cases hk
    rfl
  | mbc2WrIgnored =>
    obtain ⟨c, r, -, -, hk⟩ := onMbc2_next h
    exact exec_again_of_answer h hk
  | mbc3WrRam => exact execMbc3WrRam_again hs h
  | mbc3WrRamen | mbc3WrRomb | mbc3WrSel =>
    obtain ⟨c, r, -, -, hk⟩ := onMbc3_next h
    cases hk
    rfl
  | mbc3WrLatch b w => exact execMbc3WrLatch_again (a := b) hs h
  | mbc5WrRam => exact execMbc5WrRam_again hs h
  | mbc5WrRamen | mbc5WrRamb =>
    obtain ⟨c, r, -, -, hk⟩ := onMbc5_next h
    cases hk
    rfl
  | mbc5WrRombLo b w =>
    obtain ⟨c, r, -, -, hk⟩ := onMbc5_next h
    cases hk
    exact congrArg (fun hi => writeRegs s c (.mbc5 { r with romb := hi ++ w })) BitVec.extractLsb'_append_eq_left
  | mbc5WrRombHi b w =>
    obtain ⟨c, r, -, -, hk⟩ := onMbc5_next h
    cases hk
    exact congrArg (fun lo => writeRegs s c (.mbc5 { r with romb := bitField 0 w ++ lo }))
      BitVec.setWidth_append_eq_right
  | mbc5WrIgnored =>
    obtain ⟨c, r, -, -, hk⟩ := onMbc5_next h
    exact exec_again_of_answer h hk
  | _ => cases ht

/-- Settles O23: a read leaves all but the outcome, a write is served by the same operation again, and that finds what
it writes already there. -/
theorem repeatingATransactionChangesNothing : Obligations.RepeatingATransactionChangesNothing := by
  unfold Obligations.RepeatingATransactionChangesNothing
  intro s u t hs h
  cases t with
  | rd a =>
    have hu : u = { s with response := u.response } := readsHaveNoSideEffect s u a h
    exact ((congrArg (serveBus (.rd a)) hu).trans (serveBus_setResponse (.rd a) s u.response)).trans h
  | wr a v =>
    obtain ⟨c, i, hc, hdecode, hexec⟩ := serveBus_next h
    have hi := serves_of_decodeTransaction hdecode
    obtain ⟨c', hc', hcfg⟩ := transactionsKeepTheConfiguration s u c (.wr a v) hc h
    have hb : i.belongs c'.cfg.ctype.variant = true := hcfg ▸ hi.belongs
    exact (serveBus_eq hc' hi.wellFormed hb hi.transaction).trans (exec_again hs hi.transaction hexec)

end Sys2Proof.Machine
end

section
/-! The real-time clock (45_mbc3 R131 to R133): the stages of a tick, the seconds it counts, and what changes the
latched copy. -/

namespace Sys2Proof.Machine

/-! ### One tick -/

/-- The day counter is one number in two fields (R133). -/
theorem rtcDay_toNat (f : Rtc) : (rtcDay f).toNat = 256 * f.DH0.toNat + f.DL.toNat := by
  rw [rtcDay, BitVec.toNat_append, ← Nat.shiftLeft_add_eq_or_of_lt f.DL.isLt, Nat.shiftLeft_eq, Nat.mul_comm]

/-- What a tick makes of a running clock: the fields below the first that is not at its last value start again, and that
one counts (R133). -/
inductive TickStage (f : Rtc) : Rtc → Prop where
  | second (hs : f.S.toNat ≠ 59) : TickStage f { f with S := f.S + 1#6 }
  | minute (hs : f.S.toNat = 59) (hm : f.M.toNat ≠ 59) : TickStage f { f with S := 0#6, M := f.M + 1#6 }
  | hour (hs : f.S.toNat = 59) (hm : f.M.toNat = 59) (hh : f.H.toNat ≠ 23) :
      TickStage f { f with S := 0#6, M := 0#6, H := f.H + 1#5 }
  | day (hs : f.S.toNat = 59) (hm : f.M.toNat = 59) (hh : f.H.toNat = 23) (dl : BitVec 8) (dh : BitVec 1)
      (hd : 256 * dh.toNat + dl.toNat = 256 * f.DH0.toNat + f.DL.toNat + 1) :
      TickStage f { f with S := 0#6, M := 0#6, H := 0#5, DL := dl, DH0 := dh }
  | wrap (hs : f.S.toNat = 59) (hm : f.M.toNat = 59) (hh : f.H.toNat = 23)
      (hd : 256 * f.DH0.toNat + f.DL.toNat = 511) :
      TickStage f { f with S := 0#6, M := 0#6, H := 0#5, DL := 0#8, DH0 := 0#1, DC := 1#1 }

theorem rtcTick_halted {f : Rtc} (h : f.HALT = 1#1) : rtcTick f = f := if_pos h

theorem rtcTick_stage {f : Rtc} (h : f.HALT = 0#1) : TickStage f (rtcTick f) := by
  have hrun : f.HALT ≠ 1#1 := by
    rw [h]
    decide
  unfold rtcTick
  rw [if_neg hrun]
  simp only [ne_eq, BitVec.toNat_eq, rtcDay_toNat, BitVec.toNat_ofNat, Nat.reducePow, Nat.reduceMod, ite_not]
  split_ifs with hs hm hh hd
  · exact .wrap hs hm hh hd
  · refine .day hs hm hh _ _ ?_
    have hday := rtcDay_toNat f
    have hdl := f.DL.isLt
    have hdh := f.DH0.isLt
    rw [BitVec.extractLsb'_toNat, BitVec.toNat_setWidth, Nat.shiftRight_eq_div_pow, BitVec.toNat_add,
      BitVec.toNat_ofNat]
    omega
  · exact .hour hs hm hh
  · exact .minute hs hm
  · exact .second hs

theorem rtcTick_HALT (f : Rtc) : (rtcTick f).HALT = f.HALT := by
  obtain h | h := BitVec.eq_zero_or_eq_one f.HALT
  · have hstage := rtcTick_stage h
    generalize rtcTick f = g at hstage
    cases hstage <;> rfl
  · rw [rtcTick_halted h]

/-- Settles O44: a halted clock stays; on a running one each stage of the tick says which fields start again, which one
counts and which stay. -/
theorem rtcTickResult : Obligations.RtcTickResult := by
  unfold Obligations.RtcTickResult
  intro s c r k hc hr ht hk
  refine ⟨rtcTick k.rtc, execMbc3RtcTick_eq hc hr ((liveClock_eq_of_timer ht).trans hk), rtcTick_HALT k.rtc,
    rtcTick_halted, fun hrun => ?_⟩
  intro d s59 m59 h23
  have hstage := rtcTick_stage hrun
  generalize rtcTick k.rtc = f at hstage
  cases hstage with
  | second hs => simp [s59, m59, h23, hs]
  | minute hs hm => simp [s59, m59, h23, hs, hm]
  | hour hs hm hh => simp [s59, m59, h23, hs, hm, hh]
  | day hs hm hh dl dh hd =>
    have hdl := dl.isLt
    have hdh := dh.isLt
    have hlast : d ≠ 511 := by omega
    have hnext : 256 * dh.toNat + dl.toNat = (d + 1) % 512 := by omega
    simp [s59, m59, h23, hs, hm, hh, hlast, hnext]
  | wrap hs hm hh hd =>
    have hlast : d = 511 := hd
    simp [s59, m59, h23, hs, hm, hh, hlast]

/-- Settles O45: in each stage the fields that start again are worth what the counting one gains but for the second. -/
theorem rtcTickCountsSeconds : Obligations.RtcTickCountsSeconds := by
  unfold Obligations.RtcTickCountsSeconds
  intro f hS hM hH hrun
  have hstage := rtcTick_stage hrun
  generalize rtcTick f = g at hstage
  have hdl := f.DL.isLt
  have hdh := f.DH0.isLt
  cases hstage with
  | second | minute | hour | day =>
    simp only [rtcSeconds, rtcDay_toNat, BitVec.toNat_add, BitVec.toNat_ofNat, Nat.reducePow, Nat.reduceMod,
      iff_self_or]
    omega
  | wrap =>
    simp only [rtcSeconds, rtcDay_toNat, BitVec.toNat_ofNat, Nat.reducePow, Nat.reduceMod, true_iff]
    omega

/-! ### The latched copy -/

/-- The latched copy that a cartridge's registers hold, if they hold a clock (10_state R26). -/
def Regs.latched : Regs → Option Rtc
  | .mbc3 r => r.clock.map Clock.rtcl
  | .romOnly | .mbc1 _ | .mbc2 _ | .mbc5 _ => none

variable {s u : State} {c c' : Cartridge} {r : Mbc3Regs} {a : Addr} {v : Byte}

theorem Regs.latched_mbc3 {k : Clock} (hk : r.clock = some k) : (Regs.mbc3 r).latched = some k.rtcl := by
  rw [latched, hk]
  rfl

/-- A latch-range write changes the latched copy only by completing the sequence, and then to the live clock (R131). -/
theorem execMbc3WrLatch_latched (hc : s.cart = some c) (hr : c.regs = .mbc3 r) (h : execMbc3WrLatch a v s = .next u)
    (hu : u.cart = some c') : c'.regs.latched = c.regs.latched ∨
      (r.latchPrev = 0x00#8 ∧ v = 0x01#8 ∧ c'.regs.latched = r.clock.map Clock.rtc) := by
  have h := (onMbc3_eq hc hr).symm.trans h
  rw [hr]
  split at h
  next k hk =>
    cases h
    cases hu
    have hclock := liveClock_some hk
    by_cases hseq : r.latchPrev = 0x00#8 ∧ v = 0x01#8
    · refine .inr ⟨hseq.1, hseq.2, ?_⟩
      simp only [Regs.latched, latchedClock, hseq, hclock]
      rfl
    · refine .inl ?_
      simp only [Regs.latched, latchedClock, hseq, hclock]
      rfl
  next =>
    cases h
    cases hu
    exact .inl rfl

/-- Of the writes that the registers of an MBC3 serve, only one of the latch range can change the latched copy. -/
theorem exec_latched {i : Instr} (hc : s.cart = some c) (hr : c.regs = .mbc3 r) (hb : i.belongs .mbc3 = true)
    (ht : i.transaction = some (.wr a v)) (h : exec i s = .next u) (hu : u.cart = some c') :
    c'.regs.latched = c.regs.latched ∨ i = .mbc3WrLatch a v := by
  cases i with
  | mbc3WrLatch =>
    cases ht
    exact .inr rfl
  | asWrWram | asWrUnmapped8000 | asWrUnmappedE000 =>
    cases (withCart_eq hc).symm.trans h
    cases hc.symm.trans hu
    exact .inl rfl
  | mbc3WrRamen | mbc3WrRomb | mbc3WrSel =>
    cases (onMbc3_eq hc hr).symm.trans h
    cases hu
    rw [hr]
    exact .inl rfl
  | mbc3WrRam =>
    have h := (onMbc3_eq hc hr).symm.trans h
    split at h
    next =>
      cases h
      cases hu
      exact .inl rfl
    next reg k htarget =>
      obtain ⟨-, -, hk⟩ := mbc3Target_rtc htarget
      cases h
      cases hu
      rw [hr, Regs.latched_mbc3 (liveClock_some hk)]
      exact .inl rfl
    next =>
      cases h
      cases hc.symm.trans hu
      exact .inl rfl
  | asRdWram | asRdUnmapped8000 | asRdUnmappedE000 | mbc3RdRom0 | mbc3RdRomx | mbc3RdRam | load | mbc3RtcTick =>
    cases ht
  | _ => cases hb

/-- An operation that completes is one that the loaded registers serve. -/
theorem belongs_of_exec_next {i : Instr} (hc : s.cart = some c) (hbus : i.transaction.isSome = true)
    (h : exec i s = .next u) : i.belongs c.regs.variant = true := by
  unfold Instr.belongs
  match hi : i.variant with
  | none => rfl
  | some vr =>
    by_cases hv : c.regs.variant = vr
    · exact beq_iff_eq.2 hv.symm
    · cases (exec_refused hc hi hbus hv).symm.trans h

/-- A transaction changes the latched copy only by completing the sequence, and then to the live clock (R131). -/
theorem serveBus_latched {t : Transaction} (hc : s.cart = some c) (hr : c.regs = .mbc3 r)
    (h : serveBus t s = .next u) (hu : u.cart = some c') (hne : c'.regs.latched ≠ c.regs.latched) :
    ∃ a, t = .wr a 0x01#8 ∧ Addr.within a 0x6000 0x7FFF = true ∧ r.latchPrev = 0x00#8 ∧
      c'.regs.latched = r.clock.map Clock.rtc := by
  cases t with
  | rd a =>
    obtain ⟨-, hcart⟩ := (serveBus_busEffect h).rd_keeps_storage
    cases hu.symm.trans (hcart.trans hc)
    exact absurd rfl hne
  | wr a v =>
    obtain ⟨c₀, i, -, hdecode, hexec⟩ := serveBus_next h
    obtain ⟨hw, -, ht⟩ := serves_of_decodeTransaction hdecode
    have hb := belongs_of_exec_next hc (Option.isSome_iff_exists.2 ⟨_, ht⟩) hexec
    rw [hr] at hb
    obtain heq | rfl := exec_latched hc hr hb ht hexec hu
    · exact absurd heq hne
    · obtain heq | ⟨hprev, rfl, hrtc⟩ := execMbc3WrLatch_latched (a := a) hc hr hexec hu
      · exact absurd heq hne
      · exact ⟨a, rfl, hw, hprev, hrtc⟩

/-- No agent changes the latched copy of a cartridge that stays. -/
theorem AgentEffect.latched_eq (h : AgentEffect s u) (hc : s.cart = some c) (hu : u.cart = some c') :
    c'.regs.latched = c.regs.latched := by
  cases h with
  | same _ hcart =>
    cases hu.symm.trans (hcart.trans hc)
    rfl
  | ram c₀ _ _ hs _ hcart =>
    cases hs.symm.trans hc
    cases hcart.symm.trans hu
    rfl
  | clock c₀ r k g hs hr hk hcart =>
    cases hs.symm.trans hc
    cases hcart.symm.trans hu
    rw [hr, Regs.latched_mbc3 hk]
    rfl
  | powerOn _ hcart => cases hu.symm.trans hcart

/-- Settles O47: of the inputs only a transaction and a load reach the latched copy, and of the transactions only the
one that completes the latch sequence. -/
theorem latchedCopyChangesOnlyByLatch : Obligations.LatchedCopyChangesOnlyByLatch := by
  unfold Obligations.LatchedCopyChangesOnlyByLatch
  intro s u c c' r r' k k' inp hc hr hk h hu hr' hk' hne
  have hlatched : c.regs.latched = some k.rtcl := by rw [hr, Regs.latched_mbc3 hk]
  have hlatched' : c'.regs.latched = some k'.rtcl := by rw [hr', Regs.latched_mbc3 hk']
  have hchanged : c'.regs.latched ≠ c.regs.latched := by
    rw [hlatched, hlatched']
    exact fun heq => hne (Option.some.inj heq)
  obtain ⟨t, rfl, h⟩ | ⟨bytes, checkLogo, rfl, -⟩ | h := serve_next h
  · obtain ⟨a, rfl, ha, hprev, hrtc⟩ := serveBus_latched hc hr h hu hchanged
    obtain ⟨hlo, hhi⟩ := Addr.within_iff.1 ha
    rw [hlatched', hk] at hrtc
    exact .inl ⟨a, rfl, hlo, hhi, hprev, Option.some.inj hrtc⟩
  · exact .inr ⟨bytes, checkLogo, rfl⟩
  · exact absurd (h.effect.latched_eq hc hu) hchanged

end Sys2Proof.Machine
end

section
/-! The pseudo-operations (30_encoding R69): each expands to register writes of the loaded variant, which complete one
after another. -/

namespace Sys2Proof.Machine

variable {s u : State} {c : Cartridge}

/-! ### Register writes in a row -/

/-- The state after a register write of the cartridge `c`. -/
def State.wroteRegs (s : State) (c : Cartridge) (rs : Regs) : State :=
  { s with cart := some { c with regs := rs }, response := some .ok }

@[simp] theorem State.wroteRegs_cart (s : State) (c : Cartridge) (rs : Regs) :
    (s.wroteRegs c rs).cart = some { c with regs := rs } := rfl

theorem writeRegs_eq (s : State) (c : Cartridge) (rs : Regs) : writeRegs s c rs = .next (s.wroteRegs c rs) := rfl

/-- A transaction that issues a register write of the loaded variant. -/
theorem serveBus_wroteRegs {i : Instr} {t : Transaction} {rs : Regs} (hc : s.cart = some c)
    (hi : i.Serves c.cfg.ctype.variant t) (h : exec i s = writeRegs s c rs) :
    serveBus t s = .next (s.wroteRegs c rs) :=
  (serveBus_eq hc hi.wellFormed hi.belongs hi.transaction).trans (h.trans (writeRegs_eq s c rs))

theorem serveBusAll_singleton {t : Transaction} (h : serveBus t s = .next u) : serveBusAll [t] s = .next u :=
  serveBusAll_cons h

theorem serveBusAll_pair {t t' : Transaction} {w : State} (h : serveBus t s = .next u) (h' : serveBus t' u = .next w) :
    serveBusAll [t, t'] s = .next w :=
  (serveBusAll_cons h).trans (serveBusAll_singleton h')

/-! ### RAMON and RAMOFF -/

/-- In every variant that has the latch a write at 0x0000 sets it to the enable value (30_encoding R59). -/
theorem serveBus_ramEnable (hc : s.cart = some c) (hfit : c.regs.fit c.cfg.ctype = true)
    (hv : c.cfg.ctype.variant ≠ .romOnly) (v : Byte) :
    ∃ rs, serveBus (.wr 0x0000#16 v) s = .next (s.wroteRegs c rs) ∧ rs.ramEnabled = enableValue v := by
  have hvar := fit_variant hfit
  cases hr : c.regs with
  | romOnly =>
    rw [hr] at hvar
    exact absurd hvar.symm hv
  | mbc1 r =>
    rw [hr] at hvar
    exact ⟨_, serveBus_wroteRegs (i := .mbc1WrRamen 0x0000#16 v) hc ⟨rfl, hvar ▸ rfl, rfl⟩ (onMbc1_eq hc hr), rfl⟩
  | mbc2 r =>
    rw [hr] at hvar
    exact ⟨_, serveBus_wroteRegs (i := .mbc2WrRamen 0x0000#16 v) hc ⟨rfl, hvar ▸ rfl, rfl⟩ (onMbc2_eq hc hr), rfl⟩
  | mbc3 r =>
    rw [hr] at hvar
    exact ⟨_, serveBus_wroteRegs (i := .mbc3WrRamen 0x0000#16 v) hc ⟨rfl, hvar ▸ rfl, rfl⟩ (onMbc3_eq hc hr), rfl⟩
  | mbc5 r =>
    rw [hr] at hvar
    exact ⟨_, serveBus_wroteRegs (i := .mbc5WrRamen 0x0000#16 v) hc ⟨rfl, hvar ▸ rfl, rfl⟩ (onMbc5_eq hc hr), rfl⟩

theorem ramOn_some {vr : Variant} {ts : List Transaction} (h : ramOn vr = some ts) :
    vr ≠ .romOnly ∧ ts = [.wr 0x0000#16 0x0A#8] := by
  cases vr <;> cases h <;> exact ⟨nofun, rfl⟩

theorem ramOff_some {vr : Variant} {ts : List Transaction} (h : ramOff vr = some ts) :
    vr ≠ .romOnly ∧ ts = [.wr 0x0000#16 0x00#8] := by
  cases vr <;> cases h <;> exact ⟨nofun, rfl⟩

/-- Settles O60: both write the latch, and of their values only RAMON's is the enable value. -/
theorem ramOnAndRamOff : Obligations.RamOnAndRamOff := by
  unfold Obligations.RamOnAndRamOff
  intro s c on off hs hc hon hoff
  obtain ⟨hv, rfl⟩ := ramOn_some hon
  obtain ⟨-, rfl⟩ := ramOff_some hoff
  refine ⟨?_, ?_⟩
  · obtain ⟨rs, hu, hen⟩ := serveBus_ramEnable hc (sound_fit hs hc) hv 0x0A#8
    exact ⟨_, _, serveBusAll_singleton hu, rfl, hen, rfl, rfl⟩
  · obtain ⟨rs, hu, hen⟩ := serveBus_ramEnable hc (sound_fit hs hc) hv 0x00#8
    exact ⟨_, _, serveBusAll_singleton hu, rfl, hen, rfl, rfl⟩

/-! ### The fields of an operand -/

theorem lowBits_setWidth {m : Nat} (hm : m ≤ 8) (x : BitVec m) : lowBits m (x.setWidth 8) = x := by
  rw [lowBits, BitVec.setWidth_setWidth_of_le x hm, BitVec.setWidth_eq]

theorem bitField_setWidth (x : BitVec 1) : bitField 0 (x.setWidth 8) = x := by
  obtain rfl | rfl := BitVec.eq_zero_or_eq_one x <;> rfl

theorem toNat_extractLsb'_eq {w : Nat} (n : BitVec w) (i m : Nat) :
    (n.extractLsb' i m).toNat = n.toNat / 2 ^ i % 2 ^ m := by
  rw [BitVec.extractLsb'_toNat, Nat.shiftRight_eq_div_pow]

/-! ### SELROM, SELRAM, SELRTC and LATCH, per variant -/

/-- Serving the transactions completes and leaves the cartridge with these registers. -/
def SetsRegs (ts : List Transaction) (s : State) (c : Cartridge) (rs : Regs) : Prop :=
  ∃ u, serveBusAll ts s = .next u ∧ u.cart = some { c with regs := rs }

theorem setsRegs_singleton {t : Transaction} {rs : Regs} (h : serveBus t s = .next (s.wroteRegs c rs)) :
    SetsRegs [t] s c rs :=
  ⟨_, serveBusAll_singleton h, rfl⟩

section mbc1
variable {r : Mbc1Regs} (hc : s.cart = some c) (hr : c.regs = .mbc1 r) (hv : c.cfg.ctype.variant = .mbc1)
include hc hr hv

theorem serveBus_mbc1WrBank1 (v : Byte) :
    serveBus (.wr 0x2000#16 v) s = .next (s.wroteRegs c (.mbc1 { r with bank1 := lowBits 5 v })) :=
  serveBus_wroteRegs (i := .mbc1WrBank1 0x2000#16 v) hc ⟨rfl, hv ▸ rfl, rfl⟩ (onMbc1_eq hc hr)

theorem serveBus_mbc1WrBank2 (v : Byte) :
    serveBus (.wr 0x4000#16 v) s = .next (s.wroteRegs c (.mbc1 { r with bank2 := lowBits 2 v })) :=
  serveBus_wroteRegs (i := .mbc1WrBank2 0x4000#16 v) hc ⟨rfl, hv ▸ rfl, rfl⟩ (onMbc1_eq hc hr)

theorem serveBus_mbc1WrMode (v : Byte) :
    serveBus (.wr 0x6000#16 v) s = .next (s.wroteRegs c (.mbc1 { r with mode := lowBits 1 v })) :=
  serveBus_wroteRegs (i := .mbc1WrMode 0x6000#16 v) hc ⟨rfl, hv ▸ rfl, rfl⟩ (onMbc1_eq hc hr)

variable {ts : List Transaction}

theorem selRom_mbc1 {n : BitVec 9} (hts : selRom n .mbc1 = some ts) :
    SetsRegs ts s c (.mbc1 { r with bank1 := n.extractLsb' 0 5, bank2 := n.extractLsb' 5 2 }) := by
  cases hts
  have h₁ := serveBus_mbc1WrBank1 hc hr hv ((n.extractLsb' 0 5).setWidth 8)
  rw [lowBits_setWidth (by decide)] at h₁
  have h₂ := serveBusAll_pair h₁
    (serveBus_mbc1WrBank2 (State.wroteRegs_cart s c _) rfl hv ((n.extractLsb' 5 2).setWidth 8))
  rw [lowBits_setWidth (by decide)] at h₂
  exact ⟨_, h₂, rfl⟩

theorem selRam_mbc1 {n : BitVec 4} (hts : selRam n .mbc1 = some ts) :
    SetsRegs ts s c (.mbc1 { r with mode := 1#1, bank2 := n.extractLsb' 0 2 }) := by
  cases hts
  have h₁ := serveBus_mbc1WrMode hc hr hv 0x01#8
  have h₂ := serveBusAll_pair h₁
    (serveBus_mbc1WrBank2 (State.wroteRegs_cart s c _) rfl hv ((n.extractLsb' 0 2).setWidth 8))
  rw [lowBits_setWidth (by decide)] at h₂
  exact ⟨_, h₂, rfl⟩

end mbc1

theorem selRom_mbc2 {ts : List Transaction} {r : Mbc2Regs} {n : BitVec 9} (hc : s.cart = some c)
    (hr : c.regs = .mbc2 r) (hv : c.cfg.ctype.variant = .mbc2) (hts : selRom n .mbc2 = some ts) :
    SetsRegs ts s c (.mbc2 { r with romb := n.extractLsb' 0 4 }) := by
  cases hts
  have h := serveBus_wroteRegs (i := .mbc2WrRomb 0x0100#16 ((n.extractLsb' 0 4).setWidth 8)) hc ⟨rfl, hv ▸ rfl, rfl⟩
    (onMbc2_eq hc hr)
  rw [lowBits_setWidth (by decide)] at h
  exact setsRegs_singleton h

section mbc3
variable {ts : List Transaction} {r : Mbc3Regs} (hc : s.cart = some c) (hr : c.regs = .mbc3 r)
  (hv : c.cfg.ctype.variant = .mbc3)
include hc hr hv

theorem selRom_mbc3 {n : BitVec 9} (hts : selRom n .mbc3 = some ts) :
    SetsRegs ts s c (.mbc3 { r with romb := n.extractLsb' 0 7 }) := by
  cases hts
  have h := serveBus_wroteRegs (i := .mbc3WrRomb 0x2000#16 ((n.extractLsb' 0 7).setWidth 8)) hc ⟨rfl, hv ▸ rfl, rfl⟩
    (onMbc3_eq hc hr)
  rw [lowBits_setWidth (by decide)] at h
  exact setsRegs_singleton h

/-- SELRAM and SELRTC are the same write on an MBC3. -/
theorem setsRegs_sel (v : Byte) : SetsRegs [.wr 0x4000#16 v] s c (.mbc3 { r with sel := v }) :=
  setsRegs_singleton (serveBus_wroteRegs (i := .mbc3WrSel 0x4000#16 v) hc ⟨rfl, hv ▸ rfl, rfl⟩ (onMbc3_eq hc hr))

theorem serveBus_mbc3WrLatch (hlive : liveClock c r = r.clock) (v : Byte) : serveBus (.wr 0x6000#16 v) s =
    .next (s.wroteRegs c (.mbc3 { r with clock := r.clock.map (latchedClock r.latchPrev v), latchPrev := v })) :=
  serveBus_wroteRegs (i := .mbc3WrLatch 0x6000#16 v) hc ⟨rfl, hv ▸ rfl, rfl⟩
    (execMbc3WrLatch_eq (a := 0x6000#16) hc hr hlive)

end mbc3

section mbc5
variable {r : Mbc5Regs} (hc : s.cart = some c) (hr : c.regs = .mbc5 r) (hv : c.cfg.ctype.variant = .mbc5)
include hc hr hv

theorem serveBus_mbc5WrRombLo (v : Byte) :
    serveBus (.wr 0x2000#16 v) s = .next (s.wroteRegs c (.mbc5 { r with romb := r.romb.extractLsb' 8 1 ++ v })) :=
  serveBus_wroteRegs (i := .mbc5WrRombLo 0x2000#16 v) hc ⟨rfl, hv ▸ rfl, rfl⟩ (onMbc5_eq hc hr)

theorem serveBus_mbc5WrRombHi (v : Byte) : serveBus (.wr 0x3000#16 v) s =
    .next (s.wroteRegs c (.mbc5 { r with romb := bitField 0 v ++ r.romb.setWidth 8 })) :=
  serveBus_wroteRegs (i := .mbc5WrRombHi 0x3000#16 v) hc ⟨rfl, hv ▸ rfl, rfl⟩ (onMbc5_eq hc hr)

variable {ts : List Transaction}

/-- The two halves of `romb` are written one after the other, so the whole operand stands in it. -/
theorem selRom_mbc5 {n : BitVec 9} (hts : selRom n .mbc5 = some ts) :
    SetsRegs ts s c (.mbc5 { r with romb := n }) := by
  cases hts
  have hn : n.extractLsb' 8 1 ++ n.extractLsb' 0 8 = n := BitVec.extractLsb'_append_extractLsb'
  have h₁ := serveBus_mbc5WrRombLo hc hr hv (n.extractLsb' 0 8)
  have h₂ := serveBusAll_pair h₁
    (serveBus_mbc5WrRombHi (State.wroteRegs_cart s c _) rfl hv ((n.extractLsb' 8 1).setWidth 8))
  refine ⟨_, h₂, ?_⟩
  rw [State.wroteRegs_cart, bitField_setWidth, BitVec.setWidth_append_eq_right, hn]

theorem selRam_mbc5 {n : BitVec 4} (hts : selRam n .mbc5 = some ts) :
    SetsRegs ts s c (.mbc5 { r with ramb := n }) := by
  cases hts
  have h := serveBus_wroteRegs (i := .mbc5WrRamb 0x4000#16 (n.setWidth 8)) hc ⟨rfl, hv ▸ rfl, rfl⟩ (onMbc5_eq hc hr)
  rw [lowBits_setWidth (by decide)] at h
  exact setsRegs_singleton h

end mbc5

/-! ### SELROM -/

theorem mbc1CurRomBank_mode0 {cfg : CartConfig} {r : Mbc1Regs} (h : r.mode = 0#1) : mbc1CurRomBank cfg r =
    (r.bank2.toNat * 32 + if r.bank1.toNat = 0 then 1 else r.bank1.toNat) % cfg.romBanks := by
  simp only [mbc1CurRomBank, mbc1RomSel_eq, h, if_true, BitVec.toNat_eq, BitVec.toNat_zero, Nat.mul_comm]

/-- Settles O57: in each variant the writes leave the operand's fields in the ROM bank registers, and the current bank
is read off them. -/
theorem selRomSelectsTheBank : Obligations.SelRomSelectsTheBank := by
  unfold Obligations.SelRomSelectsTheBank
  intro s c n ts hs hc hts hmode
  have hv := fit_variant (sound_fit hs hc)
  rw [← hv] at hts ⊢
  cases hr : c.regs with
  | romOnly =>
    rw [hr] at hts
    cases hts
  | mbc1 r =>
    rw [hr] at hts hv
    obtain ⟨u, hu, hcu⟩ := selRom_mbc1 hc hr hv.symm hts
    refine ⟨u, _, hu, hcu, rfl, (mbc1CurRomBank_mode0 ?_).trans ?_⟩
    · exact hmode r hr
    · simp only [toNat_extractLsb'_eq, Nat.reducePow, Nat.div_one]
      rfl
  | mbc2 r =>
    rw [hr] at hts hv
    obtain ⟨u, hu, hcu⟩ := selRom_mbc2 hc hr hv.symm hts
    refine ⟨u, _, hu, hcu, rfl, ?_⟩
    simp only [curRomBank, mbc2CurRomBank, zeroAlias, toNat_extractLsb'_eq, Nat.reducePow, Nat.div_one]
    rfl
  | mbc3 r =>
    rw [hr] at hts hv
    obtain ⟨u, hu, hcu⟩ := selRom_mbc3 hc hr hv.symm hts
    refine ⟨u, _, hu, hcu, rfl, ?_⟩
    simp only [curRomBank, mbc3CurRomBank, zeroAlias, toNat_extractLsb'_eq, Nat.reducePow, Nat.div_one]
    rfl
  | mbc5 r =>
    rw [hr] at hts hv
    obtain ⟨u, hu, hcu⟩ := selRom_mbc5 hc hr hv.symm hts
    exact ⟨u, _, hu, hcu, rfl, rfl⟩

/-! ### SELRAM and SELRTC -/

theorem mbc1CurRamBank_mode1 {cfg : CartConfig} {r : Mbc1Regs} (h : r.mode = 1#1) :
    mbc1CurRamBank cfg r = r.bank2.toNat % cfg.ramBanks := by
  rw [mbc1CurRamBank, mbc1RamSel, if_pos h]

/-- Settles O58: in each variant the writes leave the operand's field in the RAM bank register or in `sel`. -/
theorem selRamAndSelRtcSelectTheTarget : Obligations.SelRamAndSelRtcSelectTheTarget := by
  unfold Obligations.SelRamAndSelRtcSelectTheTarget
  refine ⟨fun s c n ts hs hc hts => ?_, fun s c n ts hs hc hts => ?_⟩
  · have hv := fit_variant (sound_fit hs hc)
    rw [← hv] at hts
    cases hr : c.regs with
    | romOnly | mbc2 =>
      rw [hr] at hts
      cases hts
    | mbc1 r =>
      rw [hr] at hts hv
      obtain ⟨u, hu, hcu⟩ := selRam_mbc1 hc hr hv.symm hts
      refine ⟨u, _, hu, hcu, rfl, rfl, fun r' h => ?_, nofun, nofun⟩
      cases h
      simp only [mbc1CurRamBank_mode1, toNat_extractLsb'_eq, Nat.reducePow, Nat.div_one]
    | mbc3 r =>
      rw [hr] at hts hv
      cases hts
      obtain ⟨u, hu, hcu⟩ := setsRegs_sel hc hr hv.symm ((n.extractLsb' 0 3).setWidth 8)
      have hsel : ((n.extractLsb' 0 3).setWidth 8).toNat = n.toNat % 8 := by
        rw [BitVec.toNat_setWidth_of_le (by decide), toNat_extractLsb'_eq, pow_zero, Nat.div_one]
        rfl
      refine ⟨u, _, hu, hcu, rfl, rfl, nofun, fun r' h => ?_, nofun⟩
      cases h
      rw [mbc3CurRamBank, hsel]
      exact ⟨Nat.le_of_lt_succ (Nat.mod_lt _ (by decide)), rfl⟩
    | mbc5 r =>
      rw [hr] at hts hv
      obtain ⟨u, hu, hcu⟩ := selRam_mbc5 hc hr hv.symm hts
      refine ⟨u, _, hu, hcu, rfl, rfl, nofun, nofun, fun r' h => ?_⟩
      cases h
      rw [mbc5CurRamBank, mbc5RamSel_eq]
  · have hv := fit_variant (sound_fit hs hc)
    rw [← hv] at hts
    cases hr : c.regs with
    | romOnly | mbc1 | mbc2 | mbc5 =>
      rw [hr] at hts
      cases hts
    | mbc3 r =>
      rw [hr] at hts hv
      cases hts
      obtain ⟨u, hu, hcu⟩ := setsRegs_sel hc hr hv.symm (0x08#8 + BitVec.ofNat 8 n.val)
      refine ⟨u, _, _, hu, hcu, rfl, rfl, rfl, ?_⟩
      have hn := n.isLt
      simp only [BitVec.toNat_add, BitVec.toNat_ofNat]
      omega

/-! ### LATCH -/

/-- Settles O59: the second write finds the first one's 0x00 and copies the live clock, which the first one left. -/
theorem latchCopiesTheLiveClock : Obligations.LatchCopiesTheLiveClock := by
  unfold Obligations.LatchCopiesTheLiveClock
  intro s c r k ts hs hc hr hk hts
  have hfit := sound_fit hs hc
  have hv := fit_variant hfit
  rw [hr] at hv
  rw [← hv] at hts
  cases hts
  have hlive : liveClock c r = r.clock := fit_liveClock hr hfit
  have hlive' : liveClock c { r with clock := some k, latchPrev := 0x00#8 } = some k :=
    liveClock_eq_of_timer (liveClock_hasTimer (hlive.trans hk))
  have h₁ := serveBus_mbc3WrLatch hc hr hv.symm hlive 0x00#8
  rw [map_latchedClock, if_neg (fun h => absurd h.2 (by decide)), hk] at h₁
  exact serveBusAll_pair h₁ (serveBus_mbc3WrLatch (State.wroteRegs_cart s c _) rfl hv.symm hlive' 0x01#8)

end Sys2Proof.Machine
end
